-- ==== Sys2Proof/Word.lean ====
section
/-! DEFINITION. The word types of the command port and of the ring storage.

Every quantity of the block is unsigned (R10). The W-bit registers are not bit vectors here: their width `TIMER_W` is a
parameter of the configuration (R6), so they are natural numbers reduced modulo `2^W` where the spec reduces them. -/
namespace Sys2Proof

/-- A command word, 16 bits (R81). -/
abbrev Word := BitVec 16

/-- A byte: the operand of TX_BYTE (R83), a ring slot (R60), the deserialising shift register (R30). -/
abbrev Byte := BitVec 8

end Sys2Proof
end

