-- ==== Sys2Proof/Config.lean ====
section
/-! DEFINITION. The implementation parameters (R6 to R9), and the free values: what the environment, the host and the
arbiters choose, which the spec leaves open (93_implementation_defined.md V5 to V8). -/
namespace Sys2Proof

/-- `SENTINEL`, the byte a pop or peek of an empty ring returns (R6, 92 D18). -/
def sentinel : Byte := 0x00#8

/-- The bit period in timer ticks, an integer quotient rounded toward zero (R7). -/
def bitPeriod (fTimer baud : Nat) : Nat := fTimer / baud

/-- The default first-sample offset, `(3*BP)/2 - 1` (R6, 92 D6). -/
def defaultOffset (bp : Nat) : Nat := 3 * bp / 2 - 1

/-- `CFG`, the read-only configuration of one block instance (R36, R6). -/
structure InstConfig where
  /-- `TX_PRESENT`: a transmit pin is configured. -/
  txPresent : Bool
  /-- `RX_PRESENT`: a receive pin is configured. -/
  rxPresent : Bool
  /-- `BP`, the bit period in ticks (R7). -/
  bp : Nat
  /-- `OFF`, the first-sample offset in ticks. -/
  off : Nat
  /-- `C`, the ring capacity in byte slots. -/
  cap : Nat
  deriving DecidableEq, Repr

/-- The parameters one channel is described by before its bit period is computed (R6). -/
structure ChannelParams where
  txPresent : Bool
  rxPresent : Bool
  /-- `BAUD`, bits per second. -/
  baud : Nat
  cap : Nat
  /-- `OFF`; `none` takes the default of R6. -/
  off : Option Nat
  deriving DecidableEq, Repr

/-- `CFG` of a channel on a core whose timer runs at `fTimer` increments per second (R6, R7, R232). -/
def InstConfig.ofParams (fTimer : Nat) (c : ChannelParams) : InstConfig where
  txPresent := c.txPresent
  rxPresent := c.rxPresent
  bp := bitPeriod fTimer c.baud
  off := c.off.getD (defaultOffset (bitPeriod fTimer c.baud))
  cap := c.cap

/-- The parameters of a domain (R6). `N_INST` is the length of the domain's list of block instances. -/
structure DomainConfig where
  /-- `TIMER_W`, the width of the cycle timer in bits. -/
  timerW : Nat
  /-- `READ_TIMEOUT`, the host's read-timeout window in ticks, below `2^W` (R190); only the host sequences read it. -/
  readTimeout : Nat
  deriving DecidableEq, Repr

/-- What the host does on one port in the host phase of one tick (R40, R180). -/
structure HostMove where
  /-- Take the response, if there is one. -/
  take : Bool
  /-- Place this command word, if the command slot is empty. -/
  place : Option Word
  deriving DecidableEq, Repr, Inhabited

/-- The host leaves a port alone for one tick ("wait", R181). -/
def HostMove.idle : HostMove := { take := false, place := none }

/-- What a host that runs façade calls lets itself do in one tick (R180: it may wait any number of ticks). -/
structure Pace where
  mayTake : Bool
  mayPlace : Bool
  deriving DecidableEq, Repr, Inhabited

/-- FREE VALUE (R15, R47, 93 V7; log entry 4): the level of the receive pin of an `inst` of a domain in a tick. -/
opaque freePin : (domain tick inst : Nat) → Bool

/-- FREE VALUE (R180, 93 V8; log entry 5): the host's move on the port of an `inst` of a domain in a tick. -/
opaque freeMove : (domain tick inst : Nat) → HostMove

/-- FREE VALUE (R46, 93 V6; log entry 6): which of several ready captures a domain starts in a tick. -/
opaque freeCapturePick : (domain tick : Nat) → Nat

/-- FREE VALUE (R45, 93 V5; log entry 6): which of several eligible commands a domain accepts in a tick. -/
opaque freeCommandPick : (domain tick : Nat) → Nat

/-- FREE VALUE (R180, 93 V8; log entry 5): whether a host running façade calls waits in a tick. -/
opaque freePace : (domain tick : Nat) → Pace

/-- The configuration of `State.reset` (log entry 1, DESIGN CHOICE: the values of 95_test_vectors.md). -/
def InstConfig.default : InstConfig :=
  InstConfig.ofParams 4 { txPresent := true, rxPresent := true, baud := 1, cap := 8, off := none }

/-- The domain parameters of `State.reset` (log entry 1): the default width of R6, the window of program P3. -/
def DomainConfig.default : DomainConfig := { timerW := 32, readTimeout := 10 }

end Sys2Proof
end

