-- ==== Sys2Proof/Syntax.lean ====
section
/-! DEFINITION. The commands of the block: one constructor per row of spec/opcode_table.json (R82). -/
namespace Sys2Proof

/-- A legal command. `DATA` of TX_BYTE is the only operand (R83); no command names a register, an address or a mode. -/
inductive Instr where
  /-- TX_BYTE, `0x01dd`: transmit the byte `b` (R102, R103). -/
  | txByte (b : Byte)
  /-- RB_POP, `0x0200` (R152). -/
  | rbPop
  /-- RB_PEEK, `0x0300` (R153). -/
  | rbPeek
  /-- RB_AVAIL, `0x0400` (R154). -/
  | rbAvail
  /-- RB_CLEAR, `0x0500` (R155). -/
  | rbClear
  /-- GIE_CLR, `0x0600` (R170). -/
  | gieClr
  /-- GIE_SET, `0x0700` (R171). -/
  | gieSet
  /-- TMR_READ, `0x0800` (R172). -/
  | tmrRead
  deriving DecidableEq, Repr

end Sys2Proof
end

