-- ==== Sys2Proof/WellFormed.lean ====
section
/-! DEFINITION. What is well formed: a command word (R85, stated apart from the decoder), an instruction, and a
configuration (R8, R9, R190). -/
namespace Sys2Proof

/-- The reserved field `RSV`, bits 15:12, is zero (R81). -/
def rsvClear (w : Word) : Bool := w.toNat / 4096 == 0

/-- The operation code, bits 11:8, is one of `0x1 .. 0x8` (R82). -/
def opAssigned (w : Word) : Bool := decide (1 ≤ w.toNat / 256 % 16) && decide (w.toNat / 256 % 16 ≤ 8)

/-- `DATA`, bits 7:0, is zero unless the operation is TX_BYTE (R81). -/
def dataAllowed (w : Word) : Bool := w.toNat / 256 % 16 == 1 || w.toNat % 256 == 0

/-- The legal command words, as R85 lists what is illegal. -/
def legalWord (w : Word) : Bool := rsvClear w && opAssigned w && dataAllowed w

/-- A well-formed instruction: its operand is a byte (R83). The type `Byte` already says so for TX_BYTE and no other
command has an operand, so every term of `Instr` is well formed; the checks with content are on words. -/
def Instr.wf : Instr → Bool
  | .txByte b => decide (b.toNat < 256)
  | .rbPop => true
  | .rbPeek => true
  | .rbAvail => true
  | .rbClear => true
  | .gieClr => true
  | .gieSet => true
  | .tmrRead => true

/-- The valid configurations of one block on a `W`-bit timer (R8). -/
def InstConfig.valid (W : Nat) (c : InstConfig) : Bool :=
  decide (2 ≤ c.bp) && decide (10 * c.bp < 2 ^ W) && decide (1 ≤ c.off) && decide (c.off + 8 * c.bp < 2 ^ W) &&
    decide (2 ≤ c.cap)

/-- The valid parameters of a domain: the read-timeout window is below `2^W` (R190, 92 D23). -/
def DomainConfig.valid (d : DomainConfig) : Bool := decide (d.readTimeout < 2 ^ d.timerW)

/-- The round-trip-capable configurations (R9). -/
def InstConfig.roundTrip (W : Nat) (c : InstConfig) : Bool :=
  c.valid W && decide (c.bp - 1 ≤ c.off) && decide (c.off ≤ 2 * c.bp - 2)

end Sys2Proof
end

