-- ==== Sys2Proof/Decode.lean ====
section
/-! DEFINITION. The decoder of command words, total over all 65536 of them (R84), and the encoder (R81, R82). -/
namespace Sys2Proof

/-- Why a word is no legal command (R85). -/
inductive Illegal where
  /-- `RSV ≠ 0`. -/
  | rsvNonzero
  /-- `OP` is `0x0` or one of `0x9 .. 0xF`. -/
  | opReserved
  /-- `DATA ≠ 0` for an `OP` in `0x2 .. 0x8`. -/
  | dataNonzero
  deriving DecidableEq, Repr

/-- `RSV`, bits 15:12 (R81). -/
def rsvField (w : Word) : BitVec 4 := w.extractLsb' 12 4

/-- `OP`, bits 11:8 (R81). -/
def opField (w : Word) : BitVec 4 := w.extractLsb' 8 4

/-- `DATA`, bits 7:0 (R81). -/
def dataField (w : Word) : Byte := w.extractLsb' 0 8

/-- A command without an operand: its `DATA` must be zero (R84). -/
def noOperand (w : Word) (i : Instr) : Except Illegal Instr :=
  if dataField w = 0#8 then .ok i else .error .dataNonzero

/-- Decode and dispatch (R84): the legal command a word stands for, or why it is illegal (R85). -/
def decode (w : Word) : Except Illegal Instr :=
  if rsvField w = 0#4 then
    match (opField w).toNat with
    | 0x1 => .ok (.txByte (dataField w))
    | 0x2 => noOperand w .rbPop
    | 0x3 => noOperand w .rbPeek
    | 0x4 => noOperand w .rbAvail
    | 0x5 => noOperand w .rbClear
    | 0x6 => noOperand w .gieClr
    | 0x7 => noOperand w .gieSet
    | 0x8 => noOperand w .tmrRead
    | _ => .error .opReserved
  else .error .rsvNonzero

/-- The operation code of a command (R82). -/
def Instr.op : Instr → BitVec 4
  | .txByte _ => 0x1#4
  | .rbPop => 0x2#4
  | .rbPeek => 0x3#4
  | .rbAvail => 0x4#4
  | .rbClear => 0x5#4
  | .gieClr => 0x6#4
  | .gieSet => 0x7#4
  | .tmrRead => 0x8#4

/-- The `DATA` field of a command: the byte of TX_BYTE, zero for every other operation (R81). -/
def Instr.data : Instr → Byte
  | .txByte b => b
  | .rbPop => 0x00#8
  | .rbPeek => 0x00#8
  | .rbAvail => 0x00#8
  | .rbClear => 0x00#8
  | .gieClr => 0x00#8
  | .gieSet => 0x00#8
  | .tmrRead => 0x00#8

/-- The word of a command: `RSV ++ OP ++ DATA` (R81). -/
def encode (i : Instr) : Word := 0#4 ++ i.op ++ i.data

/-- One row of spec/opcode_table.json. -/
structure OpcodeRow where
  mnemonic : String
  mask : Word
  value : Word
  deriving DecidableEq, Repr

/-- spec/opcode_table.json: `value` is its `match`. -/
def opcodeTable : List OpcodeRow :=
  [ ⟨"TX_BYTE", 0xFF00#16, 0x0100#16⟩, ⟨"RB_POP", 0xFFFF#16, 0x0200#16⟩, ⟨"RB_PEEK", 0xFFFF#16, 0x0300#16⟩,
    ⟨"RB_AVAIL", 0xFFFF#16, 0x0400#16⟩, ⟨"RB_CLEAR", 0xFFFF#16, 0x0500#16⟩, ⟨"GIE_CLR", 0xFFFF#16, 0x0600#16⟩,
    ⟨"GIE_SET", 0xFFFF#16, 0x0700#16⟩, ⟨"TMR_READ", 0xFFFF#16, 0x0800#16⟩ ]

/-- A word belongs to a row of the table. -/
def OpcodeRow.covers (r : OpcodeRow) (w : Word) : Bool := w &&& r.mask == r.value

/-- The name of a command, as the table spells it. -/
def Instr.mnemonic : Instr → String
  | .txByte _ => "TX_BYTE"
  | .rbPop => "RB_POP"
  | .rbPeek => "RB_PEEK"
  | .rbAvail => "RB_AVAIL"
  | .rbClear => "RB_CLEAR"
  | .gieClr => "GIE_CLR"
  | .gieSet => "GIE_SET"
  | .tmrRead => "TMR_READ"

/-- The word whose low `nbits` bits are those of `w` and whose other bits are zero; every command is one 16-bit word (R90). -/
def tableWord (nbits w : Nat) : Word := BitVec.ofNat 16 (w % 2 ^ nbits)

/-- The instruction the decoder reads from a word of the opcode table. A command is one 16-bit word (R90), so a longer
instruction is none. -/
def decodeTableWord (nbits w : Nat) : Option Instr :=
  if nbits ≤ 16 then (decode (tableWord nbits w)).toOption else none

end Sys2Proof
end

