-- ==== Sys2Proof/Machine/State.lean ====
section
/-! DEFINITION. The state of one domain (R20): its timer and interrupt enable, and the registers of every block instance;
why a step stops; the state after reset (R230, R231). -/
namespace Sys2Proof.Machine

/-- The status codes of a response (R89). -/
inductive Status where
  /-- 0: the operation was performed. -/
  | ok
  /-- 1: pop or peek of an empty ring (R202). -/
  | empty
  /-- 2: TX_BYTE on an instance without a transmit pin (R201). -/
  | noTxPin
  /-- 3: the word is not a legal command (R203). -/
  | illegal
  deriving DecidableEq, Repr

/-- A response: a status and an unsigned number (R87). -/
structure Response where
  status : Status
  value : Nat
  deriving DecidableEq, Repr

/-- The ring storage of an instance (R60): the slots written so far, slot numbers strictly rising, no slot listed that
holds what an unlisted slot reads as. -/
abbrev Memory := List Host.Cell

/-- The registers of the transmit engine TXE of one block instance (R23 to R27). -/
structure Txe where
  /-- `tx_line`, the level TXE drives; `true` is high (R23). -/
  line : Bool
  /-- `tx_busy` (R24). -/
  busy : Bool
  /-- `tx_cell`, `0 .. 9` (R25). -/
  cell : Nat
  /-- `tx_byte` (R26). -/
  byte : Byte
  /-- `tx_start`, W bits (R27). -/
  start : Nat
  /-- `tx_deadline`, W bits (R27). -/
  deadline : Nat
  deriving DecidableEq, Repr

/-- The registers of the receive engine RXE of one block instance (R28 to R30). -/
structure Rxe where
  /-- `rx_prev` (R28). -/
  prev : Bool
  /-- `edge_pending` (R28). -/
  edgePending : Bool
  /-- `rx_busy` (R29). -/
  busy : Bool
  /-- `rx_count`, `0 .. 8` (R29). -/
  count : Nat
  /-- `rx_shift` (R30). -/
  shift : Byte
  /-- `rx_start`, W bits (R29). -/
  start : Nat
  /-- `rx_deadline`, W bits (R29). -/
  deadline : Nat
  deriving DecidableEq, Repr

/-- The ring buffer RB of one block instance (R33). -/
structure Ring where
  /-- `rb_mem`. -/
  mem : Memory
  /-- `rb_w`, `0 .. C-1`. -/
  w : Nat
  /-- `rb_r`, `0 .. C-1`. -/
  r : Nat
  deriving DecidableEq, Repr

/-- The command port of one block instance (R34). -/
structure Port where
  /-- `cmd_slot`. -/
  cmd : Option Word
  /-- `resp_slot`. -/
  resp : Option Response
  deriving DecidableEq, Repr

/-- What stands outside one block instance: its host's receipts and the scripts of its inputs (the model's own). -/
structure Env where
  /-- The responses the host has taken from this port, oldest first (log entry 15). -/
  delivered : List Response
  /-- The receive pin's levels in this tick and the next ones, as far as they are scripted (log entry 4). -/
  rxIn : List Bool
  /-- The host's moves on this port in this tick and the next ones, as far as they are scripted (log entry 5). -/
  hostIn : List HostMove
  deriving DecidableEq, Repr

/-- One block instance (R20): its configuration, its three units and its port. -/
structure Inst where
  /-- `CFG`, read-only (R36; log entry 7). -/
  cfg : InstConfig
  tx : Txe
  rx : Rxe
  rb : Ring
  port : Port
  env : Env
  deriving DecidableEq, Repr

/-- The state of one domain (R20). -/
structure State where
  /-- The domain's parameters, read-only (R6; log entry 7). -/
  cfg : DomainConfig
  /-- Which domain this is (the model's own; log entry 16). -/
  dom : Nat
  /-- The number `n` of the tick (R11). -/
  tick : Nat
  /-- `timer`, the cycle timer, W bits (R31). -/
  timer : Nat
  /-- `gie`, the global interrupt enable (R32). -/
  gie : Bool
  /-- The block instances; `N_INST` is their number (R20). -/
  insts : List Inst
  /-- The index of the block whose command is executed, `i` of `execute(i, w)` (R84; the model's own, log entry 10). -/
  sel : Nat
  /-- The choices of R46 in this tick and the next ones, as far as they are scripted (log entry 6). -/
  captureIn : List Nat
  /-- The choices of R45 in this tick and the next ones, as far as they are scripted (log entry 6). -/
  commandIn : List Nat
  deriving DecidableEq, Repr

/-- Why a step stops with a fault. The block itself has no fault (R200): both reasons are accesses to something the spec says
does not exist, and no reachable state raises either. -/
inductive Fault where
  /-- A push, RB_POP or RB_PEEK at a slot number outside `0 .. C-1` (R61). Raised by them; safe. -/
  | ringSlotOutOfRange
  /-- `sel` names no block instance of the domain (R20). Raised by every command's meaning; safe. -/
  | noSuchInstance
  deriving DecidableEq, Repr

/-- Why a step has no meaning. -/
inductive Refusal where
  /-- A command without a meaning in this model. Raised by no arm; safe. -/
  | notModelled (mnemonic : String)
  /-- The configuration is not valid: "A model refuses an invalid configuration" (R8, R243, 93 U1), and a
  read-timeout window of `2^W` ticks or more is none (R190; log entry 12). Raised by `step`; safe. -/
  | invalidConfiguration
  deriving DecidableEq, Repr

/-- The outcomes of a step of this machine. -/
abbrev Outcome := Host.Outcome State Fault Refusal

/-- The reset values of one block that the spec leaves unspecified (R231; 93 V2, V3, V4). -/
structure InstDraw where
  rxPrev : Bool
  txByte : Byte
  txStart : Nat
  txDeadline : Nat
  rxStart : Nat
  rxDeadline : Nat
  rbMem : Memory
  deriving DecidableEq, Repr

/-- A block right after reset, for a configuration and a draw of the unspecified values (R231). -/
def Inst.resetWith (c : InstConfig) (d : InstDraw) : Inst where
  cfg := c
  tx := { line := true, busy := false, cell := 0, byte := d.txByte, start := d.txStart, deadline := d.txDeadline }
  rx := { prev := d.rxPrev, edgePending := false, busy := false, count := 0, shift := 0x00#8, start := d.rxStart,
          deadline := d.rxDeadline }
  rb := { mem := d.rbMem, w := 0, r := 0 }
  port := { cmd := none, resp := none }
  env := { delivered := [], rxIn := [], hostIn := [] }

/-- A domain right after reset, for its parameters and number, a draw of the timer (93 V1), and one configuration and draw
per block (R230, R231, R232). -/
def State.resetWith (cfg : DomainConfig) (dom timer : Nat) (is : List (InstConfig × InstDraw)) : State where
  cfg := cfg
  dom := dom
  tick := 0
  timer := timer
  gie := true
  insts := is.map fun cd => Inst.resetWith cd.1 cd.2
  sel := 0
  captureIn := []
  commandIn := []

/-- The draw of `State.reset`: every unspecified value zero (log entries 2 and 3, DESIGN CHOICE). -/
def InstDraw.zero : InstDraw where
  rxPrev := false
  txByte := 0x00#8
  txStart := 0
  txDeadline := 0
  rxStart := 0
  rxDeadline := 0
  rbMem := []

/-- The machine right after reset: one instance with both pins (log entry 1), every unspecified value zero. -/
def State.reset : State := State.resetWith DomainConfig.default 0 0 [(InstConfig.default, InstDraw.zero)]

end Sys2Proof.Machine
end

