-- ==== Sys2Proof/Machine/Flags.lean ====
section
/-! DEFINITION. The conditions the block computes and the status it reports (R35, R89, R101, R124, R33): the block has no
condition codes. -/
namespace Sys2Proof.Machine

/-- The code of a status (R89). -/
def Status.code : Status → BitVec 2
  | .ok => 0#2
  | .empty => 1#2
  | .noTxPin => 2#2
  | .illegal => 3#2

/-- "Elapsed" (R11): `(timer - start) mod 2^W`, with the remainder of R10, in `0 .. 2^W - 1` also for `timer < start`. -/
def elapsed (W timer start : Nat) : Nat := (((timer : Int) - (start : Int)) % ((2 ^ W : Nat) : Int)).toNat

/-- A deadline is met (R101, R124): an unsigned compare of the elapsed ticks. -/
def deadlineMet (W timer start deadline : Nat) : Bool := decide (deadline ≤ elapsed W timer start)

/-- A W-bit register's next value (R31, R27). -/
def wrapTo (W x : Nat) : Nat := x % 2 ^ W

/-- An engine of the block holds the foreground off (R44(c), R44(d)). -/
def Inst.busy (p : Inst) : Bool := p.tx.busy || p.rx.busy

/-- "empty" iff indices are equal (R33). -/
def Inst.ringEmpty (p : Inst) : Bool := p.rb.w == p.rb.r

/-- `bits(x)`, the number of bits needed to write `x` (R87). -/
def bitsFor (x : Nat) : Nat := Nat.log2 x + 1

/-- `VW`, the width of the value field of a response word (R87). -/
def valueWidth (W cap : Nat) : Nat := max W (max 8 (bitsFor (cap - 1)))

/-- The hardware response word: `value` in bits `VW+1 : 2`, `status` in bits `1 : 0` (R87). -/
def Response.word (W cap : Nat) (r : Response) : BitVec (valueWidth W cap + 2) :=
  BitVec.ofNat (valueWidth W cap) r.value ++ r.status.code

end Sys2Proof.Machine
end

