-- ==== Sys2Proof/Machine/Operands.lean ====
section
/-! DEFINITION. Where a command or an engine takes its operands from: the byte of TX_BYTE cell by cell (R100, R83), the two
ring indices (R60, R154), the bits of the shift register (R124), the pins (R47). -/
namespace Sys2Proof.Machine

/-- `cell(b, k)`, the line level of bit cell `k` of the frame of byte `b` (R100): low, the data bits with the least
significant first, high. -/
def cell (b : Byte) : Nat → Bool
  | 0 => false
  | k + 1 => if k < 8 then b.getLsbD k else true

/-- The next ring index, `(x + 1) mod C` (R150, R152). -/
def nextIndex (cap x : Nat) : Nat := (x + 1) % cap

/-- `avail = (rb_w - rb_r) mod C` (R154), with the remainder of R10. -/
def Inst.avail (p : Inst) : Nat := (((p.rb.w : Int) - (p.rb.r : Int)) % (p.cfg.cap : Int)).toNat

/-- The byte with bit `k` set to the sampled level (R124). -/
def setBit (v : Byte) (k : Nat) (level : Bool) : Byte :=
  if level then v ||| (1#8 <<< k) else v &&& ~~~(1#8 <<< k)

/-- A byte as a response value, `zext` (R83, R87). -/
def byteValue (b : Byte) : Nat := b.toNat

/-- The level of the instance's transmit pin, if it has one (R23, R47). -/
def Inst.txPin (p : Inst) : Option Bool := if p.cfg.txPresent then some p.tx.line else none

/-- The receive pin's level in this tick: the script's next level, else a free value (R47; log entry 4). -/
def Inst.pinLevel (dom tick k : Nat) (p : Inst) : Bool :=
  match p.env.rxIn with
  | level :: _ => level
  | [] => freePin dom tick k

/-- The host's move on this port in this tick: the script's next move, else a free value (R180; log entry 5). -/
def Inst.hostMove (dom tick k : Nat) (p : Inst) : HostMove :=
  match p.env.hostIn with
  | move :: _ => move
  | [] => freeMove dom tick k

/-- The free choice of R46 in this tick (log entry 6). -/
def State.capturePick (s : State) : Nat :=
  match s.captureIn with
  | c :: _ => c
  | [] => freeCapturePick s.dom s.tick

/-- The free choice of R45 in this tick (log entry 6). -/
def State.commandPick (s : State) : Nat :=
  match s.commandIn with
  | c :: _ => c
  | [] => freeCommandPick s.dom s.tick

/-- One of the candidates, chosen by `c`; every candidate is some choice's (R45, R46). -/
def choose (c : Nat) : List Nat → Option Nat
  | [] => none
  | [k] => some k
  | k :: l :: ks => (k :: l :: ks)[c % (ks.length + 2)]?

end Sys2Proof.Machine
end

