-- ==== Sys2Proof/Machine/Ops.lean ====
section
/-! DEFINITION. The shared operations: the ring storage (R61), the selected command port (R84, R88), and the answer to an
illegal word (R85). The block takes no exception (R200); `illegal` stands where an ISA takes one, and the entry and return
of the receive interrupt (R206, R207) are `captureStart` and `captureStop` of Machine/Receive.lean. -/
namespace Sys2Proof.Machine

/-- What a ring slot that is not listed reads as (log entry 3, DESIGN CHOICE: the reset contents are unspecified and
unobservable, R66). -/
def unlistedByte : Byte := 0x00#8

/-- The byte at a slot. -/
def Memory.read : Memory → Nat → Byte
  | [], _ => unlistedByte
  | (k, b) :: m, a => if k = a then b else Memory.read m a

/-- The storage with slot `a` holding `v`, in the canonical form. -/
def Memory.write : Memory → Nat → Byte → Memory
  | [], a, v => if v = unlistedByte then [] else [(a, v)]
  | (k, b) :: m, a, v =>
    if a < k then (if v = unlistedByte then (k, b) :: m else (a, v) :: (k, b) :: m)
    else if a = k then (if v = unlistedByte then m else (a, v) :: m)
    else (k, b) :: Memory.write m a v

/-- The canonical form: slot numbers strictly rising, and no slot listed that holds what an unlisted one reads as. -/
abbrev Memory.wf (m : Memory) : Prop :=
  m.Pairwise (fun c d => c.1 < d.1) ∧ ∀ c ∈ m, c.2 ≠ unlistedByte

/-- Every listed slot exists: its number is below the capacity (R60). -/
abbrev Memory.within (m : Memory) (cap : Nat) : Prop := ∀ c ∈ m, c.1 < cap

/-- `MemRead(i, 1)` (R61); `none` for a slot that does not exist. -/
def Inst.memRead (p : Inst) (i : Nat) : Option Byte :=
  if i < p.cfg.cap then some (Memory.read p.rb.mem i) else none

/-- `MemWrite(i, 1, v)` (R61); `none` for a slot that does not exist. -/
def Inst.memWrite (p : Inst) (i : Nat) (v : Byte) : Option Memory :=
  if i < p.cfg.cap then some (Memory.write p.rb.mem i v) else none

/-- `resp_slot' <- (st, v)` of one port (R88). -/
def Inst.respond (p : Inst) (st : Status) (v : Nat) : Inst := { p with port.resp := some ⟨st, v⟩ }

/-- The block whose command is executed. -/
def State.block (s : State) : Option Inst := s.insts[s.sel]?

/-- The state with the executing block changed, and nothing else. -/
def State.updBlock (s : State) (f : Inst → Inst) : State := { s with insts := s.insts.modify s.sel f }

/-- `respond(st, v)` of the executing block (R88). -/
def State.respond (s : State) (st : Status) (v : Nat) : State := s.updBlock (·.respond st v)

/-- `gie' <- b` (R32). -/
def State.setGie (s : State) (b : Bool) : State := { s with gie := b }

/-- A command's meaning reads the block that executes it; there is one in every state a step executes a command in. -/
def State.withBlock (s : State) (f : Inst → Outcome) : Outcome :=
  match s.block with
  | some p => f p
  | none => .fault .noSuchInstance

/-- `illegal(i)` (R85): the word is answered `(ILLEGAL, 0)` and nothing else changes. -/
def illegal (s : State) : Outcome := s.withBlock fun _ => .next (s.respond .illegal 0)

/-- The rest of a tick after an outcome: a stop stays a stop. -/
def andThen (o : Outcome) (f : State → State) : Outcome :=
  match o with
  | .next s => .next (f s)
  | .fault r => .fault r
  | .refused r => .refused r

end Sys2Proof.Machine
end

