-- ==== Sys2Proof/Machine/Platform.lean ====
section
/-! DEFINITION. The platform commands: GIE_CLR (R170), GIE_SET (R171), TMR_READ (R172). -/
namespace Sys2Proof.Machine

/-- GIE_CLR (R170), domain-wide. -/
def execGieClr (s : State) : Outcome := s.withBlock fun _ => .next ((s.setGie false).respond .ok 0)

/-- GIE_SET (R171), domain-wide. -/
def execGieSet (s : State) : Outcome := s.withBlock fun _ => .next ((s.setGie true).respond .ok 0)

/-- TMR_READ (R172): the timer's value during the acceptance tick. -/
def execTmrRead (s : State) : Outcome := s.withBlock fun _ => .next (s.respond .ok s.timer)

end Sys2Proof.Machine
end

