-- ==== Sys2Proof/Machine/Ring.lean ====
section
/-! DEFINITION. The ring buffer RB: push (R150), RB_POP (R152), RB_PEEK (R153), RB_AVAIL (R154), RB_CLEAR (R155). -/
namespace Sys2Proof.Machine

/-- `push` (R150): no check against `rb_r`. At a slot that does not exist nothing is written; `blockPhase` stops there first. -/
def Inst.push (p : Inst) (b : Byte) : Inst :=
  match p.memWrite p.rb.w b with
  | some m => { p with rb.mem := m, rb.w := nextIndex p.cfg.cap p.rb.w }
  | none => p

/-- RB_POP (R152). -/
def execRbPop (s : State) : Outcome :=
  s.withBlock fun p =>
    if p.ringEmpty then .next (s.respond .empty (byteValue sentinel))
    else
      match p.memRead p.rb.r with
      | some b => .next (s.updBlock fun q => { q.respond .ok (byteValue b) with rb.r := nextIndex p.cfg.cap p.rb.r })
      | none => .fault .ringSlotOutOfRange

/-- RB_PEEK (R153): `rb_r` unchanged. -/
def execRbPeek (s : State) : Outcome :=
  s.withBlock fun p =>
    if p.ringEmpty then .next (s.respond .empty (byteValue sentinel))
    else
      match p.memRead p.rb.r with
      | some b => .next (s.respond .ok (byteValue b))
      | none => .fault .ringSlotOutOfRange

/-- RB_AVAIL (R154). -/
def execRbAvail (s : State) : Outcome := s.withBlock fun p => .next (s.respond .ok p.avail)

/-- RB_CLEAR (R155): `rb_w` and `rb_mem` unchanged. -/
def execRbClear (s : State) : Outcome :=
  s.withBlock fun p => .next (s.updBlock fun q => { q.respond .ok 0 with rb.r := p.rb.w })

end Sys2Proof.Machine
end

