-- ==== Sys2Proof/Machine/Receive.lean ====
section
/-! DEFINITION. The receive engine RXE: edge detector and latch (R120, R121), capture start (R123), sample (R124), stop and
push (R125). The capture is the receive interrupt: its start is the entry (R206), its finish the return (R207). -/
namespace Sys2Proof.Machine

/-- `fe`: the pin falls in this tick (R120). -/
def Inst.edgeSeen (pin : Bool) (p : Inst) : Bool := p.cfg.rxPresent && p.rx.prev && !pin

/-- The wait of the capture is over in this tick (R124, R125). -/
def Inst.rxDue (W timer : Nat) (p : Inst) : Bool := p.rx.busy && deadlineMet W timer p.rx.start p.rx.deadline

/-- A data sample is taken in this tick (R124). -/
def Inst.sampleDue (W timer : Nat) (p : Inst) : Bool := p.rxDue W timer && decide (p.rx.count < 8)

/-- The capture finishes in this tick, `fin` (R125). -/
def Inst.stopDue (W timer : Nat) (p : Inst) : Bool := p.rxDue W timer && decide (p.rx.count = 8)

/-- One data sample (R124): no check of anything (R128). -/
def Inst.sample (W : Nat) (pin : Bool) (p : Inst) : Inst :=
  { p with
    rx.shift := setBit p.rx.shift p.rx.count pin
    rx.count := p.rx.count + 1
    rx.deadline := wrapTo W (p.rx.deadline + p.cfg.bp) }

/-- The finish of a capture (R125): the byte is pushed; the stop bit's level is not read. The return from the receive
interrupt restores nothing and leaves `gie` alone (R207). -/
def Inst.captureStop (p : Inst) : Inst := { p.push p.rx.shift with rx.busy := false }

/-- `rx_capture_step` (R124, R125). -/
def Inst.captureStep (W timer : Nat) (pin : Bool) (p : Inst) : Inst :=
  if p.sampleDue W timer then p.sample W pin else if p.stopDue W timer then p.captureStop else p

/-- `rx_capture_start` (R123): the entry of the receive interrupt saves nothing (R206); the latch is not cleared. -/
def Inst.captureStart (timer : Nat) (p : Inst) : Inst :=
  { p with rx.busy := true, rx.start := timer, rx.deadline := p.cfg.off, rx.count := 0, rx.shift := 0x00#8 }

/-- The edge detector's history (R120) and the edge latch (R121): an edge in the finishing tick stays latched. -/
def Inst.latchEdge (pin fin : Bool) (p : Inst) : Inst :=
  { p with
    rx.prev := if p.cfg.rxPresent then pin else p.rx.prev
    rx.edgePending := p.edgeSeen pin || (p.rx.edgePending && !fin) }

end Sys2Proof.Machine
end

