-- ==== Sys2Proof/Machine/Transmit.lean ====
section
/-! DEFINITION. The transmit engine TXE: TX_BYTE (R102, R103) and the sequencer step (R101). -/
namespace Sys2Proof.Machine

/-- The TXE registers at the acceptance of TX_BYTE `b` (R102). -/
def Inst.startFrame (timer : Nat) (b : Byte) (p : Inst) : Inst :=
  { p with tx.start := timer, tx.deadline := p.cfg.bp, tx.byte := b, tx.cell := 0, tx.line := false, tx.busy := true }

/-- TX_BYTE (R102 with a transmit pin, R103 without one). With a pin there is no response now: it comes at completion (R93). -/
def execTxByte (b : Byte) (s : State) : Outcome :=
  s.withBlock fun p =>
    if p.cfg.txPresent then .next ((s.setGie false).updBlock (·.startFrame s.timer b))
    else .next (s.respond .noTxPin 0)

/-- The sequencer's wait is over in this tick (R101). -/
def Inst.txDue (W timer : Nat) (p : Inst) : Bool := p.tx.busy && deadlineMet W timer p.tx.start p.tx.deadline

/-- The frame completes in this tick: the stop bit's wait is over (R101). -/
def Inst.txCompletes (W timer : Nat) (p : Inst) : Bool := p.txDue W timer && !decide (p.tx.cell < 9)

/-- The next bit cell goes on the line (R101). -/
def Inst.nextCell (W : Nat) (p : Inst) : Inst :=
  { p with
    tx.cell := p.tx.cell + 1
    tx.line := cell p.tx.byte (p.tx.cell + 1)
    tx.deadline := wrapTo W (p.tx.deadline + p.cfg.bp) }

/-- The frame's end on the port: TXE idle, `respond(OK, 0)` (R101). Its `gie' <- 1` is in `State.engines`. -/
def Inst.endFrame (p : Inst) : Inst := { p.respond .ok 0 with tx.busy := false }

/-- `tx_sequencer_step` of one instance (R101), without `gie`. -/
def Inst.txStep (W timer : Nat) (p : Inst) : Inst :=
  if p.txDue W timer then (if p.tx.cell < 9 then p.nextCell W else p.endFrame) else p

end Sys2Proof.Machine
end

