-- ==== Sys2Proof/Machine/Port.lean ====
section
/-! DEFINITION. The host phase (R40, R180), and which capture and which command a tick starts (R44 to R46). -/
namespace Sys2Proof.Machine

/-- What is left in the response slot after the host's move (R40). -/
def respAfter (m : HostMove) : Option Response → Option Response
  | none => none
  | some r => if m.take then none else some r

/-- What the host gets by its move: the response, if it takes one. -/
def respTaken (m : HostMove) : Option Response → List Response
  | none => []
  | some r => if m.take then [r] else []

/-- What is in the command slot after the host's move: a word is placed in an empty slot only (R180). -/
def cmdAfter (m : HostMove) : Option Word → Option Word
  | none => m.place
  | some w => some w

/-- The host phase of one port (R40, R180). -/
def Inst.hostPhase (m : HostMove) (p : Inst) : Inst :=
  { p with
    env.delivered := p.env.delivered ++ respTaken m p.port.resp
    port.resp := respAfter m p.port.resp
    port.cmd := cmdAfter m p.port.cmd
    env.hostIn := p.env.hostIn.tail }

/-- The host phase of a tick (R40). -/
def State.hostPhase (s : State) : State :=
  { s with insts := s.insts.mapIdx fun k p => p.hostPhase (p.hostMove s.dom s.tick k) }

/-- Some instance of the domain transmits (R44(c)). -/
def State.txActive (s : State) : Bool := s.insts.any (·.tx.busy)

/-- Some instance of the domain captures (R44(d), R46). -/
def State.rxActive (s : State) : Bool := s.insts.any (·.rx.busy)

/-- An instance is ready to capture (R46). -/
def Inst.ready (gie : Bool) (p : Inst) : Bool := p.cfg.rxPresent && !p.rx.busy && p.rx.edgePending && gie

/-- An instance has a command that waits and room for its response (R44(a), R44(b)). -/
def Inst.offers (p : Inst) : Bool := p.port.cmd.isSome && p.port.resp.isNone

/-- The indices of the instances that meet a condition. -/
def State.indices (s : State) (c : Inst → Bool) : List Nat :=
  (List.range s.insts.length).filter fun k => s.insts[k]?.any c

/-- `capture_select()` (R46): one ready instance, freely chosen, if no capture runs in the domain. -/
def State.captureSelect (s : State) : Option Nat :=
  if s.rxActive then none else choose s.capturePick (s.indices (·.ready s.gie))

/-- `command_select(go)` (R44, R45): one eligible command, freely chosen, if no engine is busy and no capture starts. -/
def State.commandSelect (s : State) (go : Option Nat) : Option Nat :=
  if s.txActive || s.rxActive || go.isSome then none else choose s.commandPick (s.indices (·.offers))

end Sys2Proof.Machine
end

