-- ==== Sys2Proof/Machine/Dispatch.lean ====
section
/-! DEFINITION. The meaning of every command (R84): one arm per constructor of `Instr`. -/
namespace Sys2Proof.Machine

def exec (i : Instr) (s : State) : Host.Outcome State Fault Refusal :=
  match i with
  | .txByte b => Sys2Proof.Machine.execTxByte b s
  | .rbPop => Sys2Proof.Machine.execRbPop s
  | .rbPeek => Sys2Proof.Machine.execRbPeek s
  | .rbAvail => Sys2Proof.Machine.execRbAvail s
  | .rbClear => Sys2Proof.Machine.execRbClear s
  | .gieClr => Sys2Proof.Machine.execGieClr s
  | .gieSet => Sys2Proof.Machine.execGieSet s
  | .tmrRead => Sys2Proof.Machine.execTmrRead s

end Sys2Proof.Machine
end

