-- ==== Sys2Proof/Machine/Tick.lean ====
section
/-! DEFINITION. The block phase of a tick (R41). Every sub-step reads the state after the host phase and no register is
written by two of them (R42), so the engines' sub-steps are done first, then the accepted command, then the timer: the
command reads the timer of the acceptance tick, and in a tick that accepts a command no engine is busy (log entry 9). -/
namespace Sys2Proof.Machine

/-- The engines' sub-steps of one instance (R41), in the rule's order: capture step, capture start, transmit sequencer, edge
detector and latch. Each reads registers that those before it do not write. -/
def Inst.engines (W timer : Nat) (pin start : Bool) (p : Inst) : Inst :=
  let captured := p.captureStep W timer pin
  let started := if start then captured.captureStart timer else captured
  { (started.txStep W timer).latchEdge pin (p.stopDue W timer) with env.rxIn := p.env.rxIn.tail }

/-- The engines' sub-steps of every instance, and the `gie' <- 1` of a completed frame (R41, R101). -/
def State.engines (s : State) (go : Option Nat) : State :=
  { s with
    gie := s.gie || s.insts.any (·.txCompletes s.cfg.timerW s.timer)
    insts := s.insts.mapIdx fun k p =>
      p.engines s.cfg.timerW s.timer (p.pinLevel s.dom s.tick k) (go == some k) }

/-- Some instance would push into a slot that does not exist (R61). -/
def State.pushOutOfRange (s : State) : Bool :=
  s.insts.any fun p => p.stopDue s.cfg.timerW s.timer && !decide (p.rb.w < p.cfg.cap)

/-- A command is accepted: it leaves its slot, and its block executes it (R41). -/
def State.accept (s : State) (k : Nat) : State :=
  { s with sel := k, insts := s.insts.modify k fun p => { p with port.cmd := none } }

/-- The command word in an instance's slot. -/
def State.command (s : State) (k : Nat) : Option Word := s.insts[k]? >>= (·.port.cmd)

/-- `execute(i, w)` (R84), of the block `sel`. -/
def execute (w : Word) (s : State) : Outcome :=
  match decode w with
  | .ok i => exec i s
  | .error _ => illegal s

/-- The end of a tick: `timer' <- (timer + 1) mod 2^W` (R31), and the next tick's inputs. -/
def State.advance (s : State) : State :=
  { s with
    timer := wrapTo s.cfg.timerW (s.timer + 1)
    tick := s.tick + 1
    captureIn := s.captureIn.tail
    commandIn := s.commandIn.tail }

/-- The block phase (R41) of the state the host phase left. -/
def State.blockPhase (s : State) : Outcome :=
  let go := s.captureSelect
  if s.pushOutOfRange then .fault .ringSlotOutOfRange
  else
    match s.commandSelect go >>= fun k => (s.command k).map fun w => (k, w) with
    | some (k, w) => andThen (execute w ((s.engines go).accept k)) State.advance
    | none => .next (s.engines go).advance

/-- The configuration is valid: at least one instance and each instance's parameters in range (R8), and the read-timeout
window in range (R190; log entry 12). -/
def State.configValid (s : State) : Bool :=
  s.cfg.valid && !s.insts.isEmpty && s.insts.all fun p => p.cfg.valid s.cfg.timerW

/-- An instance that a command placed on another port cannot be held up by. -/
def Inst.quiet (p : Inst) : Inst :=
  { p with tx.busy := false, rx.busy := false, rx.edgePending := false, port.cmd := none, env.hostIn := HostMove.idle :: p.env.hostIn }

/-- The first instance, about to have the word accepted: the word in its slot, no response in the way, no engine busy. -/
def Inst.offering (w : Word) (p : Inst) : Inst :=
  { p with tx.busy := false, rx.busy := false, rx.edgePending := false, port.cmd := some w, port.resp := none }

/-- The state whose next step accepts the word on the first instance (log entry 13). -/
def State.offer (s : State) (w : Word) : State :=
  { s with insts := s.insts.mapIdx fun k p => if k = 0 then p.offering w else p.quiet }

end Sys2Proof.Machine
end

