-- ==== Sys2Proof/Machine/Step.lean ====
section
/-! DEFINITION. One step of the machine is one tick of one domain (R11, R40). -/
namespace Sys2Proof.Machine

/-- One tick: the host phase, then the block phase (R40). A run under an invalid configuration has no meaning (R8, R190). -/
def step (s : State) : Host.Outcome State Fault Refusal :=
  if s.configValid then s.hostPhase.blockPhase else .refused .invalidConfiguration

/-- The state with a command word where the next step takes its command: in the first instance's command slot, with
nothing in the domain to hold it up (log entry 13). From `State.reset` only that slot changes. -/
def State.withFetchWord (s : State) (nbits w : Nat) : State := s.offer (tableWord nbits w)

end Sys2Proof.Machine
end

