-- ==== Sys2Proof/Machine/Assembler.lean ====
section
/-! DEFINITION. The assembler syntax of host command sequences (R91): one command per line, the mnemonic of R82, and an
operand for TX_BYTE only. What R91 leaves open is in log entry 20. -/
namespace Sys2Proof.Machine

/-- A space or a tab. -/
def isBlank (c : Char) : Bool := c == ' ' || c == '\t'

/-- The characters before the comment, `;` (R91). A `;` in a character operand is an operand: `';'`. -/
def dropComment : List Char → List Char
  | [] => []
  | '\'' :: c :: '\'' :: cs => '\'' :: c :: '\'' :: dropComment cs
  | c :: cs => if c == ';' then [] else c :: dropComment cs

/-- A line without blanks at its ends. -/
def trim (cs : List Char) : List Char := ((cs.dropWhile isBlank).reverse.dropWhile isBlank).reverse

/-- The value of a hexadecimal digit. -/
def hexDigit (c : Char) : Option Nat :=
  if '0' ≤ c && c ≤ '9' then some (c.toNat - '0'.toNat)
  else if 'A' ≤ c && c ≤ 'F' then some (c.toNat - 'A'.toNat + 10)
  else if 'a' ≤ c && c ≤ 'f' then some (c.toNat - 'a'.toNat + 10)
  else none

/-- The value of a decimal digit. -/
def decDigit (c : Char) : Option Nat := if '0' ≤ c && c ≤ '9' then some (c.toNat - '0'.toNat) else none

/-- The value of digits in a base, most significant first, after the value `acc`. -/
def digits (base : Nat) (digit : Char → Option Nat) (acc : Nat) : List Char → Option Nat
  | [] => some acc
  | c :: cs => digit c >>= fun d => digits base digit (acc * base + d) cs

/-- A byte of a number below 256. -/
def toByte (n : Nat) : Option Byte := if n < 256 then some (BitVec.ofNat 8 n) else none

/-- The operand of TX_BYTE (R91): `0x..`, decimal, or a character in single quotes standing for its 8-bit ASCII code, with
`\r` and `\n` as the source writes them. -/
def operandByte : List Char → Option Byte
  | ['\'', '\\', 'r', '\''] => some 0x0D#8
  | ['\'', '\\', 'n', '\''] => some 0x0A#8
  | ['\'', c, '\''] => toByte c.toNat
  | '0' :: 'x' :: c :: cs => digits 16 hexDigit 0 (c :: cs) >>= toByte
  | c :: cs => digits 10 decDigit 0 (c :: cs) >>= toByte
  | [] => none

/-- The commands without an operand. -/
def plainCommands : List Instr := [.rbPop, .rbPeek, .rbAvail, .rbClear, .gieClr, .gieSet, .tmrRead]

/-- One line that holds a command (R91); `none` if it holds none. -/
def assembleLine (line : List Char) : Option Instr :=
  let text := trim (dropComment line)
  let name := text.takeWhile fun c => !isBlank c
  let operand := trim (text.dropWhile fun c => !isBlank c)
  if name = "TX_BYTE".toList then (operandByte operand).map .txByte
  else if operand = [] then plainCommands.find? fun i => name = i.mnemonic.toList
  else none

end Sys2Proof.Machine
end

