-- ==== Sys2Proof/Machine/Facade.lean ====
section
/-! DEFINITION. The channel façade (R180 to R192): the host agent of a domain, which runs façade calls as sequences of
commands. It is software around the block; it reaches the block only through the port moves of R180. -/
namespace Sys2Proof.Machine

/-- A façade call on the block `i` (R182 to R189). -/
inductive Call where
  | writeByte (i : Nat) (b : Byte)
  | writeBytes (i : Nat) (buf : List Byte)
  | writeString (i : Nat) (s : List Byte)
  | available (i : Nat)
  | flush (i : Nat)
  | readByte (i : Nat)
  | peekByte (i : Nat)
  | readBytes (i n : Nat)
  deriving DecidableEq, Repr

/-- What a façade call returns. -/
inductive CallResult where
  /-- A write returned; it returns nothing, whatever the status was (R182). -/
  | written
  /-- `available()` (R185). -/
  | count (n : Nat)
  /-- `flush()` returned (R186). -/
  | flushed
  /-- The bytes read, in order: one for `read_byte` and `peek_byte` (R187 to R189). -/
  | bytes (bs : List Byte)
  /-- `ReadTimeout`, a failure of the host sequence (R190). -/
  | readTimeout
  deriving DecidableEq, Repr

/-- The three reads (R187, R188, R189). -/
inductive ReadOp where
  | readByte
  | peekByte
  | readBytes (n : Nat)
  deriving DecidableEq, Repr

/-- The number of bytes that must be available before a read takes any (R187 to R189). -/
def ReadOp.need : ReadOp → Nat
  | .readByte => 1
  | .peekByte => 1
  | .readBytes n => n

/-- The command that takes a byte (R187 RB_POP, R188 RB_PEEK). -/
def ReadOp.taking : ReadOp → Instr
  | .readByte => .rbPop
  | .peekByte => .rbPeek
  | .readBytes _ => .rbPop

/-- Where a host is in the sequence of a call: the `cmd` it has to issue or waits for. -/
inductive Phase where
  /-- Between two calls. -/
  | idle
  /-- TX_BYTE `b`, then the bytes `rest` (R182, R183). -/
  | write (i : Nat) (b : Byte) (rest : List Byte)
  /-- RB_AVAIL of `available()` (R185). -/
  | avail (i : Nat)
  /-- RB_CLEAR of `flush()` (R186). -/
  | flush (i : Nat)
  /-- The first TMR_READ of a read, which gives `t0` (R187). -/
  | readStart (i : Nat) (op : ReadOp)
  /-- RB_AVAIL of a read's loop. -/
  | readAvail (i : Nat) (op : ReadOp) (t0 : Nat)
  /-- TMR_READ of a read's loop. -/
  | readClock (i : Nat) (op : ReadOp) (t0 : Nat)
  /-- The commands that take the bytes: `left` of them, this one included, `got` taken so far. -/
  | readTake (i : Nat) (op : ReadOp) (got : List Byte) (left : Nat)
  deriving DecidableEq, Repr

/-- The block and the command word of a phase. -/
def Phase.command : Phase → Option (Nat × Word)
  | .idle => none
  | .write i b _ => some (i, encode (.txByte b))
  | .avail i => some (i, encode .rbAvail)
  | .flush i => some (i, encode .rbClear)
  | .readStart i _ => some (i, encode .tmrRead)
  | .readAvail i _ _ => some (i, encode .rbAvail)
  | .readClock i _ _ => some (i, encode .tmrRead)
  | .readTake i op _ _ => some (i, encode op.taking)

/-- The phase after the response of its command, and the call's result if the call ends there (R182 to R190). -/
def Phase.answer (dc : DomainConfig) (r : Response) : Phase → Phase × Option CallResult
  | .idle => (.idle, none)
  | .write _ _ [] => (.idle, some .written)
  | .write i _ (b :: rest) => (.write i b rest, none)
  | .avail _ => (.idle, some (.count r.value))
  | .flush _ => (.idle, some .flushed)
  | .readStart i op => (.readAvail i op r.value, none)
  | .readAvail i op t0 => if op.need ≤ r.value then (.readTake i op [] op.need, none) else (.readClock i op t0, none)
  | .readClock i op t0 =>
    if dc.readTimeout ≤ elapsed dc.timerW r.value t0 then (.idle, some .readTimeout) else (.readAvail i op t0, none)
  | .readTake i op got left =>
    if left ≤ 1 then (.idle, some (.bytes (got ++ [BitVec.ofNat 8 r.value])))
    else (.readTake i op (got ++ [BitVec.ofNat 8 r.value]) (left - 1), none)

/-- The first phase of a call, or its result at once: an empty write issues no command (R183), and `read_bytes(0)` returns
an empty buffer at once (R189; 95_test_vectors.md HS-3; log entry 17). -/
def Call.start : Call → Phase ⊕ CallResult
  | .writeByte i b => .inl (.write i b [])
  | .writeBytes _ [] => .inr .written
  | .writeBytes i (b :: rest) => .inl (.write i b rest)
  | .writeString _ [] => .inr .written
  | .writeString i (b :: rest) => .inl (.write i b rest)
  | .available i => .inl (.avail i)
  | .flush i => .inl (.flush i)
  | .readByte i => .inl (.readStart i .readByte)
  | .peekByte i => .inl (.readStart i .peekByte)
  | .readBytes _ 0 => .inr (.bytes [])
  | .readBytes i (n + 1) => .inl (.readStart i (.readBytes (n + 1)))

/-- The next call that issues a command, the calls after it, and the results of the calls passed over. -/
def nextCall : List Call → Phase × List Call × List CallResult
  | [] => (.idle, [], [])
  | c :: cs =>
    match c.start with
    | .inl ph => (ph, cs, [])
    | .inr res => ((nextCall cs).1, (nextCall cs).2.1, res :: (nextCall cs).2.2)

/-- The host agent of a domain (R180): the calls still to run, where it is in the running one, and what the calls so far
returned. -/
structure HostAgent where
  calls : List Call
  phase : Phase
  /-- The phase's command has been placed and its response not yet taken. -/
  issued : Bool
  results : List CallResult
  /-- How far the host lets itself go in this tick and the next ones, as far as it is scripted (log entry 5). -/
  paceIn : List Pace
  deriving DecidableEq, Repr

/-- A host with calls to run. -/
def HostAgent.start (calls : List Call) : HostAgent :=
  { calls := calls, phase := .idle, issued := false, results := [], paceIn := [] }

/-- The host's pace in this tick: its script's, else a free value (R180). -/
def HostAgent.pace (a : HostAgent) (dom tick : Nat) : Pace :=
  match a.paceIn with
  | p :: _ => p
  | [] => freePace dom tick

/-- The response the agent takes in this tick, with the port it takes it from. -/
def HostAgent.taking (a : HostAgent) (s : State) : Option (Nat × Response) :=
  if a.issued && (a.pace s.dom s.tick).mayTake then
    a.phase.command >>= fun c => (s.insts[c.1]? >>= (·.port.resp)).map fun r => (c.1, r)
  else none

/-- The agent after the response it takes, if it takes one. -/
def HostAgent.afterTake (a : HostAgent) (s : State) : HostAgent :=
  match a.taking s with
  | none => a
  | some (_, r) =>
    { a with
      phase := (a.phase.answer s.cfg r).1
      issued := false
      results := a.results ++ (a.phase.answer s.cfg r).2.toList }

/-- The agent with its next call begun, if it is between calls. -/
def HostAgent.begun (a : HostAgent) : HostAgent :=
  match a.phase with
  | .idle =>
    { a with
      phase := (nextCall a.calls).1
      calls := (nextCall a.calls).2.1
      results := a.results ++ (nextCall a.calls).2.2 }
  | _ => a

/-- The word the agent places in this tick, with its port: the command of its phase, if the port's slot is empty (R180). -/
def HostAgent.placing (a : HostAgent) (s : State) : Option (Nat × Word) :=
  if !a.issued && (a.pace s.dom s.tick).mayPlace then
    a.phase.command >>= fun c => if (s.insts[c.1]?.any fun p => p.port.cmd.isNone) then some c else none
  else none

/-- The agent ready to place: its response taken, and its next call begun if it may go on in this tick. -/
def HostAgent.readied (a : HostAgent) (s : State) : HostAgent :=
  if !(a.afterTake s).issued && (a.pace s.dom s.tick).mayPlace then (a.afterTake s).begun else a.afterTake s

/-- The agent after its part of the host phase (R40). -/
def HostAgent.next (a : HostAgent) (s : State) : HostAgent :=
  { a.readied s with
    issued := (a.readied s).issued || ((a.readied s).placing s).isSome
    paceIn := a.paceIn.tail }

/-- The agent's move on port `k` in this tick (R40: it may take a response and place a command in the same tick). -/
def HostAgent.move (a : HostAgent) (s : State) (k : Nat) : HostMove where
  take := (a.taking s).any fun t => t.1 == k
  place := ((a.readied s).placing s) >>= fun c => if c.1 = k then some c.2 else none

/-- The domain with the agent's moves as the host's moves of this tick. -/
def HostAgent.drive (a : HostAgent) (s : State) : State :=
  { s with insts := s.insts.mapIdx fun k p => { p with env.hostIn := a.move s k :: p.env.hostIn.tail } }

end Sys2Proof.Machine
end

