-- ==== Sys2Proof/Machine/System.lean ====
section
/-! DEFINITION. Several domains on one global tick (R47, D31), their wired pins (R47), and the hosts that run façade calls
(R180): the setting of the round-trip rule R135. -/
namespace Sys2Proof.Machine

/-- A block of a domain: the `inst`-th of the `dom`-th domain. -/
structure Pin where
  dom : Nat
  inst : Nat
  deriving DecidableEq, Repr

/-- A wire from a transmit pin to a receive pin (R47). -/
structure Wire where
  source : Pin
  sink : Pin
  deriving DecidableEq, Repr

/-- A domain, and the host agent that runs façade calls on it; with `none` the host's moves are those of the domain's
scripts and free values. -/
structure Node where
  state : State
  agent : Option HostAgent
  deriving DecidableEq, Repr

/-- Domains stepped together. -/
structure System where
  nodes : List Node
  wires : List Wire
  deriving DecidableEq, Repr

/-- The level of a transmit pin in this tick; `none` if there is no such pin (R47, R23). -/
def System.txLevel (y : System) (p : Pin) : Option Bool :=
  y.nodes[p.dom]? >>= fun n => n.state.insts[p.inst]? >>= Inst.txPin

/-- The level a wire puts on a receive pin in this tick: that of the first wire that ends there and begins at a pin. -/
def System.wireLevel (y : System) (p : Pin) : Option Bool :=
  y.wires.findSome? fun w => if w.sink = p then y.txLevel w.source else none

/-- The receive pin's level of this tick set (R47): the level the wire carries stands for the scripted one. -/
def Inst.withPin (level : Option Bool) (p : Inst) : Inst :=
  match level with
  | some l => { p with env.rxIn := l :: p.env.rxIn.tail }
  | none => p

/-- The `d`-th domain with the levels of its wired pins (R47). -/
def System.wired (y : System) (d : Nat) (s : State) : State :=
  { s with insts := s.insts.mapIdx fun k p => p.withPin (y.wireLevel ⟨d, k⟩) }

/-- The `d`-th domain with all its inputs of this tick. -/
def System.prepared (y : System) (d : Nat) (n : Node) : State :=
  match n.agent with
  | some a => a.drive (y.wired d n.state)
  | none => y.wired d n.state

/-- One tick of the `d`-th domain. -/
def System.stepNode (y : System) (d : Nat) (n : Node) : Host.Outcome Node Fault Refusal :=
  match step (y.prepared d n) with
  | .next t => .next { state := t, agent := n.agent.map fun a => a.next n.state }
  | .fault r => .fault r
  | .refused r => .refused r

/-- One tick of the domains from the `d`-th on. -/
def System.stepFrom (y : System) : Nat → List Node → Host.Outcome (List Node) Fault Refusal
  | _, [] => .next []
  | d, n :: ns =>
    match y.stepNode d n with
    | .next n' =>
      match y.stepFrom (d + 1) ns with
      | .next ns' => .next (n' :: ns')
      | .fault r => .fault r
      | .refused r => .refused r
    | .fault r => .fault r
    | .refused r => .refused r

/-- One global tick: every domain steps, reading the pins as they are before the tick (R43, R47). -/
def System.step (y : System) : Host.Outcome System Fault Refusal :=
  match y.stepFrom 0 y.nodes with
  | .next ns => .next { y with nodes := ns }
  | .fault r => .fault r
  | .refused r => .refused r

/-- `k` global ticks. -/
def System.run : Nat → System → Host.Outcome System Fault Refusal
  | 0, y => .next y
  | k + 1, y =>
    match y.step with
    | .next y' => System.run k y'
    | .fault r => .fault r
    | .refused r => .refused r

end Sys2Proof.Machine
end

