-- ==== Sys2Proof/Safety.lean ====
section
/-! DEFINITION. What a safe run is, in the terms the claims use: the invariants of R38, frames, the schedule of the inputs, the
unread bytes of a ring, and which registers no host can observe. -/
namespace Sys2Proof.Machine

/-! ### Invariants -/

/-- The transmit engine of a reachable state (R38 (b), (c), (f), (g)), with what keeps these inductive: the registers fit
W bits, the line shows the cell being sent, the port has room for the response, and the elapsed time lies in the cell. -/
abbrev Inst.txOk (W timer : Nat) (p : Inst) : Prop :=
  p.tx.cell ≤ 9 ∧ p.tx.start < 2 ^ W ∧ p.tx.deadline < 2 ^ W ∧
    (p.tx.busy = true →
      p.cfg.txPresent = true ∧ p.port.resp = none ∧ p.tx.line = cell p.tx.byte p.tx.cell ∧
        p.tx.deadline = (p.tx.cell + 1) * p.cfg.bp ∧ p.tx.cell * p.cfg.bp < elapsed W timer p.tx.start ∧
        elapsed W timer p.tx.start ≤ p.tx.deadline) ∧
    (p.tx.busy = false → p.tx.line = true)

/-- The receive engine of a reachable state (R38 (b), (c), (h); R121 and R131 for the latch), with what keeps these
inductive. -/
abbrev Inst.rxOk (W timer : Nat) (p : Inst) : Prop :=
  p.rx.count ≤ 8 ∧ p.rx.start < 2 ^ W ∧ p.rx.deadline < 2 ^ W ∧
    (p.rx.busy = true →
      p.cfg.rxPresent = true ∧ p.rx.edgePending = true ∧ p.rx.deadline = p.cfg.off + p.rx.count * p.cfg.bp ∧
        0 < elapsed W timer p.rx.start ∧ elapsed W timer p.rx.start ≤ p.rx.deadline) ∧
    (p.rx.edgePending = true → p.cfg.rxPresent = true)

/-- The ring of a reachable state (R38 (a)): indices in range, the storage canonical and no larger than `C` slots, and
always empty without a receive pin (R131). -/
abbrev Inst.ringOk (p : Inst) : Prop :=
  p.rb.w < p.cfg.cap ∧ p.rb.r < p.cfg.cap ∧ Memory.wf p.rb.mem ∧ Memory.within p.rb.mem p.cfg.cap ∧
    (p.cfg.rxPresent = false → p.rb.w = 0 ∧ p.rb.r = 0)

/-- At most one engine of two blocks is busy (R38 (d)). -/
abbrev Inst.apart (p q : Inst) : Prop := ¬(p.busy = true ∧ q.busy = true)

/-- The invariant of every reachable state of a valid configuration: R38 (a) to (h), and what keeps it inductive. -/
abbrev State.Inv (s : State) : Prop :=
  s.configValid = true ∧ s.timer < 2 ^ s.cfg.timerW ∧
    (∀ p ∈ s.insts,
      p.txOk s.cfg.timerW s.timer ∧ p.rxOk s.cfg.timerW s.timer ∧ p.ringOk ∧
        (p.tx.busy = true → s.gie = false) ∧ ¬(p.tx.busy = true ∧ p.rx.busy = true)) ∧
    s.insts.Pairwise Inst.apart

/-- A draw of the reset values the spec leaves unspecified is in range (R20's widths). -/
abbrev InstDraw.ok (W : Nat) (cd : InstConfig × InstDraw) : Prop :=
  cd.1.valid W = true ∧ cd.2.txStart < 2 ^ W ∧ cd.2.txDeadline < 2 ^ W ∧ cd.2.rxStart < 2 ^ W ∧
    cd.2.rxDeadline < 2 ^ W ∧ Memory.wf cd.2.rbMem ∧ Memory.within cd.2.rbMem cd.1.cap

/-! ### Frames -/

/-- What no command changes: everything of the domain but `gie`, and every block but the executing one (R41, R158). -/
abbrev State.SameElse (s t : State) : Prop :=
  t.cfg = s.cfg ∧ t.dom = s.dom ∧ t.tick = s.tick ∧ t.timer = s.timer ∧ t.sel = s.sel ∧
    t.captureIn = s.captureIn ∧ t.commandIn = s.commandIn ∧ t.insts.length = s.insts.length ∧
    ∀ j, j ≠ s.sel → t.insts[j]? = s.insts[j]?

/-- A command answers a next state in which the executing block is `q`, `gie` is `g`, and nothing else is changed. -/
abbrev CommandGives (i : Instr) (s : State) (q : Inst) (g : Bool) : Prop :=
  ∃ t, exec i s = .next t ∧ t.insts[s.sel]? = some q ∧ t.gie = g ∧ State.SameElse s t

/-- R44 (a) to (d): block `k`'s command is eligible, `go` being the capture that starts in the tick. -/
def State.Eligible (s : State) (go : Option Nat) (k : Nat) : Prop :=
  (∃ p w, s.insts[k]? = some p ∧ p.port.cmd = some w ∧ p.port.resp = none) ∧
    (∀ q ∈ s.insts, q.tx.busy = false ∧ q.rx.busy = false) ∧ go = none

/-- R46: block `k` is ready to capture. -/
def State.ReadyToCapture (s : State) (k : Nat) : Prop :=
  ∃ p, s.insts[k]? = some p ∧ p.cfg.rxPresent = true ∧ p.rx.busy = false ∧ p.rx.edgePending = true ∧ s.gie = true

/-! ### Runs and the inputs of the next ticks -/

/-- `n` ticks of a domain, stopping at the first fault or refusal. -/
def ticks : Nat → State → Outcome
  | 0, s => .next s
  | n + 1, s =>
    match step s with
    | .next t => ticks n t
    | .fault r => .fault r
    | .refused r => .refused r

/-- After `n` ticks the domain is in a state whose block `k` is as described. -/
abbrev After (n : Nat) (s : State) (k : Nat) (P : State → Inst → Prop) : Prop :=
  ∃ t q, ticks n s = .next t ∧ t.insts[k]? = some q ∧ P t q

/-- The level of the receive pin `m` ticks from now: what the script says, else the free value of that tick. -/
def Inst.pinAt (dom tick k : Nat) (p : Inst) (m : Nat) : Bool :=
  match p.env.rxIn[m]? with
  | some level => level
  | none => freePin dom (tick + m) k

/-- In this tick the domain accepts the command `i` on block `k` (R41). -/
abbrev State.Accepts (s : State) (k : Nat) (i : Instr) : Prop :=
  s.hostPhase.commandSelect s.hostPhase.captureSelect = some k ∧ s.hostPhase.command k = some (encode i)

/-- In this tick the domain starts a capture on block `k` (R46). -/
abbrev State.StartsCapture (s : State) (k : Nat) : Prop := s.hostPhase.captureSelect = some k

/-! ### The ring as a queue -/

/-- The unread bytes, oldest first: the `avail` slots from `rb_r` on (R66). -/
def Inst.unread (p : Inst) : List Byte :=
  (List.range p.avail).map fun j => Memory.read p.rb.mem ((p.rb.r + j) % p.cfg.cap)

/-- A producer's or a consumer's operation on a ring. -/
inductive RingOp where
  | push (b : Byte)
  | pop
  deriving DecidableEq, Repr

/-- The byte an operation pushes. -/
def RingOp.pushed : RingOp → List Byte
  | .push b => [b]
  | .pop => []

/-- The byte a response of status OK carries. -/
def okByte : Option Response → List Byte
  | some ⟨.ok, v⟩ => [BitVec.ofNat 8 v]
  | some ⟨.empty, _⟩ => []
  | some ⟨.noTxPin, _⟩ => []
  | some ⟨.illegal, _⟩ => []
  | none => []

/-- Pushes into and RB_POPs from the ring of the executing block: the state after them and the bytes popped with status OK.
`none` if a push is made while `avail = C - 1`, which R157 excludes. -/
def ringRun : List RingOp → State → Option (State × List Byte)
  | [], s => some (s, [])
  | .push b :: ops, s =>
    if s.block.any (fun p => p.avail + 1 < p.cfg.cap) then ringRun ops (s.updBlock (·.push b)) else none
  | .pop :: ops, s =>
    match exec .rbPop s with
    | .next t => (ringRun ops t).map fun r => (r.1, okByte (t.block >>= (·.port.resp)) ++ r.2)
    | .fault _ => none
    | .refused _ => none

/-! ### What no host observes -/

/-- Two blocks that differ at most in registers the spec calls unobservable: `tx_byte`, `tx_start`, `tx_deadline` while TXE is
idle (R26, R27), the capture registers while RXE is idle (R29, R30), and ring slots that hold no unread byte (R66). -/
abbrev Inst.Alike (p q : Inst) : Prop :=
  q.cfg = p.cfg ∧ q.port = p.port ∧ q.env = p.env ∧ q.rb.w = p.rb.w ∧ q.rb.r = p.rb.r ∧ q.unread = p.unread ∧
    q.tx.line = p.tx.line ∧ q.tx.busy = p.tx.busy ∧ (p.tx.busy = true → q.tx = p.tx) ∧
    q.rx.prev = p.rx.prev ∧ q.rx.edgePending = p.rx.edgePending ∧ q.rx.busy = p.rx.busy ∧
    (p.rx.busy = true → q.rx = p.rx)

/-- Two domains that differ at most in unobservable registers. -/
abbrev State.Alike (s t : State) : Prop :=
  t = { s with insts := t.insts } ∧ t.insts.length = s.insts.length ∧
    ∀ (k : Nat) (p q : Inst), s.insts[k]? = some p → t.insts[k]? = some q → Inst.Alike p q

/-- Two blocks whose start times differ by `d` ticks modulo `2^W`, while an engine is busy; all else is equal. -/
abbrev Inst.Shifted (W d : Nat) (p q : Inst) : Prop :=
  q = { p with tx.start := q.tx.start, rx.start := q.rx.start } ∧
    (p.tx.busy = true → q.tx.start = (p.tx.start + d) % 2 ^ W) ∧
    (p.rx.busy = true → q.rx.start = (p.rx.start + d) % 2 ^ W)

/-- Two domains whose timers differ by `d` ticks modulo `2^W` (R31: a free draw). -/
abbrev State.Shifted (d : Nat) (s t : State) : Prop :=
  t = { s with timer := t.timer, insts := t.insts } ∧ t.timer = (s.timer + d) % 2 ^ s.cfg.timerW ∧
    t.insts.length = s.insts.length ∧
    ∀ (k : Nat) (p q : Inst), s.insts[k]? = some p → t.insts[k]? = some q → Inst.Shifted s.cfg.timerW d p q

/-! ### Host sequences -/

/-- A read that needs a byte at all, and whose bytes taken and bytes still to take are together those it needs (R187 to
R189). Every phase of a call is so. -/
def Phase.Counted : Phase → Prop
  | .idle => True
  | .write _ _ _ => True
  | .avail _ => True
  | .flush _ => True
  | .readStart _ op => 1 ≤ op.need
  | .readAvail _ op _ => 1 ≤ op.need
  | .readClock _ op _ => 1 ≤ op.need
  | .readTake _ op got left => 1 ≤ left ∧ got.length + left = op.need

/-- The words a host places in a call, from a phase on, when its commands are answered as listed. -/
def phaseWords (dc : DomainConfig) : List Response → Phase → List Word
  | [], ph => (ph.command.map (·.2)).toList
  | r :: rs, ph => (ph.command.map (·.2)).toList ++ phaseWords dc rs (ph.answer dc r).1

/-! ### Several domains -/

/-- The domains of a system are numbered by their place, so that no two share a free value (log entry 16). -/
abbrev System.numbered (y : System) : Prop :=
  ∀ (d : Nat) (n : Node), y.nodes[d]? = some n → n.state.dom = d

end Sys2Proof.Machine
end

