-- ==== Sys2Proof/Certificates/Slice0/Obligations.lean ====
section
/-! DEFINITION. The statements for the provers. Each cites the rule of spec/ it formalises, or the sections it rests on. -/

open Sys2Proof Sys2Proof.Machine

/-! ### Encoding -/

/-- A few words of 95_test_vectors.md 2.1 decode to the commands they stand for, and a few illegal ones are refused. -/
def Obligations.SpecWordsDecode : Prop :=
  decode 0x0141#16 = .ok (.txByte 0x41#8) ∧ decode 0x01FF#16 = .ok (.txByte 0xFF#8) ∧ decode 0x0200#16 = .ok .rbPop ∧
    decode 0x0300#16 = .ok .rbPeek ∧ decode 0x0400#16 = .ok .rbAvail ∧ decode 0x0500#16 = .ok .rbClear ∧
    decode 0x0600#16 = .ok .gieClr ∧ decode 0x0700#16 = .ok .gieSet ∧ decode 0x0800#16 = .ok .tmrRead ∧
    decode 0x0201#16 = .error .dataNonzero ∧ decode 0x0900#16 = .error .opReserved ∧
    decode 0x0000#16 = .error .opReserved ∧ decode 0x8141#16 = .error .rsvNonzero

/-- Decoding an encoded command gives it back, whatever its operand (R81 to R84). -/
def Obligations.DecodeOfEncode : Prop :=
  ∀ i : Instr, i.wf = true → decode (encode i) = .ok i

/-- A decoded word is the encoding of its command: no bit of a legal word is ignored (R81, R85). -/
def Obligations.EncodeOfDecode : Prop :=
  ∀ (w : Word) (i : Instr), decode w = .ok i → encode i = w

/-- R84, the decode function over all words: which command's rule runs, or `illegal`. -/
def Obligations.ExecuteDispatches : Prop :=
  ∀ (w : Word) (s : State),
    (w.toNat / 4096 ≠ 0 → execute w s = illegal s) ∧
    (w.toNat / 4096 = 0 →
      (w.toNat / 256 % 16 = 1 → execute w s = execTxByte (BitVec.ofNat 8 (w.toNat % 256)) s) ∧
      (w.toNat / 256 % 16 = 2 → execute w s = if w.toNat % 256 = 0 then execRbPop s else illegal s) ∧
      (w.toNat / 256 % 16 = 3 → execute w s = if w.toNat % 256 = 0 then execRbPeek s else illegal s) ∧
      (w.toNat / 256 % 16 = 4 → execute w s = if w.toNat % 256 = 0 then execRbAvail s else illegal s) ∧
      (w.toNat / 256 % 16 = 5 → execute w s = if w.toNat % 256 = 0 then execRbClear s else illegal s) ∧
      (w.toNat / 256 % 16 = 6 → execute w s = if w.toNat % 256 = 0 then execGieClr s else illegal s) ∧
      (w.toNat / 256 % 16 = 7 → execute w s = if w.toNat % 256 = 0 then execGieSet s else illegal s) ∧
      (w.toNat / 256 % 16 = 8 → execute w s = if w.toNat % 256 = 0 then execTmrRead s else illegal s) ∧
      (w.toNat / 256 % 16 = 0 ∨ 9 ≤ w.toNat / 256 % 16 → execute w s = illegal s))

/-- R85: which words are illegal, how many there are, and what accepting one does: the command is consumed and answered
`(ILLEGAL, 0)`, and no pin, ring index, ring slot or `gie` changes. -/
def Obligations.IllegalWordAnswered : Prop :=
  (∀ w : Word, (∃ i, decode w = .ok i) ↔
    w.toNat / 4096 = 0 ∧ (w.toNat / 256 % 16 = 1 ∨ (2 ≤ w.toNat / 256 % 16 ∧ w.toNat / 256 % 16 ≤ 8 ∧ w.toNat % 256 = 0))) ∧
  (∃ l : List Word, l.Nodup ∧ l.length = 263 ∧ ∀ w, w ∈ l ↔ ∃ i, decode w = .ok i) ∧
  ∀ (s : State) (k : Nat) (w : Word) (p : Inst),
    s.configValid = true → s.hostPhase.pushOutOfRange = false →
    s.hostPhase.commandSelect s.hostPhase.captureSelect = some k → s.hostPhase.command k = some w →
    s.hostPhase.insts[k]? = some p → (∀ i, decode w ≠ .ok i) →
    ∃ t q, step s = .next t ∧ t.insts[k]? = some q ∧
      q.port = { cmd := none, resp := some ⟨.illegal, 0⟩ } ∧ q.tx = p.tx ∧ q.rb = p.rb ∧ q.rx.busy = p.rx.busy ∧
      t.gie = s.gie ∧
      ∀ j p' q', j ≠ k → s.hostPhase.insts[j]? = some p' → t.insts[j]? = some q' →
        q'.port = p'.port ∧ q'.tx = p'.tx ∧ q'.rb = p'.rb ∧ q'.rx.busy = p'.rx.busy

/-- The opcode table: no word belongs to two rows, a word is legal exactly if it belongs to one, and its command is that
row's (R82). -/
def Obligations.OpcodeTableUnambiguous : Prop :=
  (∀ (w : Word) (r r' : OpcodeRow), r ∈ opcodeTable → r' ∈ opcodeTable → r.covers w = true → r'.covers w = true → r = r') ∧
  (∀ w : Word, legalWord w = true ↔ ∃ r ∈ opcodeTable, r.covers w = true) ∧
  (∀ (w : Word) (i : Instr) (r : OpcodeRow), decode w = .ok i → r ∈ opcodeTable → r.covers w = true →
    r.mnemonic = i.mnemonic)

/-- The response word: the value in bits `VW+1 : 2`, the status in bits `1 : 0`, for every value that fits `VW` bits; and the
values that commands give fit (R87). -/
def Obligations.ResponseWordLayout : Prop :=
  (∀ (W cap : Nat) (r : Response), r.value < 2 ^ valueWidth W cap →
    (r.word W cap).toNat = r.value * 4 + r.status.code.toNat) ∧
  (∀ (W cap v : Nat), v < 2 ^ W ∨ v < 256 ∨ (2 ≤ cap ∧ v < cap) → v < 2 ^ valueWidth W cap)

/-- Lines of the assembler syntax (R91). That a number of 256 or more, and an operand of a plain command, hold no command is the
model's choice (log entry 20). -/
def Obligations.AssemblerReadsLines : Prop :=
  (∀ i ∈ plainCommands, assembleLine i.mnemonic.toList = some i) ∧
  assembleLine "TX_BYTE 'A'  ; comment".toList = some (.txByte 0x41#8) ∧
  assembleLine "TX_BYTE '\\r'".toList = some (.txByte 0x0D#8) ∧
  assembleLine "TX_BYTE 0x5a".toList = some (.txByte 0x5A#8) ∧
  assembleLine "TX_BYTE 10".toList = some (.txByte 0x0A#8) ∧
  assembleLine "TX_BYTE 256".toList = none ∧ assembleLine "RB_POP 1".toList = none

/-! ### Commands: results, completion and frames -/

/-- R102, TX_BYTE on an instance with a transmit pin, for every byte: interrupts off, the frame's registers, the start bit on
the line, TXE busy, no response now; nothing else changes. -/
def Obligations.TxByteStartsFrame : Prop :=
  ∀ (s : State) (p : Inst) (b : Byte), s.insts[s.sel]? = some p → p.cfg.txPresent = true →
    CommandGives (.txByte b) s
      { p with tx := { line := false, busy := true, cell := 0, byte := b, start := s.timer, deadline := p.cfg.bp } } false

/-- R103, TX_BYTE on an instance without a transmit pin: answered `(NO_TX_PIN, 0)` at once, no pin activity, `gie`
unchanged. -/
def Obligations.TxByteWithoutPin : Prop :=
  ∀ (s : State) (p : Inst) (b : Byte), s.insts[s.sel]? = some p → p.cfg.txPresent = false →
    CommandGives (.txByte b) s { p with port := { cmd := p.port.cmd, resp := some ⟨.noTxPin, 0⟩ } } s.gie

/-- R152, RB_POP: `EMPTY` with the sentinel and no index moved on an empty ring; else `OK` with the byte at the read index,
which advances modulo the capacity. At a slot that does not exist (no reachable state) it stops by name: the
model's choice, log entry 11. -/
def Obligations.RbPopAnswers : Prop :=
  ∀ (s : State) (p : Inst), s.insts[s.sel]? = some p →
    (p.rb.w = p.rb.r →
      CommandGives .rbPop s { p with port := { cmd := p.port.cmd, resp := some ⟨.empty, 0x00⟩ } } s.gie) ∧
    (p.rb.w ≠ p.rb.r → p.rb.r < p.cfg.cap →
      CommandGives .rbPop s
        { p with
          port := { cmd := p.port.cmd, resp := some ⟨.ok, (Memory.read p.rb.mem p.rb.r).toNat⟩ }
          rb := { mem := p.rb.mem, w := p.rb.w, r := (p.rb.r + 1) % p.cfg.cap } } s.gie) ∧
    (p.rb.w ≠ p.rb.r → ¬p.rb.r < p.cfg.cap → exec .rbPop s = .fault .ringSlotOutOfRange)

/-- R153, RB_PEEK: as RB_POP, but the read index is unchanged; so RB_PEEK then RB_POP, with no push between, give the same
response twice. The stop at a slot that does not exist is the model's choice, log entry 11. -/
def Obligations.RbPeekAnswers : Prop :=
  ∀ (s : State) (p : Inst), s.insts[s.sel]? = some p →
    (p.rb.w = p.rb.r →
      CommandGives .rbPeek s { p with port := { cmd := p.port.cmd, resp := some ⟨.empty, 0x00⟩ } } s.gie) ∧
    (p.rb.w ≠ p.rb.r → p.rb.r < p.cfg.cap →
      CommandGives .rbPeek s
        { p with port := { cmd := p.port.cmd, resp := some ⟨.ok, (Memory.read p.rb.mem p.rb.r).toNat⟩ } } s.gie) ∧
    (p.rb.w ≠ p.rb.r → ¬p.rb.r < p.cfg.cap → exec .rbPeek s = .fault .ringSlotOutOfRange) ∧
    (p.rb.r < p.cfg.cap →
      ∃ t u q q', exec .rbPeek s = .next t ∧ exec .rbPop t = .next u ∧ t.insts[s.sel]? = some q ∧
        u.insts[s.sel]? = some q' ∧ q.port.resp = q'.port.resp ∧ q.port.resp ≠ none)

/-- R154, RB_AVAIL: `(rb_w - rb_r) mod C`, for every state; with both indices in range it is the difference, or the difference
plus `C`, and lies in `0 .. C-1` (R156). -/
def Obligations.RbAvailCounts : Prop :=
  ∀ (s : State) (p : Inst), s.insts[s.sel]? = some p →
    (CommandGives .rbAvail s
      { p with port := { cmd := p.port.cmd, resp := some ⟨.ok, (((p.rb.w : Int) - p.rb.r) % p.cfg.cap).toNat⟩ } } s.gie) ∧
    (p.rb.w < p.cfg.cap → p.rb.r ≤ p.rb.w →
      CommandGives .rbAvail s { p with port := { cmd := p.port.cmd, resp := some ⟨.ok, p.rb.w - p.rb.r⟩ } } s.gie) ∧
    (p.rb.r < p.cfg.cap → p.rb.w < p.rb.r →
      p.rb.w + p.cfg.cap - p.rb.r < p.cfg.cap ∧
      CommandGives .rbAvail s
        { p with port := { cmd := p.port.cmd, resp := some ⟨.ok, p.rb.w + p.cfg.cap - p.rb.r⟩ } } s.gie)

/-- R155, RB_CLEAR: the read index becomes the write index, the storage and the write index stay; RB_AVAIL right after it
answers 0. -/
def Obligations.RbClearEmpties : Prop :=
  ∀ (s : State) (p : Inst), s.insts[s.sel]? = some p →
    (CommandGives .rbClear s
      { p with
        port := { cmd := p.port.cmd, resp := some ⟨.ok, 0⟩ }
        rb := { mem := p.rb.mem, w := p.rb.w, r := p.rb.w } } s.gie) ∧
    ∃ t u q, exec .rbClear s = .next t ∧ exec .rbAvail t = .next u ∧ u.insts[s.sel]? = some q ∧
      q.port.resp = some ⟨.ok, 0⟩

/-- R170, GIE_CLR: `gie` becomes 0 for the whole domain, answered `(OK, 0)`; a second one changes nothing. -/
def Obligations.GieClrDisables : Prop :=
  ∀ (s : State) (p : Inst), s.insts[s.sel]? = some p →
    CommandGives .gieClr s { p with port := { cmd := p.port.cmd, resp := some ⟨.ok, 0⟩ } } false ∧
    ∀ t, exec .gieClr s = .next t → exec .gieClr t = .next t

/-- R171, GIE_SET: `gie` becomes 1 for the whole domain, answered `(OK, 0)`; a second one changes nothing. -/
def Obligations.GieSetEnables : Prop :=
  ∀ (s : State) (p : Inst), s.insts[s.sel]? = some p →
    CommandGives .gieSet s { p with port := { cmd := p.port.cmd, resp := some ⟨.ok, 0⟩ } } true ∧
    ∀ t, exec .gieSet s = .next t → exec .gieSet t = .next t

/-- R172, TMR_READ: answered `(OK, timer)` with the timer of the acceptance tick. -/
def Obligations.TmrReadAnswersTimer : Prop :=
  ∀ (s : State) (p : Inst), s.insts[s.sel]? = some p →
    CommandGives .tmrRead s { p with port := { cmd := p.port.cmd, resp := some ⟨.ok, s.timer⟩ } } s.gie

/-- Every command runs, whatever its operand, on a block that exists and whose read index is in range; and none is ever
refused. -/
def Obligations.EveryCommandCompletes : Prop :=
  (∀ (i : Instr) (s : State) (p : Inst), s.insts[s.sel]? = some p → p.rb.r < p.cfg.cap → ∃ t, exec i s = .next t) ∧
  ∀ (i : Instr) (s : State) (r : Refusal), exec i s ≠ .refused r

/-- What no command changes (R41, R110, R158): the timer, every other block, and of the executing block its configuration,
receive engine, write index and every ring slot; the read index unless it is RB_POP or RB_CLEAR; the transmit engine unless
it is TX_BYTE; `gie` unless it is TX_BYTE, GIE_CLR or GIE_SET. -/
def Obligations.CommandFrame : Prop :=
  ∀ (i : Instr) (s t : State), exec i s = .next t →
    State.SameElse s t ∧
    ((∀ b, i ≠ .txByte b) → i ≠ .gieClr → i ≠ .gieSet → t.gie = s.gie) ∧
    ∀ (k : Nat) (p q : Inst), s.insts[k]? = some p → t.insts[k]? = some q →
      q.cfg = p.cfg ∧ q.rx = p.rx ∧ q.env = p.env ∧ q.port.cmd = p.port.cmd ∧ q.rb.w = p.rb.w ∧
        (∀ a, Memory.read q.rb.mem a = Memory.read p.rb.mem a) ∧
        (i ≠ .rbPop → i ≠ .rbClear → q.rb.r = p.rb.r) ∧ ((∀ b, i ≠ .txByte b) → q.tx = p.tx)

/-- When a command answers, and with which status (R93, R201, R202, R203): at once, but for TX_BYTE with a transmit pin;
`NO_TX_PIN` only by TX_BYTE without one, `EMPTY` only by RB_POP and RB_PEEK of an empty ring, `ILLEGAL` by none. -/
def Obligations.CommandStatuses : Prop :=
  ∀ (i : Instr) (s t : State) (p q : Inst), exec i s = .next t → s.insts[s.sel]? = some p → t.insts[s.sel]? = some q →
    (p.cfg.txPresent = true → (∃ b, i = .txByte b) → q.port = p.port) ∧
    (¬(p.cfg.txPresent = true ∧ ∃ b, i = .txByte b) →
      ∃ r, q.port.resp = some r ∧ (r.status = .noTxPin ↔ ∃ b, i = .txByte b) ∧
        (r.status = .empty ↔ (i = .rbPop ∨ i = .rbPeek) ∧ p.rb.w = p.rb.r) ∧ r.status ≠ .illegal)

/-! ### The tick -/

/-- A step runs the decoded command: the tick's engine steps, the command's word taken from its slot, its meaning, then the
timer and the next tick's inputs (R41, R84). R41 lets every sub-step read the state after the host phase; that the model does
the engines first, then the command, then the timer, is its own order, log entry 9 (DEDUCED). -/
def Obligations.StepRunsDecodedCommand : Prop :=
  ∀ (s : State) (k : Nat) (w : Word) (i : Instr),
    s.configValid = true → s.hostPhase.pushOutOfRange = false →
    s.hostPhase.commandSelect s.hostPhase.captureSelect = some k → s.hostPhase.command k = some w →
    decode w = .ok i →
    step s = andThen (exec i ((s.hostPhase.engines none).accept k)) State.advance

/-- The model's choice (log entry 13): from every valid configuration a placed word is executed by the very next step. -/
def Obligations.FetchedWordRuns : Prop :=
  ∀ (s : State) (w : Word), s.configValid = true →
    step (s.withFetchWord 16 w.toNat) =
      andThen (execute w (((s.withFetchWord 16 w.toNat).hostPhase.engines none).accept 0)) State.advance

/-- R44 and R45: an accepted command is eligible; if any is eligible one is accepted; every eligible one is accepted by some
choice; and a command that is not accepted stays in its slot. -/
def Obligations.CommandSelection : Prop :=
  (∀ (s : State) (go : Option Nat) (k : Nat), s.commandSelect go = some k → s.Eligible go k) ∧
  (∀ (s : State) (go : Option Nat) (k : Nat), s.Eligible go k →
    (∃ j, s.commandSelect go = some j) ∧ ∃ c, ({ s with commandIn := [c] } : State).commandSelect go = some k) ∧
  (∀ (s t : State) (k : Nat) (p q : Inst), step s = .next t → s.hostPhase.insts[k]? = some p → t.insts[k]? = some q →
    s.hostPhase.commandSelect s.hostPhase.captureSelect ≠ some k → q.port.cmd = p.port.cmd)

/-- R46: a capture that starts is of a ready block while none runs in the domain; if there is one, one starts; every ready
block's starts by some choice; and a ready block that is not chosen keeps its latch. -/
def Obligations.CaptureSelection : Prop :=
  (∀ (s : State) (k : Nat), s.captureSelect = some k → s.ReadyToCapture k ∧ ∀ q ∈ s.insts, q.rx.busy = false) ∧
  (∀ (s : State) (k : Nat), s.ReadyToCapture k → (∀ q ∈ s.insts, q.rx.busy = false) →
    (∃ j, s.captureSelect = some j) ∧ ∃ c, ({ s with captureIn := [c] } : State).captureSelect = some k) ∧
  (∀ (s t : State) (k : Nat) (q : Inst), step s = .next t → s.ReadyToCapture k → t.insts[k]? = some q →
    q.rx.edgePending = true)

/-- R31: the timer counts ticks modulo `2^W`, whatever the domain does. -/
def Obligations.TimerCountsTicks : Prop :=
  ∀ (n : Nat) (s t : State), s.timer < 2 ^ s.cfg.timerW → ticks n s = .next t →
    t.timer = (s.timer + n) % 2 ^ s.cfg.timerW ∧ t.tick = s.tick + n

/-- R120 and R121: the edge detector's history is the pin's level, and the latch is set by a falling edge and otherwise kept
until the capture's finish; without a receive pin there is no edge. -/
def Obligations.EdgeDetectorAndLatch : Prop :=
  ∀ (s t : State) (k : Nat) (p q : Inst), step s = .next t → s.insts[k]? = some p → t.insts[k]? = some q →
    (p.cfg.rxPresent = true → q.rx.prev = p.pinLevel s.dom s.tick k) ∧
    (p.cfg.rxPresent = false → q.rx.prev = p.rx.prev) ∧
    (q.rx.edgePending = true ↔
      (p.cfg.rxPresent = true ∧ p.rx.prev = true ∧ p.pinLevel s.dom s.tick k = false) ∨
      (p.rx.edgePending = true ∧
        ¬(p.rx.busy = true ∧ p.rx.deadline ≤ elapsed s.cfg.timerW s.timer p.rx.start ∧ p.rx.count = 8)))

/-- R101, the sequencer's step of a busy block: it waits, or puts the next cell on the line, or ends the frame with `gie = 1`
and the response `(OK, 0)`. -/
def Obligations.SequencerStep : Prop :=
  ∀ (s t : State) (k : Nat) (p q : Inst), step s = .next t → s.insts[k]? = some p → t.insts[k]? = some q →
    p.tx.busy = true →
    (elapsed s.cfg.timerW s.timer p.tx.start < p.tx.deadline → q.tx = p.tx) ∧
    (p.tx.deadline ≤ elapsed s.cfg.timerW s.timer p.tx.start → p.tx.cell < 9 →
      q.tx = { p.tx with
        cell := p.tx.cell + 1
        line := cell p.tx.byte (p.tx.cell + 1)
        deadline := (p.tx.deadline + p.cfg.bp) % 2 ^ s.cfg.timerW }) ∧
    (p.tx.deadline ≤ elapsed s.cfg.timerW s.timer p.tx.start → ¬p.tx.cell < 9 →
      q.tx = { p.tx with busy := false } ∧ t.gie = true ∧ q.port.resp = some ⟨.ok, 0⟩)

/-- R123, capture start: the sequencer's registers; the latch is not cleared, the ring not touched. -/
def Obligations.CaptureStartStep : Prop :=
  ∀ (s t : State) (k : Nat) (p q : Inst), step s = .next t → s.StartsCapture k → s.insts[k]? = some p →
    t.insts[k]? = some q →
    q.rx.busy = true ∧ q.rx.start = s.timer ∧ q.rx.deadline = p.cfg.off ∧ q.rx.count = 0 ∧ q.rx.shift = 0x00#8 ∧
      q.rx.edgePending = true ∧ q.rb = p.rb

/-- R124, the sample step of a capturing block: when the wait is over the pin's level goes into bit `rx_count`, and nothing
else of the byte changes; until then the capture waits. -/
def Obligations.SampleStep : Prop :=
  ∀ (s t : State) (k : Nat) (p q : Inst), step s = .next t → s.insts[k]? = some p → t.insts[k]? = some q →
    p.rx.busy = true → p.rx.count < 8 →
    (p.rx.deadline ≤ elapsed s.cfg.timerW s.timer p.rx.start →
      q.rx.shift.getLsbD p.rx.count = p.pinLevel s.dom s.tick k ∧
      (∀ j < 8, j ≠ p.rx.count → q.rx.shift.getLsbD j = p.rx.shift.getLsbD j) ∧
      q.rx.count = p.rx.count + 1 ∧ q.rx.deadline = (p.rx.deadline + p.cfg.bp) % 2 ^ s.cfg.timerW ∧
      q.rx.busy = true ∧ q.rx.start = p.rx.start ∧ q.rb = p.rb) ∧
    (elapsed s.cfg.timerW s.timer p.rx.start < p.rx.deadline →
      q.rx = { p.rx with prev := q.rx.prev, edgePending := q.rx.edgePending } ∧ q.rb = p.rb)

/-- R125 and R150, the stop step and the push: the byte goes to the slot at the write index, which advances modulo the
capacity, whatever the read index is; every other slot and the read index stay. A write index out of range (no reachable
state) stops the step by name: the model's choice, log entry 11. -/
def Obligations.StopStepPushes : Prop :=
  ∀ (s : State) (k : Nat) (p : Inst), s.configValid = true → s.insts[k]? = some p →
    p.rx.busy = true → p.rx.count = 8 → p.rx.deadline ≤ elapsed s.cfg.timerW s.timer p.rx.start →
    (p.cfg.cap ≤ p.rb.w → step s = .fault .ringSlotOutOfRange) ∧
    (∀ (t : State) (q : Inst), p.rb.w < p.cfg.cap → Memory.wf p.rb.mem → step s = .next t → t.insts[k]? = some q →
      q.rx.busy = false ∧ q.rx.shift = p.rx.shift ∧ q.rb.w = (p.rb.w + 1) % p.cfg.cap ∧ q.rb.r = p.rb.r ∧
        ∀ a, Memory.read q.rb.mem a = if a = p.rb.w then p.rx.shift else Memory.read p.rb.mem a)

/-- R158: only a push writes `rb_w` and `rb_mem`, every slot of it; only RB_POP and RB_CLEAR write `rb_r`. -/
def Obligations.RingWriters : Prop :=
  ∀ (s t : State) (k : Nat) (p q : Inst), step s = .next t → s.insts[k]? = some p → t.insts[k]? = some q →
    (¬(p.rx.busy = true ∧ p.rx.count = 8 ∧ p.rx.deadline ≤ elapsed s.cfg.timerW s.timer p.rx.start) →
      q.rb.w = p.rb.w ∧ ∀ a, Memory.read q.rb.mem a = Memory.read p.rb.mem a) ∧
    (q.rb.r ≠ p.rb.r → s.Accepts k .rbPop ∨ s.Accepts k .rbClear)

/-- R32: what changes `gie` in a tick is the end of a frame, which sets it, or an accepted TX_BYTE, GIE_CLR or GIE_SET; a
capture's start or finish never does (R207). -/
def Obligations.GieWriters : Prop :=
  ∀ s t : State, step s = .next t → t.gie ≠ s.gie →
    (t.gie = true ∧ ∃ p ∈ s.insts, p.tx.busy = true ∧ p.tx.deadline ≤ elapsed s.cfg.timerW s.timer p.tx.start ∧ 9 ≤ p.tx.cell) ∨
    ∃ k, (t.gie = true ∧ s.Accepts k .gieSet) ∨ (t.gie = false ∧ (s.Accepts k .gieClr ∨ ∃ b, s.Accepts k (.txByte b)))

/-- R40 and R180: in the host phase the host takes a response or leaves it, places a word in an empty slot only, and has no
other move on the block. -/
def Obligations.HostPhaseMoves : Prop :=
  ∀ (s : State) (k : Nat) (p : Inst), s.insts[k]? = some p →
    s.hostPhase.timer = s.timer ∧ s.hostPhase.gie = s.gie ∧
    ∃ q, s.hostPhase.insts[k]? = some q ∧ q.cfg = p.cfg ∧ q.tx = p.tx ∧ q.rx = p.rx ∧ q.rb = p.rb ∧
      (∀ w, p.port.cmd = some w → q.port.cmd = some w) ∧
      (p.port.cmd = none → q.port.cmd = (p.hostMove s.dom s.tick k).place) ∧
      (p.port.resp = none → q.port.resp = none ∧ q.env.delivered = p.env.delivered) ∧
      (∀ r, p.port.resp = some r →
        ((p.hostMove s.dom s.tick k).take = true → q.port.resp = none ∧ q.env.delivered = p.env.delivered ++ [r]) ∧
        ((p.hostMove s.dom s.tick k).take = false → q.port.resp = some r ∧ q.env.delivered = p.env.delivered))

/-! ### Invariants and whole-machine rules -/

/-- R38: every step keeps the invariant of reachable states, its clauses (a) to (h) among them. -/
def Obligations.StepKeepsInvariant : Prop :=
  ∀ s t : State, s.Inv → step s = .next t → t.Inv

/-- The invariant holds after reset, for every valid configuration and every draw in range of the values the spec leaves
unspecified, and of `State.reset`, whose configuration and draws are the model's choice (log entries 1, 2 and 3). -/
def Obligations.ResetMeetsInvariant : Prop :=
  (∀ (cfg : DomainConfig) (dom timer : Nat) (is : List (InstConfig × InstDraw)), is ≠ [] → cfg.valid = true →
    timer < 2 ^ cfg.timerW →
    (∀ cd ∈ is, InstDraw.ok cfg.timerW cd) → (State.resetWith cfg dom timer is).Inv) ∧
  State.reset.Inv

/-- R231: what reset leaves, for every configuration and every draw of the unspecified values. -/
def Obligations.ResetValues : Prop :=
  ∀ (cfg : DomainConfig) (dom timer : Nat) (is : List (InstConfig × InstDraw)),
    (State.resetWith cfg dom timer is).gie = true ∧ (State.resetWith cfg dom timer is).timer = timer ∧
    (State.resetWith cfg dom timer is).tick = 0 ∧ (State.resetWith cfg dom timer is).insts.length = is.length ∧
    ∀ (k : Nat) (cd : InstConfig × InstDraw), is[k]? = some cd →
      ∃ p, (State.resetWith cfg dom timer is).insts[k]? = some p ∧ p.cfg = cd.1 ∧ p.tx.line = true ∧ p.tx.busy = false ∧
        p.tx.cell = 0 ∧ p.rx.busy = false ∧ p.rx.count = 0 ∧ p.rx.shift = 0x00#8 ∧ p.rx.edgePending = false ∧
        p.rx.prev = cd.2.rxPrev ∧ p.rb.w = 0 ∧ p.rb.r = 0 ∧ p.port = { cmd := none, resp := none }

/-- The block steps every tick (R216): no reachable state stops, whatever the line, the host and the free choices do. -/
def Obligations.StepAlwaysAnswers : Prop :=
  ∀ s : State, s.Inv → ∃ t, step s = .next t

/-- R8 and R190: a run has a meaning exactly under a valid configuration. That R190's bound on the read-timeout window is met by
refusing is the model's choice, log entry 12. -/
def Obligations.InvalidConfigurationRefused : Prop :=
  ∀ s : State, step s = .refused .invalidConfiguration ↔
    ¬(1 ≤ s.insts.length ∧ s.cfg.readTimeout < 2 ^ s.cfg.timerW ∧ ∀ p ∈ s.insts,
      2 ≤ p.cfg.bp ∧ 10 * p.cfg.bp < 2 ^ s.cfg.timerW ∧ 1 ≤ p.cfg.off ∧ p.cfg.off + 8 * p.cfg.bp < 2 ^ s.cfg.timerW ∧
        2 ≤ p.cfg.cap)

/-- While an instance transmits the domain accepts no command and starts no capture (R109); while one captures, or a capture
starts, it accepts no command (R206, R209 (a)). -/
def Obligations.EnginesExcludeEachOther : Prop :=
  ∀ s : State, s.Inv →
    ((∃ p ∈ s.insts, p.tx.busy = true) →
      s.hostPhase.captureSelect = none ∧ s.hostPhase.commandSelect s.hostPhase.captureSelect = none) ∧
    ((∃ p ∈ s.insts, p.rx.busy = true) →
      s.hostPhase.captureSelect = none ∧ s.hostPhase.commandSelect s.hostPhase.captureSelect = none) ∧
    (∀ k, s.StartsCapture k → s.hostPhase.commandSelect s.hostPhase.captureSelect = none)

/-- R88: a response the host has not taken is still there after the tick. -/
def Obligations.ResponsesNeverOverwritten : Prop :=
  ∀ (s t : State) (k : Nat) (p q : Inst) (r : Response), s.Inv → step s = .next t → s.hostPhase.insts[k]? = some p →
    t.insts[k]? = some q → p.port.resp = some r → q.port.resp = some r

/-- R131: an instance without a receive pin latches no edge, captures nothing and pushes nothing, and RB_AVAIL on it answers
0. -/
def Obligations.NoReceivePinNeverReceives : Prop :=
  ∀ (s : State) (k : Nat) (p : Inst), s.Inv → s.insts[k]? = some p → p.cfg.rxPresent = false →
    (∀ (t : State) (q : Inst), step s = .next t → t.insts[k]? = some q →
      q.rx.edgePending = false ∧ q.rx.busy = false ∧ q.rb.w = 0 ∧ q.rb.r = 0 ∧
        ∀ a, Memory.read q.rb.mem a = Memory.read p.rb.mem a) ∧
    (s.sel = k →
      CommandGives .rbAvail s { p with port := { cmd := p.port.cmd, resp := some ⟨.ok, 0⟩ } } s.gie)

/-! ### Frames and captures over many ticks -/

/-- R104: a TX_BYTE accepted in a tick puts `cell(b, j)` on the line in each of the `BP` ticks of cell `j`, ends `10*BP` ticks
later with `gie = 1` and `(OK, 0)`, and the line then stays high until the next TX_BYTE; whatever the timer's value (R106). -/
def Obligations.FrameTiming : Prop :=
  ∀ (s : State) (k : Nat) (p : Inst) (b : Byte), s.Inv → s.insts[k]? = some p → p.cfg.txPresent = true →
    s.Accepts k (.txByte b) →
    (∀ j n, j ≤ 9 → 1 + j * p.cfg.bp ≤ n → n ≤ (j + 1) * p.cfg.bp →
      After n s k fun t q => q.tx.line = cell b j ∧ q.tx.busy = true ∧ t.gie = false) ∧
    (After (10 * p.cfg.bp + 1) s k fun t q =>
      q.tx.busy = false ∧ t.gie = true ∧ q.port.resp = some ⟨.ok, 0⟩ ∧ q.tx.line = true) ∧
    (∀ (m : Nat) (t : State) (q : Inst), 10 * p.cfg.bp + 1 ≤ m → ticks m s = .next t → t.insts[k]? = some q →
      (∀ (n : Nat) (u : State) (c : Byte), 10 * p.cfg.bp + 1 ≤ n → n < m → ticks n s = .next u → ¬u.Accepts k (.txByte c)) →
      q.tx.line = true)

/-- R126: a capture that starts in a tick takes sample `j` exactly `OFF + j*BP` ticks later, with the pin's level of that tick
in bit `j`, is busy until its push `OFF + 8*BP` ticks later, and pushes once. -/
def Obligations.CaptureSchedule : Prop :=
  ∀ (s : State) (k : Nat) (p : Inst), s.Inv → s.insts[k]? = some p → s.StartsCapture k →
    (∀ m, 1 ≤ m → m ≤ p.cfg.off + 8 * p.cfg.bp → After m s k fun _ q => q.rx.busy = true ∧ q.rb = p.rb) ∧
    (∀ j m, j < 8 → p.cfg.off + j * p.cfg.bp + 1 ≤ m → m ≤ p.cfg.off + 8 * p.cfg.bp + 1 →
      After m s k fun _ q => q.rx.shift.getLsbD j = p.pinAt s.dom s.tick k (p.cfg.off + j * p.cfg.bp)) ∧
    (After (p.cfg.off + 8 * p.cfg.bp + 1) s k fun _ q =>
      q.rx.busy = false ∧ q.rb.w = (p.rb.w + 1) % p.cfg.cap ∧ q.rb.r = p.rb.r ∧
        ∀ a, Memory.read q.rb.mem a = if a = p.rb.w then q.rx.shift else Memory.read p.rb.mem a)

/-- R9 and R127: the default offset samples `BP/2` ticks into each cell and is round-trip capable, for every `BP ≥ 2`. -/
def Obligations.DefaultOffsetCentres : Prop :=
  ∀ bp : Nat, 2 ≤ bp →
    1 + defaultOffset bp - bp = bp / 2 ∧ bp - 1 ≤ defaultOffset bp ∧ defaultOffset bp ≤ 2 * bp - 2

/-! ### The ring -/

/-- R151: pushing bytes into an empty ring, with no pop between, leaves their number modulo `C` unread, and the unread bytes
are the last ones pushed. -/
def Obligations.OverflowHidesBytes : Prop :=
  ∀ (p : Inst) (bs : List Byte), p.rb.w = p.rb.r → p.rb.w < p.cfg.cap → Memory.wf p.rb.mem →
    (bs.foldl Inst.push p).avail = bs.length % p.cfg.cap ∧
    (bs.foldl Inst.push p).unread = bs.drop (bs.length - bs.length % p.cfg.cap)

/-- R157: with no push at `avail = C - 1` and no RB_CLEAR, the bytes popped with status OK and then the bytes still unread
are the bytes unread before and then the bytes pushed, in order, each once. -/
def Obligations.FifoOrder : Prop :=
  ∀ (ops : List RingOp) (s t : State) (p q : Inst) (out : List Byte), s.insts[s.sel]? = some p → p.ringOk →
    ringRun ops s = some (t, out) → t.insts[t.sel]? = some q →
    out ++ q.unread = p.unread ++ ops.flatMap RingOp.pushed

/-- R159: a push raises `avail` by 1, but one made at `avail = C - 1` drops it to 0. -/
def Obligations.PushChangesAvail : Prop :=
  ∀ (p : Inst) (b : Byte), p.rb.w < p.cfg.cap → p.rb.r < p.cfg.cap →
    (p.push b).avail = if p.avail = p.cfg.cap - 1 then 0 else p.avail + 1

/-! ### What cannot be observed -/

/-- Registers the spec calls unobservable are: two domains that differ at most in them step to two that do (R26, R27, R29,
R30, R66), their ports, pins and `gie` always equal. -/
def Obligations.UnobservableRegisters : Prop :=
  ∀ s t s' : State, s.Inv → t.Inv → State.Alike s t → step s = .next s' → ∃ t', step t = .next t' ∧ State.Alike s' t'

/-- Two resets that differ at most in the unobservable draws are alike (R231, 93 V3 and V4). -/
def Obligations.ResetDrawsAlike : Prop :=
  ∀ (cfg : DomainConfig) (dom timer : Nat) (is js : List (InstConfig × InstDraw)),
    is.map (fun cd => (cd.1, cd.2.rxPrev)) = js.map (fun cd => (cd.1, cd.2.rxPrev)) →
    State.Alike (State.resetWith cfg dom timer is) (State.resetWith cfg dom timer js)

/-- The timer's reset value matters to TMR_READ only (R31): two domains whose timers differ by `d` step alike in every tick
that accepts no TMR_READ, also when a timer wraps (R106). -/
def Obligations.TimerValueUnobserved : Prop :=
  ∀ (d : Nat) (s t s' : State), s.Inv → t.Inv → State.Shifted d s t → (∀ k, ¬s.Accepts k .tmrRead) →
    step s = .next s' → ∃ t', step t = .next t' ∧ State.Shifted d s' t'

/-! ### Host sequences and several domains -/

/-- A read takes bytes only after RB_AVAIL answered at least as many as it needs, takes exactly that many, and returns them
when the last is taken (R187 to R189: "all-or-nothing"). RB_POP and RB_PEEK are issued while it takes bytes only; the count
holds in the first phase of every call and is kept by every answer. -/
def Obligations.ReadTakesOnlyWhenAvailable : Prop :=
  (∀ (dc : DomainConfig) (r : Response) (ph : Phase) (i : Nat) (op : ReadOp) (got : List Byte) (left : Nat),
    (ph.answer dc r).1 = .readTake i op got left →
    (∃ t0, ph = .readAvail i op t0 ∧ op.need ≤ r.value ∧ got = [] ∧ left = op.need) ∨
    (∃ got', ph = .readTake i op got' (left + 1) ∧ 1 ≤ left ∧ got = got' ++ [BitVec.ofNat 8 r.value])) ∧
  (∀ (dc : DomainConfig) (r : Response) (ph : Phase) (bs : List Byte), (ph.answer dc r).2 = some (.bytes bs) →
    ∃ i op got left, ph = .readTake i op got left ∧ left ≤ 1 ∧ bs = got ++ [BitVec.ofNat 8 r.value] ∧
      (ph.Counted → bs.length = op.need)) ∧
  (∀ (dc : DomainConfig) (r : Response) (ph : Phase), ph.Counted → (ph.answer dc r).1.Counted) ∧
  (∀ (c : Call) (ph : Phase), c.start = .inl ph → ph.Counted) ∧
  (∀ (ph : Phase) (i : Nat), ph.command = some (i, encode .rbPop) ∨ ph.command = some (i, encode .rbPeek) →
    ∃ op got left, ph = .readTake i op got left)

/-- R190: a read fails exactly when a TMR_READ of its loop shows that `READ_TIMEOUT` ticks have elapsed since `t0`, the answer
of its first TMR_READ, which its loop keeps; the agent is then between calls. With the window below `2^W` some reading of
the timer makes the read fail. -/
def Obligations.ReadTimeoutOnlyAfterWindow : Prop :=
  (∀ (dc : DomainConfig) (r : Response) (ph : Phase),
    ((ph.answer dc r).2 = some .readTimeout ↔
      ∃ i op t0, ph = .readClock i op t0 ∧ dc.readTimeout ≤ elapsed dc.timerW r.value t0) ∧
    (∀ res, (ph.answer dc r).2 = some res → (ph.answer dc r).1 = .idle)) ∧
  (∀ (dc : DomainConfig) (r : Response) (ph : Phase) (i : Nat) (op : ReadOp) (t0 : Nat),
    ((ph.answer dc r).1 = .readAvail i op t0 ↔
      (ph = .readStart i op ∧ t0 = r.value) ∨
      (ph = .readClock i op t0 ∧ elapsed dc.timerW r.value t0 < dc.readTimeout)) ∧
    ((ph.answer dc r).1 = .readClock i op t0 ↔ ph = .readAvail i op t0 ∧ r.value < op.need) ∧
    (ph.answer dc r).1 ≠ .readStart i op) ∧
  (∀ (c : Call) (ph : Phase) (i : Nat) (op : ReadOp) (t0 : Nat), c.start = .inl ph →
    ph ≠ .readAvail i op t0 ∧ ph ≠ .readClock i op t0) ∧
  (∀ (dc : DomainConfig) (i : Nat) (op : ReadOp) (t0 : Nat), dc.valid = true →
    ∃ v, v < 2 ^ dc.timerW ∧ (Phase.answer dc ⟨.ok, v⟩ (.readClock i op t0)).2 = some .readTimeout)

/-- R182, R183 and R184: a write issues one TX_BYTE per byte, in order, whatever the responses are, and nothing after the last
response: no terminator. A write of no byte issues no command; that it returns at once is read from R183, log entry 17. -/
def Obligations.WriteIssuesBytesInOrder : Prop :=
  (∀ (dc : DomainConfig) (i : Nat) (s : List Byte) (rs : List Response) (ph : Phase), s.length ≤ rs.length →
    (Call.start (.writeString i s) = .inl ph ∨ Call.start (.writeBytes i s) = .inl ph) →
    phaseWords dc rs ph = s.map fun b => encode (.txByte b)) ∧
  (∀ (dc : DomainConfig) (i : Nat) (b : Byte) (rs : List Response) (ph : Phase), 1 ≤ rs.length →
    Call.start (.writeByte i b) = .inl ph → phaseWords dc rs ph = [encode (.txByte b)]) ∧
  (∀ (i : Nat) (s : List Byte), s ≠ [] →
    ∃ ph, Call.start (.writeBytes i s) = .inl ph ∧ Call.start (.writeString i s) = .inl ph) ∧
  (∀ i : Nat, Call.start (.writeBytes i []) = .inr .written ∧ Call.start (.writeString i []) = .inr .written)

/-- R47: in a tick of the system a wired receive pin shows the level of the transmit pin before the tick. That of several
wires at one receive pin the first wins is the model's choice, log entry 18. -/
def Obligations.WiredPinShowsTransmitLine : Prop :=
  ∀ (y y' : System) (w : Wire) (l : Bool) (n n' : Node) (p q : Inst), y.step = .next y' →
    (y.wires.find? fun v => decide (v.sink = w.sink)) = some w → y.txLevel w.source = some l →
    y.nodes[w.sink.dom]? = some n → n.state.insts[w.sink.inst]? = some p → p.cfg.rxPresent = true →
    y'.nodes[w.sink.dom]? = some n' → n'.state.insts[w.sink.inst]? = some q → q.rx.prev = l

/-- The round trip of one frame (R135 for one byte): a byte accepted by a block of one domain is pushed by the wired block of
another, `2 + OFF + 8*BP` ticks later and not before, if the receiving block is alone in its domain, idle, with interrupts
enabled and its host waiting, and its configuration is round-trip capable. -/
def Obligations.RoundTripOneFrame : Prop :=
  ∀ (y : System) (a b : Nat) (k : Nat) (nA nB : Node) (pA pB : Inst) (v : Byte) (rest : List HostMove),
    (∀ n ∈ y.nodes, n.state.Inv) → a ≠ b → y.nodes[a]? = some nA → y.nodes[b]? = some nB →
    y.wires = [{ source := ⟨a, k⟩, sink := ⟨b, 0⟩ }] →
    nA.state.insts[k]? = some pA → pA.cfg.txPresent = true → (y.prepared a nA).Accepts k (.txByte v) →
    nB.agent = none → nB.state.insts = [pB] → pB.cfg.rxPresent = true → pB.cfg.bp = pA.cfg.bp →
    pB.cfg.roundTrip nB.state.cfg.timerW = true → nB.state.gie = true → pB.rx.busy = false →
    pB.rx.edgePending = false → pB.port.cmd = none →
    pB.env.hostIn = List.replicate (pB.cfg.off + 8 * pB.cfg.bp + 3) HostMove.idle ++ rest →
    (∀ m, m ≤ pB.cfg.off + 8 * pB.cfg.bp + 2 →
      ∃ y' n q, System.run m y = .next y' ∧ y'.nodes[b]? = some n ∧ n.state.insts[0]? = some q ∧ q.rb = pB.rb) ∧
    ∃ y' n q, System.run (pB.cfg.off + 8 * pB.cfg.bp + 3) y = .next y' ∧ y'.nodes[b]? = some n ∧
      n.state.insts[0]? = some q ∧ q.rb.w = (pB.rb.w + 1) % pB.cfg.cap ∧ Memory.read q.rb.mem pB.rb.w = v
end

