-- ==== Sys2Proof/Laws/Arith.lean ====
section
/-! SUPPORT. The arithmetic of the block: elapsed ticks, ring indices, bit cells and the shift register, one lemma per fact. -/
namespace Sys2Proof.Machine

theorem elapsed_lt (W timer start : Nat) : elapsed W timer start < 2 ^ W := by
  have hpos : (0 : Int) < ((2 ^ W : Nat) : Int) := by exact_mod_cast Nat.two_pow_pos W
  have h0 := Int.emod_nonneg ((timer : Int) - (start : Int)) (ne_of_gt hpos)
  have h1 := Int.emod_lt_of_pos ((timer : Int) - (start : Int)) hpos
  unfold elapsed
  omega

/-- Elapsed ticks depend only on the residues: the value that, added to the start, gives the timer modulo `2^W`. -/
theorem elapsed_of_add (W start d : Nat) (hd : d < 2 ^ W) : elapsed W ((start + d) % 2 ^ W) start = d := by
  unfold elapsed
  have h : (((start + d) % 2 ^ W : Nat) : Int) - (start : Int) ≡ (d : Int) [ZMOD ((2 ^ W : Nat) : Int)] := by
    push_cast
    have := (Int.mod_modEq ((start : Int) + d) (2 ^ W)).sub_right (start : Int)
    simpa using this
  rw [h.eq, Int.emod_eq_of_lt (by omega) (by exact_mod_cast hd)]
  simp

/-- The start and the elapsed ticks give the timer back. -/
theorem add_elapsed (W timer start : Nat) (ht : timer < 2 ^ W) : (start + elapsed W timer start) % 2 ^ W = timer := by
  have hpos : (0 : Int) < ((2 ^ W : Nat) : Int) := by exact_mod_cast Nat.two_pow_pos W
  have h0 := Int.emod_nonneg ((timer : Int) - (start : Int)) (ne_of_gt hpos)
  have key : ((start + elapsed W timer start : Nat) : Int) ≡ (timer : Int) [ZMOD ((2 ^ W : Nat) : Int)] := by
    unfold elapsed
    rw [Nat.cast_add, Int.toNat_of_nonneg h0]
    have := (Int.mod_modEq ((timer : Int) - start) ((2 ^ W : Nat) : Int)).add_left (start : Int)
    simpa using this
  have : (start + elapsed W timer start) ≡ timer [MOD 2 ^ W] := (Int.natCast_modEq_iff).1 key
  rw [this, Nat.mod_eq_of_lt ht]

theorem elapsed_self (W timer : Nat) : elapsed W timer timer = 0 := by simp [elapsed]

/-- One tick later one more tick has elapsed, as long as the count fits W bits (R106: also when the timer wraps). -/
theorem elapsed_succ (W timer start : Nat) (ht : timer < 2 ^ W) (h : elapsed W timer start + 1 < 2 ^ W) :
    elapsed W (wrapTo W (timer + 1)) start = elapsed W timer start + 1 := by
  have hadd := add_elapsed W timer start ht
  have : wrapTo W (timer + 1) = (start + (elapsed W timer start + 1)) % 2 ^ W := by
    conv_lhs => rw [wrapTo, ← hadd, Nat.mod_add_mod]
    rw [Nat.add_assoc]
  rw [this, elapsed_of_add W start _ h]

/-- Elapsed ticks do not change when the timer and the start move by the same amount (R31). -/
theorem elapsed_shift (W timer start d : Nat) (ht : timer < 2 ^ W) :
    elapsed W ((timer + d) % 2 ^ W) ((start + d) % 2 ^ W) = elapsed W timer start := by
  have hadd := add_elapsed W timer start ht
  have : (timer + d) % 2 ^ W = ((start + d) % 2 ^ W + elapsed W timer start) % 2 ^ W := by
    conv_lhs => rw [← hadd]
    rw [Nat.mod_add_mod, Nat.mod_add_mod, Nat.add_right_comm]
  rw [this, elapsed_of_add W _ _ (elapsed_lt W timer start)]

theorem wrapTo_lt (W x : Nat) : wrapTo W x < 2 ^ W := Nat.mod_lt _ (Nat.two_pow_pos W)

theorem wrapTo_of_lt {W x : Nat} (h : x < 2 ^ W) : wrapTo W x = x := Nat.mod_eq_of_lt h

theorem nextIndex_lt {cap : Nat} (h : 0 < cap) (x : Nat) : nextIndex cap x < cap := Nat.mod_lt _ h

/-- The number of unread bytes, without the remainder (R154). -/
theorem avail_eq (p : Inst) (hw : p.rb.w < p.cfg.cap) (hr : p.rb.r < p.cfg.cap) :
    p.avail = if p.rb.r ≤ p.rb.w then p.rb.w - p.rb.r else p.rb.w + p.cfg.cap - p.rb.r := by
  unfold Inst.avail
  split
  · rw [Int.emod_eq_of_lt (by omega) (by omega)]
    omega
  · rw [← Int.add_emod_right, Int.emod_eq_of_lt (by omega) (by omega)]
    omega

/-- Adding the unread count to the read index gives the write index (R66). -/
theorem read_add_avail (p : Inst) (hw : p.rb.w < p.cfg.cap) (hr : p.rb.r < p.cfg.cap) :
    (p.rb.r + p.avail) % p.cfg.cap = p.rb.w := by
  rw [avail_eq p hw hr]
  split
  · rw [Nat.add_sub_cancel' ‹_›, Nat.mod_eq_of_lt hw]
  · have : p.rb.r + (p.rb.w + p.cfg.cap - p.rb.r) = p.rb.w + p.cfg.cap := by omega
    rw [this, Nat.add_mod_right, Nat.mod_eq_of_lt hw]

theorem cell_zero (b : Byte) : cell b 0 = false := rfl

theorem cell_data (b : Byte) {k : Nat} (h : k < 8) : cell b (k + 1) = b.getLsbD k := by simp [cell, h]

theorem cell_stop (b : Byte) : cell b 9 = true := rfl

theorem getLsbD_setBit (v : Byte) (k j : Nat) (level : Bool) (hj : j < 8) :
    (setBit v k level).getLsbD j = if j = k then level else v.getLsbD j := by
  have hone : (1#8 <<< k).getLsbD j = decide (j = k) := by
    rw [BitVec.getLsbD_shiftLeft, BitVec.getLsbD_one]
    by_cases h : j = k
    · simp [h]
      omega
    · by_cases h' : j < k
      · simp [h, h']
      · have : j - k ≠ 0 := by omega
        simp [h, this]
  cases level
  · simp only [setBit, Bool.false_eq_true, if_false, BitVec.getLsbD_and, BitVec.getLsbD_not, hone, hj, decide_true]
    by_cases h : j = k <;> simp [h]
  · simp only [setBit, if_true, BitVec.getLsbD_or, hone]
    by_cases h : j = k <;> simp [h]

/-- A chosen candidate is a candidate (R45, R46). -/
theorem choose_mem {c k : Nat} {l : List Nat} (h : choose c l = some k) : k ∈ l := by
  unfold choose at h
  split at h
  · cases h
  · simp_all
  · exact List.mem_of_getElem? h

/-- Some candidate is chosen as soon as there is one (R44, R46). -/
theorem choose_isSome {c : Nat} {l : List Nat} (h : l ≠ []) : (choose c l).isSome = true := by
  unfold choose
  split
  · contradiction
  · rfl
  · rw [List.getElem?_eq_getElem (by simpa using Nat.mod_lt c (Nat.succ_pos _))]
    rfl

theorem choose_nil (c : Nat) : choose c [] = none := rfl

theorem choose_eq_none {c : Nat} {l : List Nat} : choose c l = none ↔ l = [] := by
  constructor
  · intro h
    by_contra hl
    have := choose_isSome (c := c) hl
    simp [h] at this
  · rintro rfl
    rfl

/-- Every candidate is chosen by some choice: the choice is free (R45, R46). -/
theorem choose_complete {l : List Nat} {k : Nat} (h : k ∈ l) : ∃ c, choose c l = some k := by
  obtain ⟨j, hj, rfl⟩ := List.getElem_of_mem h
  refine ⟨j, ?_⟩
  match l, hj with
  | [a], hj => simp [choose]
  | a :: b :: l, hj =>
    have : j % (l.length + 2) = j := Nat.mod_eq_of_lt hj
    simp [choose, this]

end Sys2Proof.Machine
end

