-- ==== Sys2Proof/Laws/Memory.lean ====
section
/-! SUPPORT. The ring storage: a read after a write, and that writing keeps the canonical form (R61). -/
namespace Sys2Proof.Machine

@[simp] theorem Memory.read_nil (a : Nat) : Memory.read [] a = unlistedByte := rfl

/-- A read of one slot after a write (R61). -/
theorem Memory.read_write (m : Memory) (hm : Memory.wf m) (a : Nat) (v : Byte) (x : Nat) :
    Memory.read (Memory.write m a v) x = if x = a then v else Memory.read m x := by
  induction m with
  | nil =>
    by_cases hv : v = unlistedByte
    · simp [Memory.write, hv]
    · by_cases hx : x = a
      · simp [Memory.write, hv, Memory.read, hx]
      · simp [Memory.write, hv, Memory.read, hx, Ne.symm hx]
  | cons c m ih =>
    obtain ⟨k, b⟩ := c
    have hwf : Memory.wf m := ⟨(List.pairwise_cons.1 hm.1).2, fun c hc => hm.2 c (List.mem_cons_of_mem _ hc)⟩
    have hhead : ∀ c ∈ m, k < c.1 := (List.pairwise_cons.1 hm.1).1
    have habove : ∀ (m : Memory) (a : Nat), (∀ c ∈ m, a < c.1) → Memory.read m a = unlistedByte := by
      intro m a h
      induction m with
      | nil => rfl
      | cons c m ih =>
        have h1 := h c List.mem_cons_self
        simp [Memory.read, Nat.ne_of_gt h1, ih fun c hc => h c (List.mem_cons_of_mem _ hc)]
    unfold Memory.write
    split
    · rename_i hak
      have hnot : Memory.read ((k, b) :: m) a = unlistedByte := by
        refine habove _ _ fun c hc => ?_
        rcases List.mem_cons.1 hc with rfl | hc
        · exact hak
        · exact Nat.lt_trans hak (hhead c hc)
      by_cases hx : x = a
      · subst hx
        by_cases hv : v = unlistedByte
        · rw [if_pos hv, if_pos rfl, hnot, hv]
        · simp [hv, Memory.read]
      · by_cases hv : v = unlistedByte
        · simp [hv, hx]
        · simp [hv, hx, Memory.read, Ne.symm hx]
    · split
      · rename_i hak
        subst hak
        have hnot : Memory.read m a = unlistedByte := habove _ _ hhead
        by_cases hx : x = a
        · subst hx
          by_cases hv : v = unlistedByte
          · rw [if_pos hv, if_pos rfl, hnot, hv]
          · simp [hv, Memory.read]
        · by_cases hv : v = unlistedByte <;> simp [hv, hx, Memory.read, Ne.symm hx]
      · rename_i hka
        by_cases hx : x = k
        · subst hx
          simp [Memory.read, Ne.symm hka]
        · simp [Memory.read, Ne.symm hx, ih hwf]

theorem Memory.read_write_same (m : Memory) (hm : Memory.wf m) (a : Nat) (v : Byte) :
    Memory.read (Memory.write m a v) a = v := by rw [Memory.read_write m hm, if_pos rfl]

theorem Memory.read_write_other (m : Memory) (hm : Memory.wf m) {a x : Nat} (v : Byte) (h : x ≠ a) :
    Memory.read (Memory.write m a v) x = Memory.read m x := by rw [Memory.read_write m hm, if_neg h]

/-- What a written storage lists: what it listed before, and the written slot. -/
theorem Memory.mem_write {m : Memory} {a : Nat} {v : Byte} {c : Host.Cell} (h : c ∈ Memory.write m a v) :
    c ∈ m ∨ (c = (a, v) ∧ v ≠ unlistedByte) := by
  induction m with
  | nil =>
    unfold Memory.write at h
    split at h <;> simp_all
  | cons d m ih =>
    obtain ⟨k, b⟩ := d
    unfold Memory.write at h
    split at h
    · split at h <;> (simp_all; try tauto)
    · split at h
      · split at h <;> (simp_all; try tauto)
      · rcases List.mem_cons.1 h with rfl | h
        · simp
        · rcases ih h with h | h
          · exact .inl (List.mem_cons_of_mem _ h)
          · exact .inr h

/-- Writing keeps the canonical form. -/
theorem Memory.wf_write (m : Memory) (hm : Memory.wf m) (a : Nat) (v : Byte) : Memory.wf (Memory.write m a v) := by
  refine ⟨?_, fun c hc => ?_⟩
  · induction m with
    | nil =>
      unfold Memory.write
      split <;> simp
    | cons d m ih =>
      obtain ⟨k, b⟩ := d
      have hwf : Memory.wf m := ⟨(List.pairwise_cons.1 hm.1).2, fun c hc => hm.2 c (List.mem_cons_of_mem _ hc)⟩
      have hhead : ∀ c ∈ m, k < c.1 := (List.pairwise_cons.1 hm.1).1
      unfold Memory.write
      split
      · split
        · exact hm.1
        · refine List.pairwise_cons.2 ⟨fun c hc => ?_, hm.1⟩
          rcases List.mem_cons.1 hc with rfl | hc
          · assumption
          · exact Nat.lt_trans ‹a < k› (hhead c hc)
      · split
        · split
          · exact hwf.1
          · rename_i hak _
            subst hak
            exact List.pairwise_cons.2 ⟨hhead, hwf.1⟩
        · refine List.pairwise_cons.2 ⟨fun c hc => ?_, ih hwf⟩
          rcases Memory.mem_write hc with hc | ⟨rfl, -⟩
          · exact hhead c hc
          · show k < a
            omega
  · rcases Memory.mem_write hc with hc | ⟨rfl, hv⟩
    · exact hm.2 c hc
    · exact hv

theorem Memory.wf_nil : Memory.wf [] := by simp [Memory.wf]

/-- Writing an existing slot lists existing slots only. -/
theorem Memory.within_write {m : Memory} {cap a : Nat} (hm : Memory.within m cap) (ha : a < cap) (v : Byte) :
    Memory.within (Memory.write m a v) cap := by
  intro c hc
  rcases Memory.mem_write hc with hc | ⟨rfl, -⟩
  · exact hm c hc
  · exact ha

/-- MemRead of an existing slot (R61). -/
theorem Inst.memRead_of_lt (p : Inst) {i : Nat} (h : i < p.cfg.cap) : p.memRead i = some (Memory.read p.rb.mem i) :=
  if_pos h

/-- MemWrite of an existing slot (R61). -/
theorem Inst.memWrite_of_lt (p : Inst) {i : Nat} (h : i < p.cfg.cap) (v : Byte) :
    p.memWrite i v = some (Memory.write p.rb.mem i v) :=
  if_pos h

end Sys2Proof.Machine
end

