-- ==== Sys2Proof/Laws/State.lean ====
section
/-! SUPPORT. Beside the state: what each update leaves in each field, one lemma per field, true by unfolding. -/
namespace Sys2Proof.Machine

/-! ### Updates of a domain -/

section updBlock
variable (s : State) (f : Inst → Inst)
@[simp] theorem State.updBlock_cfg : (s.updBlock f).cfg = s.cfg := rfl
@[simp] theorem State.updBlock_dom : (s.updBlock f).dom = s.dom := rfl
@[simp] theorem State.updBlock_tick : (s.updBlock f).tick = s.tick := rfl
@[simp] theorem State.updBlock_timer : (s.updBlock f).timer = s.timer := rfl
@[simp] theorem State.updBlock_gie : (s.updBlock f).gie = s.gie := rfl
@[simp] theorem State.updBlock_insts : (s.updBlock f).insts = s.insts.modify s.sel f := rfl
@[simp] theorem State.updBlock_sel : (s.updBlock f).sel = s.sel := rfl
@[simp] theorem State.updBlock_captureIn : (s.updBlock f).captureIn = s.captureIn := rfl
@[simp] theorem State.updBlock_commandIn : (s.updBlock f).commandIn = s.commandIn := rfl
end updBlock

section respond
variable (s : State) (st : Status) (v : Nat)
@[simp] theorem State.respond_cfg : (s.respond st v).cfg = s.cfg := rfl
@[simp] theorem State.respond_dom : (s.respond st v).dom = s.dom := rfl
@[simp] theorem State.respond_tick : (s.respond st v).tick = s.tick := rfl
@[simp] theorem State.respond_timer : (s.respond st v).timer = s.timer := rfl
@[simp] theorem State.respond_gie : (s.respond st v).gie = s.gie := rfl
@[simp] theorem State.respond_insts : (s.respond st v).insts = s.insts.modify s.sel (·.respond st v) := rfl
@[simp] theorem State.respond_sel : (s.respond st v).sel = s.sel := rfl
@[simp] theorem State.respond_captureIn : (s.respond st v).captureIn = s.captureIn := rfl
@[simp] theorem State.respond_commandIn : (s.respond st v).commandIn = s.commandIn := rfl
end respond

section setGie
variable (s : State) (b : Bool)
@[simp] theorem State.setGie_cfg : (s.setGie b).cfg = s.cfg := rfl
@[simp] theorem State.setGie_dom : (s.setGie b).dom = s.dom := rfl
@[simp] theorem State.setGie_tick : (s.setGie b).tick = s.tick := rfl
@[simp] theorem State.setGie_timer : (s.setGie b).timer = s.timer := rfl
@[simp] theorem State.setGie_gie : (s.setGie b).gie = b := rfl
@[simp] theorem State.setGie_insts : (s.setGie b).insts = s.insts := rfl
@[simp] theorem State.setGie_sel : (s.setGie b).sel = s.sel := rfl
@[simp] theorem State.setGie_captureIn : (s.setGie b).captureIn = s.captureIn := rfl
@[simp] theorem State.setGie_commandIn : (s.setGie b).commandIn = s.commandIn := rfl
end setGie

section accept
variable (s : State) (k : Nat)
@[simp] theorem State.accept_cfg : (s.accept k).cfg = s.cfg := rfl
@[simp] theorem State.accept_dom : (s.accept k).dom = s.dom := rfl
@[simp] theorem State.accept_tick : (s.accept k).tick = s.tick := rfl
@[simp] theorem State.accept_timer : (s.accept k).timer = s.timer := rfl
@[simp] theorem State.accept_gie : (s.accept k).gie = s.gie := rfl
@[simp] theorem State.accept_insts : (s.accept k).insts = s.insts.modify k fun p => { p with port.cmd := none } := rfl
@[simp] theorem State.accept_sel : (s.accept k).sel = k := rfl
@[simp] theorem State.accept_captureIn : (s.accept k).captureIn = s.captureIn := rfl
@[simp] theorem State.accept_commandIn : (s.accept k).commandIn = s.commandIn := rfl
end accept

section advance
variable (s : State)
@[simp] theorem State.advance_cfg : s.advance.cfg = s.cfg := rfl
@[simp] theorem State.advance_dom : s.advance.dom = s.dom := rfl
@[simp] theorem State.advance_tick : s.advance.tick = s.tick + 1 := rfl
@[simp] theorem State.advance_timer : s.advance.timer = wrapTo s.cfg.timerW (s.timer + 1) := rfl
@[simp] theorem State.advance_gie : s.advance.gie = s.gie := rfl
@[simp] theorem State.advance_insts : s.advance.insts = s.insts := rfl
@[simp] theorem State.advance_sel : s.advance.sel = s.sel := rfl
@[simp] theorem State.advance_captureIn : s.advance.captureIn = s.captureIn.tail := rfl
@[simp] theorem State.advance_commandIn : s.advance.commandIn = s.commandIn.tail := rfl
end advance

section hostPhase
variable (s : State)
@[simp] theorem State.hostPhase_cfg : s.hostPhase.cfg = s.cfg := rfl
@[simp] theorem State.hostPhase_dom : s.hostPhase.dom = s.dom := rfl
@[simp] theorem State.hostPhase_tick : s.hostPhase.tick = s.tick := rfl
@[simp] theorem State.hostPhase_timer : s.hostPhase.timer = s.timer := rfl
@[simp] theorem State.hostPhase_gie : s.hostPhase.gie = s.gie := rfl
@[simp] theorem State.hostPhase_insts :
    s.hostPhase.insts =
      s.insts.mapIdx fun k p => p.hostPhase (p.hostMove s.dom s.tick k) := rfl
@[simp] theorem State.hostPhase_sel : s.hostPhase.sel = s.sel := rfl
@[simp] theorem State.hostPhase_captureIn : s.hostPhase.captureIn = s.captureIn := rfl
@[simp] theorem State.hostPhase_commandIn : s.hostPhase.commandIn = s.commandIn := rfl
end hostPhase

section engines
variable (s : State) (go : Option Nat)
@[simp] theorem State.engines_cfg : (s.engines go).cfg = s.cfg := rfl
@[simp] theorem State.engines_dom : (s.engines go).dom = s.dom := rfl
@[simp] theorem State.engines_tick : (s.engines go).tick = s.tick := rfl
@[simp] theorem State.engines_timer : (s.engines go).timer = s.timer := rfl
@[simp] theorem State.engines_gie :
    (s.engines go).gie =
      (s.gie || s.insts.any (·.txCompletes s.cfg.timerW s.timer)) := rfl
@[simp] theorem State.engines_insts :
    (s.engines go).insts =
      s.insts.mapIdx fun k p => p.engines s.cfg.timerW s.timer (p.pinLevel s.dom s.tick k) (go == some k) := rfl
@[simp] theorem State.engines_sel : (s.engines go).sel = s.sel := rfl
@[simp] theorem State.engines_captureIn : (s.engines go).captureIn = s.captureIn := rfl
@[simp] theorem State.engines_commandIn : (s.engines go).commandIn = s.commandIn := rfl
end engines

/-! ### Updates of one block -/

section respond
variable (p : Inst) (st : Status) (v : Nat)
@[simp] theorem Inst.respond_cfg : (p.respond st v).cfg = p.cfg := rfl
@[simp] theorem Inst.respond_tx : (p.respond st v).tx = p.tx := rfl
@[simp] theorem Inst.respond_rx : (p.respond st v).rx = p.rx := rfl
@[simp] theorem Inst.respond_rb : (p.respond st v).rb = p.rb := rfl
@[simp] theorem Inst.respond_port : (p.respond st v).port = { cmd := p.port.cmd, resp := some ⟨st, v⟩ } := rfl
@[simp] theorem Inst.respond_env : (p.respond st v).env = p.env := rfl
end respond

section startFrame
variable (p : Inst) (timer : Nat) (b : Byte)
@[simp] theorem Inst.startFrame_cfg : (p.startFrame timer b).cfg = p.cfg := rfl
@[simp] theorem Inst.startFrame_tx :
    (p.startFrame timer b).tx =
      { line := false, busy := true, cell := 0, byte := b, start := timer, deadline := p.cfg.bp } := rfl
@[simp] theorem Inst.startFrame_rx : (p.startFrame timer b).rx = p.rx := rfl
@[simp] theorem Inst.startFrame_rb : (p.startFrame timer b).rb = p.rb := rfl
@[simp] theorem Inst.startFrame_port : (p.startFrame timer b).port = p.port := rfl
@[simp] theorem Inst.startFrame_env : (p.startFrame timer b).env = p.env := rfl
end startFrame

section nextCell
variable (p : Inst) (W : Nat)
@[simp] theorem Inst.nextCell_cfg : (p.nextCell W).cfg = p.cfg := rfl
@[simp] theorem Inst.nextCell_tx :
    (p.nextCell W).tx =
      { p.tx with cell := p.tx.cell + 1, line := cell p.tx.byte (p.tx.cell + 1), deadline := wrapTo W (p.tx.deadline + p.cfg.bp) } := rfl
@[simp] theorem Inst.nextCell_rx : (p.nextCell W).rx = p.rx := rfl
@[simp] theorem Inst.nextCell_rb : (p.nextCell W).rb = p.rb := rfl
@[simp] theorem Inst.nextCell_port : (p.nextCell W).port = p.port := rfl
@[simp] theorem Inst.nextCell_env : (p.nextCell W).env = p.env := rfl
end nextCell

section endFrame
variable (p : Inst)
@[simp] theorem Inst.endFrame_cfg : p.endFrame.cfg = p.cfg := rfl
@[simp] theorem Inst.endFrame_tx : p.endFrame.tx = { p.tx with busy := false } := rfl
@[simp] theorem Inst.endFrame_rx : p.endFrame.rx = p.rx := rfl
@[simp] theorem Inst.endFrame_rb : p.endFrame.rb = p.rb := rfl
@[simp] theorem Inst.endFrame_port : p.endFrame.port = { cmd := p.port.cmd, resp := some ⟨.ok, 0⟩ } := rfl
@[simp] theorem Inst.endFrame_env : p.endFrame.env = p.env := rfl
end endFrame

section sample
variable (p : Inst) (W : Nat) (pin : Bool)
@[simp] theorem Inst.sample_cfg : (p.sample W pin).cfg = p.cfg := rfl
@[simp] theorem Inst.sample_tx : (p.sample W pin).tx = p.tx := rfl
@[simp] theorem Inst.sample_rx :
    (p.sample W pin).rx =
      { p.rx with shift := setBit p.rx.shift p.rx.count pin, count := p.rx.count + 1, deadline := wrapTo W (p.rx.deadline + p.cfg.bp) } := rfl
@[simp] theorem Inst.sample_rb : (p.sample W pin).rb = p.rb := rfl
@[simp] theorem Inst.sample_port : (p.sample W pin).port = p.port := rfl
@[simp] theorem Inst.sample_env : (p.sample W pin).env = p.env := rfl
end sample

section captureStart
variable (p : Inst) (timer : Nat)
@[simp] theorem Inst.captureStart_cfg : (p.captureStart timer).cfg = p.cfg := rfl
@[simp] theorem Inst.captureStart_tx : (p.captureStart timer).tx = p.tx := rfl
@[simp] theorem Inst.captureStart_rx :
    (p.captureStart timer).rx =
      { p.rx with busy := true, start := timer, deadline := p.cfg.off, count := 0, shift := 0x00#8 } := rfl
@[simp] theorem Inst.captureStart_rb : (p.captureStart timer).rb = p.rb := rfl
@[simp] theorem Inst.captureStart_port : (p.captureStart timer).port = p.port := rfl
@[simp] theorem Inst.captureStart_env : (p.captureStart timer).env = p.env := rfl
end captureStart

section latchEdge
variable (p : Inst) (pin fin : Bool)
@[simp] theorem Inst.latchEdge_cfg : (p.latchEdge pin fin).cfg = p.cfg := rfl
@[simp] theorem Inst.latchEdge_tx : (p.latchEdge pin fin).tx = p.tx := rfl
@[simp] theorem Inst.latchEdge_rx :
    (p.latchEdge pin fin).rx =
      { p.rx with prev := if p.cfg.rxPresent then pin else p.rx.prev, edgePending := p.edgeSeen pin || (p.rx.edgePending && !fin) } := rfl
@[simp] theorem Inst.latchEdge_rb : (p.latchEdge pin fin).rb = p.rb := rfl
@[simp] theorem Inst.latchEdge_port : (p.latchEdge pin fin).port = p.port := rfl
@[simp] theorem Inst.latchEdge_env : (p.latchEdge pin fin).env = p.env := rfl
end latchEdge

section hostPhase
variable (p : Inst) (m : HostMove)
@[simp] theorem Inst.hostPhase_cfg : (p.hostPhase m).cfg = p.cfg := rfl
@[simp] theorem Inst.hostPhase_tx : (p.hostPhase m).tx = p.tx := rfl
@[simp] theorem Inst.hostPhase_rx : (p.hostPhase m).rx = p.rx := rfl
@[simp] theorem Inst.hostPhase_rb : (p.hostPhase m).rb = p.rb := rfl
@[simp] theorem Inst.hostPhase_port :
    (p.hostPhase m).port =
      { cmd := cmdAfter m p.port.cmd, resp := respAfter m p.port.resp } := rfl
@[simp] theorem Inst.hostPhase_env :
    (p.hostPhase m).env =
      { p.env with delivered := p.env.delivered ++ respTaken m p.port.resp, hostIn := p.env.hostIn.tail } := rfl
end hostPhase

/-! ### The blocks one by one -/

theorem State.getElem?_updBlock (s : State) (f : Inst → Inst) (k : Nat) :
    (s.updBlock f).insts[k]? = if s.sel = k then s.insts[k]?.map f else s.insts[k]? := by
  simp only [State.updBlock_insts, List.getElem?_modify]
  split <;> simp

@[simp] theorem State.length_updBlock (s : State) (f : Inst → Inst) : (s.updBlock f).insts.length = s.insts.length := by
  simp

theorem State.getElem?_accept (s : State) (k j : Nat) :
    (s.accept k).insts[j]? =
      if k = j then s.insts[j]?.map (fun p => { p with port.cmd := none }) else s.insts[j]? := by
  simp only [State.accept_insts, List.getElem?_modify]
  split <;> simp

theorem State.getElem?_hostPhase (s : State) (k : Nat) :
    s.hostPhase.insts[k]? = s.insts[k]?.map fun p => p.hostPhase (p.hostMove s.dom s.tick k) := by
  simp [List.getElem?_mapIdx]

theorem State.getElem?_engines (s : State) (go : Option Nat) (k : Nat) :
    (s.engines go).insts[k]? =
      s.insts[k]?.map fun p =>
        p.engines s.cfg.timerW s.timer (p.pinLevel s.dom s.tick k) (go == some k) := by
  simp [List.getElem?_mapIdx]

@[simp] theorem Inst.resetWith_cfg (c : InstConfig) (d : InstDraw) : (Inst.resetWith c d).cfg = c := rfl

theorem State.getElem?_resetWith (cfg : DomainConfig) (dom timer : Nat) (is : List (InstConfig × InstDraw)) (k : Nat) :
    (State.resetWith cfg dom timer is).insts[k]? = is[k]?.map fun cd => Inst.resetWith cd.1 cd.2 := by
  simp [State.resetWith]

end Sys2Proof.Machine
end

