-- ==== Sys2Proof/Laws/Ops.lean ====
section
/-! SUPPORT. The shared operations, one lemma each that says everything it can do. -/
namespace Sys2Proof.Machine

/-- A meaning that answers a next state had a block to run on. -/
theorem State.withBlock_next {s t : State} {f : Inst → Outcome} (h : s.withBlock f = .next t) :
    ∃ p, s.block = some p ∧ f p = .next t := by
  unfold State.withBlock at h
  split at h
  · exact ⟨_, ‹_›, h⟩
  · cases h

theorem State.withBlock_of_block {s : State} {p : Inst} (h : s.block = some p) (f : Inst → Outcome) :
    s.withBlock f = f p := by simp [State.withBlock, h]

theorem State.block_eq (s : State) : s.block = s.insts[s.sel]? := rfl

/-- The executing block after an update of it. -/
theorem State.block_updBlock (s : State) (f : Inst → Inst) : (s.updBlock f).block = s.block.map f := by
  simp [State.block_eq]

/-- A block that does not execute is unchanged by an update of the executing one. -/
theorem State.other_updBlock (s : State) (f : Inst → Inst) {j : Nat} (h : j ≠ s.sel) :
    (s.updBlock f).insts[j]? = s.insts[j]? := by
  rw [State.getElem?_updBlock, if_neg (Ne.symm h)]

theorem State.block_respond (s : State) (st : Status) (v : Nat) :
    (s.respond st v).block = s.block.map (·.respond st v) := State.block_updBlock s _

/-- `illegal(i)` answers `(ILLEGAL, 0)` and does nothing else (R85). -/
theorem illegal_next {s t : State} (h : illegal s = .next t) :
    t = s.respond .illegal 0 ∧ ∃ p, s.block = some p := by
  obtain ⟨p, hp, h⟩ := State.withBlock_next h
  exact ⟨by cases h; rfl, p, hp⟩

/-- The rest of a tick runs only after a next state. -/
theorem andThen_next {o : Outcome} {f : State → State} {t : State} (h : andThen o f = .next t) :
    ∃ u, o = .next u ∧ t = f u := by
  cases o with
  | next u => exact ⟨u, rfl, by cases h; rfl⟩
  | fault _ => cases h
  | refused _ => cases h

@[simp] theorem andThen_of_next (u : State) (f : State → State) : andThen (.next u) f = .next (f u) := rfl

/-- What a push does (R150): it writes the slot at the write index and advances that index; at a slot that does not exist it
does nothing. -/
theorem Inst.push_cases (p : Inst) (b : Byte) :
    (p.rb.w < p.cfg.cap ∧
      p.push b = { p with rb := { mem := Memory.write p.rb.mem p.rb.w b, w := nextIndex p.cfg.cap p.rb.w, r := p.rb.r } }) ∨
    (¬p.rb.w < p.cfg.cap ∧ p.push b = p) := by
  by_cases h : p.rb.w < p.cfg.cap
  · exact .inl ⟨h, by simp [Inst.push, Inst.memWrite, h]⟩
  · exact .inr ⟨h, by simp [Inst.push, Inst.memWrite, h]⟩

theorem Inst.push_of_lt (p : Inst) (b : Byte) (h : p.rb.w < p.cfg.cap) :
    p.push b =
      { p with rb := { mem := Memory.write p.rb.mem p.rb.w b, w := nextIndex p.cfg.cap p.rb.w, r := p.rb.r } } :=
  (p.push_cases b).elim (·.2) fun hn => absurd h hn.1

@[simp] theorem Inst.push_cfg (p : Inst) (b : Byte) : (p.push b).cfg = p.cfg := by
  rcases p.push_cases b with ⟨-, h⟩ | ⟨-, h⟩ <;> rw [h]

@[simp] theorem Inst.push_tx (p : Inst) (b : Byte) : (p.push b).tx = p.tx := by
  rcases p.push_cases b with ⟨-, h⟩ | ⟨-, h⟩ <;> rw [h]

@[simp] theorem Inst.push_rx (p : Inst) (b : Byte) : (p.push b).rx = p.rx := by
  rcases p.push_cases b with ⟨-, h⟩ | ⟨-, h⟩ <;> rw [h]

@[simp] theorem Inst.push_port (p : Inst) (b : Byte) : (p.push b).port = p.port := by
  rcases p.push_cases b with ⟨-, h⟩ | ⟨-, h⟩ <;> rw [h]

@[simp] theorem Inst.push_env (p : Inst) (b : Byte) : (p.push b).env = p.env := by
  rcases p.push_cases b with ⟨-, h⟩ | ⟨-, h⟩ <;> rw [h]

@[simp] theorem Inst.push_r (p : Inst) (b : Byte) : (p.push b).rb.r = p.rb.r := by
  rcases p.push_cases b with ⟨-, h⟩ | ⟨-, h⟩ <;> rw [h]

theorem Inst.push_w_of_lt (p : Inst) (b : Byte) (h : p.rb.w < p.cfg.cap) :
    (p.push b).rb.w = nextIndex p.cfg.cap p.rb.w := by rw [p.push_of_lt b h]

theorem Inst.push_mem_of_lt (p : Inst) (b : Byte) (h : p.rb.w < p.cfg.cap) :
    (p.push b).rb.mem = Memory.write p.rb.mem p.rb.w b := by rw [p.push_of_lt b h]

/-- A push keeps the storage canonical and within the capacity. -/
theorem Inst.push_mem_ok (p : Inst) (b : Byte) (h : Memory.wf p.rb.mem ∧ Memory.within p.rb.mem p.cfg.cap) :
    Memory.wf (p.push b).rb.mem ∧ Memory.within (p.push b).rb.mem p.cfg.cap := by
  rcases p.push_cases b with ⟨hw, hp⟩ | ⟨-, hp⟩
  · rw [hp]
    exact ⟨Memory.wf_write _ h.1 _ _, Memory.within_write h.2 hw _⟩
  · rw [hp]
    exact h

end Sys2Proof.Machine
end

