-- ==== Sys2Proof/Laws/Engines.lean ====
section
/-! SUPPORT. The engines' sub-steps of one block, one lemma each that says everything it can do (R101, R123 to R125, R41). -/
namespace Sys2Proof.Machine

/-- What the transmit sequencer can do (R101): nothing, the next bit cell, or the end of the frame. -/
theorem Inst.txStep_cases (W timer : Nat) (p : Inst) :
    (p.txDue W timer = false ∧ p.txStep W timer = p) ∨
    (p.txDue W timer = true ∧ p.tx.cell < 9 ∧ p.txStep W timer = p.nextCell W) ∨
    (p.txCompletes W timer = true ∧ ¬p.tx.cell < 9 ∧ p.txStep W timer = p.endFrame) := by
  unfold Inst.txStep Inst.txCompletes
  cases hd : p.txDue W timer
  · simp
  · by_cases hc : p.tx.cell < 9 <;> simp [hc]

/-- What a capture step can do (R124, R125): nothing, a sample, or the finish. -/
theorem Inst.captureStep_cases (W timer : Nat) (pin : Bool) (p : Inst) :
    (p.sampleDue W timer = false ∧ p.stopDue W timer = false ∧ p.captureStep W timer pin = p) ∨
    (p.sampleDue W timer = true ∧ p.stopDue W timer = false ∧ p.captureStep W timer pin = p.sample W pin) ∨
    (p.sampleDue W timer = false ∧ p.stopDue W timer = true ∧ p.captureStep W timer pin = p.captureStop) := by
  unfold Inst.captureStep Inst.sampleDue Inst.stopDue
  cases hd : p.rxDue W timer
  · simp
  · by_cases h8 : p.rx.count < 8
    · have : p.rx.count ≠ 8 := by omega
      simp [h8, this]
    · by_cases he : p.rx.count = 8 <;> simp [h8, he]

/-- An idle transmit engine does nothing. -/
theorem Inst.txStep_of_idle (W timer : Nat) (p : Inst) (h : p.tx.busy = false) : p.txStep W timer = p := by
  simp [Inst.txStep, Inst.txDue, h]

/-- An idle receive engine takes no capture step. -/
theorem Inst.captureStep_of_idle (W timer : Nat) (pin : Bool) (p : Inst) (h : p.rx.busy = false) :
    p.captureStep W timer pin = p := by
  simp [Inst.captureStep, Inst.sampleDue, Inst.stopDue, Inst.rxDue, h]

theorem Inst.stopDue_of_idle (W timer : Nat) (p : Inst) (h : p.rx.busy = false) : p.stopDue W timer = false := by
  simp [Inst.stopDue, Inst.rxDue, h]

theorem Inst.txCompletes_of_idle (W timer : Nat) (p : Inst) (h : p.tx.busy = false) :
    p.txCompletes W timer = false := by
  simp [Inst.txCompletes, Inst.txDue, h]

section fields
variable (W timer : Nat) (pin start : Bool) (p : Inst)

@[simp] theorem Inst.captureStop_cfg : p.captureStop.cfg = p.cfg := by simp [Inst.captureStop]
@[simp] theorem Inst.captureStop_tx : p.captureStop.tx = p.tx := by simp [Inst.captureStop]
@[simp] theorem Inst.captureStop_rx : p.captureStop.rx = { p.rx with busy := false } := by simp [Inst.captureStop]
@[simp] theorem Inst.captureStop_rb : p.captureStop.rb = (p.push p.rx.shift).rb := by simp [Inst.captureStop]
@[simp] theorem Inst.captureStop_port : p.captureStop.port = p.port := by simp [Inst.captureStop]
@[simp] theorem Inst.captureStop_env : p.captureStop.env = p.env := by simp [Inst.captureStop]

@[simp] theorem Inst.captureStep_cfg : (p.captureStep W timer pin).cfg = p.cfg := by
  rcases p.captureStep_cases W timer pin with ⟨-, -, h⟩ | ⟨-, -, h⟩ | ⟨-, -, h⟩ <;> simp [h]
@[simp] theorem Inst.captureStep_tx : (p.captureStep W timer pin).tx = p.tx := by
  rcases p.captureStep_cases W timer pin with ⟨-, -, h⟩ | ⟨-, -, h⟩ | ⟨-, -, h⟩ <;> simp [h]
@[simp] theorem Inst.captureStep_port : (p.captureStep W timer pin).port = p.port := by
  rcases p.captureStep_cases W timer pin with ⟨-, -, h⟩ | ⟨-, -, h⟩ | ⟨-, -, h⟩ <;> simp [h]
@[simp] theorem Inst.captureStep_env : (p.captureStep W timer pin).env = p.env := by
  rcases p.captureStep_cases W timer pin with ⟨-, -, h⟩ | ⟨-, -, h⟩ | ⟨-, -, h⟩ <;> simp [h]

@[simp] theorem Inst.txStep_cfg : (p.txStep W timer).cfg = p.cfg := by
  rcases p.txStep_cases W timer with ⟨-, h⟩ | ⟨-, -, h⟩ | ⟨-, -, h⟩ <;> simp [h]
@[simp] theorem Inst.txStep_rx : (p.txStep W timer).rx = p.rx := by
  rcases p.txStep_cases W timer with ⟨-, h⟩ | ⟨-, -, h⟩ | ⟨-, -, h⟩ <;> simp [h]
@[simp] theorem Inst.txStep_rb : (p.txStep W timer).rb = p.rb := by
  rcases p.txStep_cases W timer with ⟨-, h⟩ | ⟨-, -, h⟩ | ⟨-, -, h⟩ <;> simp [h]
@[simp] theorem Inst.txStep_env : (p.txStep W timer).env = p.env := by
  rcases p.txStep_cases W timer with ⟨-, h⟩ | ⟨-, -, h⟩ | ⟨-, -, h⟩ <;> simp [h]

/-- The sequencer reads its own registers, the bit period and the command slot only (R110). -/
theorem Inst.txStep_tx_congr {p q : Inst} (htx : q.tx = p.tx) (hcfg : q.cfg = p.cfg) (hport : q.port = p.port) :
    (q.txStep W timer).tx = (p.txStep W timer).tx ∧ (q.txStep W timer).port = (p.txStep W timer).port := by
  have hdue : q.txDue W timer = p.txDue W timer := by simp [Inst.txDue, htx]
  unfold Inst.txStep
  rw [hdue, htx]
  split
  · split <;> simp [htx, hcfg, hport]
  · exact ⟨htx, hport⟩

@[simp] theorem Inst.engines_cfg : (p.engines W timer pin start).cfg = p.cfg := by
  cases start <;> simp [Inst.engines]

/-- TXE in a tick: its sequencer's step and nothing else (R42). -/
@[simp] theorem Inst.engines_tx : (p.engines W timer pin start).tx = (p.txStep W timer).tx := by
  cases start <;> simp only [Inst.engines, Bool.false_eq_true, if_false, if_true, Inst.latchEdge_tx] <;>
    exact (Inst.txStep_tx_congr W timer (by simp) (by simp) (by simp)).1

/-- The port in a tick's engine steps: the sequencer's response and nothing else (R42). -/
@[simp] theorem Inst.engines_port : (p.engines W timer pin start).port = (p.txStep W timer).port := by
  cases start <;> simp only [Inst.engines, Bool.false_eq_true, if_false, if_true, Inst.latchEdge_port] <;>
    exact (Inst.txStep_tx_congr W timer (by simp) (by simp) (by simp)).2

/-- The ring in a tick's engine steps: the capture's push and nothing else (R42, R158). -/
@[simp] theorem Inst.engines_rb : (p.engines W timer pin start).rb = (p.captureStep W timer pin).rb := by
  cases start <;> simp [Inst.engines]

/-- The inputs in a tick: the pin's level is used up. -/
@[simp] theorem Inst.engines_env :
    (p.engines W timer pin start).env = { p.env with rxIn := p.env.rxIn.tail } := by
  cases start <;> simp [Inst.engines]

/-- RXE in a tick: capture step or start, then the edge detector, which reads the tick's old history and latch (R41). -/
theorem Inst.engines_rx :
    (p.engines W timer pin start).rx =
      { (if start then (p.captureStep W timer pin).captureStart timer else p.captureStep W timer pin).rx with
        prev := if p.cfg.rxPresent then pin else p.rx.prev
        edgePending := p.edgeSeen pin || (p.rx.edgePending && !p.stopDue W timer) } := by
  rcases p.captureStep_cases W timer pin with ⟨-, -, h⟩ | ⟨-, -, h⟩ | ⟨-, -, h⟩ <;>
    cases start <;> simp [Inst.engines, Inst.edgeSeen, h]

/-- An idle block's engine steps touch only its edge detector and its inputs. -/
theorem Inst.engines_of_idle (htx : p.tx.busy = false) (hrx : p.rx.busy = false) :
    p.engines W timer pin false = { p.latchEdge pin false with env.rxIn := p.env.rxIn.tail } := by
  simp [Inst.engines, p.captureStep_of_idle W timer pin hrx, p.txStep_of_idle W timer htx, p.stopDue_of_idle W timer hrx]

end fields

end Sys2Proof.Machine
end

