-- ==== Sys2Proof/Laws/PerInstr.lean ====
section
/-! SUPPORT. Statements made per instruction: every command's word is the one its row of spec/opcode_table.json fixes (R82). -/
namespace Sys2Proof.Laws

/-- The encoded word belongs to the table's row with the command's mnemonic. -/
def TableRow.Statement (i : Instr) : Prop :=
  opcodeTable.any (fun r => r.mnemonic == i.mnemonic && r.covers (encode i)) = true

theorem TableRow.txByte (b : Byte) : TableRow.Statement (.txByte b) := by
  have h : (⟨"TX_BYTE", 0xFF00#16, 0x0100#16⟩ : OpcodeRow).covers (encode (.txByte b)) = true := by
    revert b
    decide
  simp [TableRow.Statement, opcodeTable, Instr.mnemonic, h]

theorem TableRow.rbPop : TableRow.Statement .rbPop := by unfold TableRow.Statement; decide

theorem TableRow.rbPeek : TableRow.Statement .rbPeek := by unfold TableRow.Statement; decide

theorem TableRow.rbAvail : TableRow.Statement .rbAvail := by unfold TableRow.Statement; decide

theorem TableRow.rbClear : TableRow.Statement .rbClear := by unfold TableRow.Statement; decide

theorem TableRow.gieClr : TableRow.Statement .gieClr := by unfold TableRow.Statement; decide

theorem TableRow.gieSet : TableRow.Statement .gieSet := by unfold TableRow.Statement; decide

theorem TableRow.tmrRead : TableRow.Statement .tmrRead := by unfold TableRow.Statement; decide

end Sys2Proof.Laws
end

