-- ==== Sys2Proof/Laws/Step.lean ====
section
/-! SUPPORT. What one step can do, said once: the selections (R44 to R46) and the cases of a tick (R40, R41). -/
namespace Sys2Proof.Machine

theorem State.mem_indices {s : State} {c : Inst → Bool} {k : Nat} :
    k ∈ s.indices c ↔ ∃ p, s.insts[k]? = some p ∧ c p = true := by
  unfold State.indices
  rw [List.mem_filter, List.mem_range, Option.any_eq_true]
  constructor
  · exact fun h => h.2
  · rintro ⟨p, hp, hc⟩
    exact ⟨(List.getElem?_eq_some_iff.1 hp).1, p, hp, hc⟩

/-- A capture that starts is one of a ready block, while no capture runs in the domain (R46). -/
theorem State.captureSelect_some {s : State} {k : Nat} (h : s.captureSelect = some k) :
    s.rxActive = false ∧ ∃ p, s.insts[k]? = some p ∧ p.ready s.gie = true := by
  unfold State.captureSelect at h
  split at h
  · cases h
  · exact ⟨Bool.eq_false_iff.2 (by assumption), State.mem_indices.1 (choose_mem h)⟩

/-- A command that is accepted is offered by its block, while no engine of the domain is busy and no capture starts (R44). -/
theorem State.commandSelect_some {s : State} {go : Option Nat} {k : Nat} (h : s.commandSelect go = some k) :
    s.txActive = false ∧ s.rxActive = false ∧ go = none ∧ ∃ p, s.insts[k]? = some p ∧ p.offers = true := by
  unfold State.commandSelect at h
  split at h
  · cases h
  · rename_i hb
    simp only [Bool.or_eq_true, not_or, Bool.not_eq_true, Option.isSome_eq_false_iff, Option.isNone_iff_eq_none] at hb
    exact ⟨hb.1.1, hb.1.2, hb.2, State.mem_indices.1 (choose_mem h)⟩

theorem Inst.offers_iff (p : Inst) : p.offers = true ↔ ∃ w, p.port.cmd = some w ∧ p.port.resp = none := by
  simp [Inst.offers, Option.isSome_iff_exists]

/-- An accepted command has its word in the slot. -/
theorem State.command_of_select {s : State} {go : Option Nat} {k : Nat} (h : s.commandSelect go = some k) :
    ∃ p w, s.insts[k]? = some p ∧ p.port.cmd = some w ∧ p.port.resp = none ∧ s.command k = some w := by
  obtain ⟨-, -, -, p, hp, ho⟩ := State.commandSelect_some h
  obtain ⟨w, hw, hr⟩ := p.offers_iff.1 ho
  exact ⟨p, w, hp, hw, hr, by simp [State.command, hp, hw]⟩

/-- No block of a domain is busy where a command is accepted. -/
theorem State.idle_of_active {s : State} (ht : s.txActive = false) (hr : s.rxActive = false) {k : Nat} {p : Inst}
    (hp : s.insts[k]? = some p) : p.tx.busy = false ∧ p.rx.busy = false := by
  have hm := List.mem_of_getElem? hp
  simp only [State.txActive, State.rxActive, List.any_eq_false] at ht hr
  exact ⟨by simpa using ht p hm, by simpa using hr p hm⟩

/-- What the block phase of a tick can do (R41): accept one command, or only step the engines. -/
theorem State.blockPhase_cases {h t : State} (e : h.blockPhase = .next t) :
    h.pushOutOfRange = false ∧
    ((∃ k w u, h.captureSelect = none ∧ h.commandSelect none = some k ∧ h.command k = some w ∧
        execute w ((h.engines none).accept k) = .next u ∧ t = u.advance) ∨
     (h.commandSelect h.captureSelect = none ∧ t = (h.engines h.captureSelect).advance)) := by
  unfold State.blockPhase at e
  dsimp only at e
  split at e
  · cases e
  · refine ⟨Bool.eq_false_iff.2 (by assumption), ?_⟩
    cases hc : h.commandSelect h.captureSelect with
    | none =>
      simp only [hc, Option.bind_eq_bind, Option.bind_none] at e
      exact .inr ⟨rfl, by cases e; rfl⟩
    | some k =>
      obtain ⟨-, w, -, -, -, hw⟩ := State.command_of_select hc
      have hgo : h.captureSelect = none := (State.commandSelect_some hc).2.2.1
      rw [hgo] at hc e
      simp only [hc, hw, Option.bind_eq_bind, Option.bind_some, Option.map_some] at e
      obtain ⟨u, hu, rfl⟩ := andThen_next e
      exact .inl ⟨k, w, u, hgo, hc, hw, hu, rfl⟩

/-- What a step can do (R40). -/
theorem step_cases {s t : State} (e : step s = .next t) :
    s.configValid = true ∧ s.hostPhase.pushOutOfRange = false ∧
    ((∃ k w u, s.hostPhase.captureSelect = none ∧ s.hostPhase.commandSelect none = some k ∧
        s.hostPhase.command k = some w ∧ execute w ((s.hostPhase.engines none).accept k) = .next u ∧ t = u.advance) ∨
     (s.hostPhase.commandSelect s.hostPhase.captureSelect = none ∧
        t = (s.hostPhase.engines s.hostPhase.captureSelect).advance)) := by
  unfold step at e
  split at e
  · exact ⟨‹_›, State.blockPhase_cases e⟩
  · cases e

/-- A word is executed as its command, or answered as illegal (R84, R85). -/
theorem execute_cases (w : Word) (s : State) :
    (∃ i, decode w = .ok i ∧ execute w s = exec i s) ∨ (∃ r, decode w = .error r ∧ execute w s = illegal s) := by
  unfold execute
  cases hd : decode w with
  | ok i => exact .inl ⟨i, rfl, rfl⟩
  | error r => exact .inr ⟨r, rfl, rfl⟩

/-- The number of blocks never changes in the host phase or in the engines' steps. -/
@[simp] theorem State.length_hostPhase (s : State) : s.hostPhase.insts.length = s.insts.length := by simp

@[simp] theorem State.length_engines (s : State) (go : Option Nat) : (s.engines go).insts.length = s.insts.length := by
  simp

/-- The configuration stays valid as long as no block's configuration changes (R232). -/
theorem State.configValid_congr {s t : State} (hc : t.cfg = s.cfg)
    (hi : t.insts.map Inst.cfg = s.insts.map Inst.cfg) : t.configValid = s.configValid := by
  have hall : ∀ l : List Inst, (l.all fun p => p.cfg.valid s.cfg.timerW) = (l.map Inst.cfg).all (·.valid s.cfg.timerW) := by
    intro l
    simp [List.all_map, Function.comp_def]
  have hemp : ∀ l : List Inst, l.isEmpty = (l.map Inst.cfg).isEmpty := by
    intro l
    cases l <;> rfl
  rw [State.configValid, State.configValid, hc, hall, hall, hemp, hemp s.insts, hi]

end Sys2Proof.Machine
end

