-- ==== Sys2Proof/Tests/Slice0.lean ====
section
/-! SUPPORT. The model's own tests. Expected results are those of spec/ (the vector or rule is named at each); the witnesses
show states and operands that meet the hypotheses of each statement of Certificates/Slice0/Obligations.lean. -/
namespace Sys2Proof.Tests

open Sys2Proof.Machine

/-! ### Small states -/

/-- A block with both pins, `BP = 4`, `OFF = 5`, `C = 8` (95_test_vectors.md), right after reset. -/
def block : Inst := Inst.resetWith InstConfig.default InstDraw.zero

/-- A host that waits and a high line in this tick. -/
def quiet (p : Inst) : Inst := { p with env := { delivered := [], rxIn := [true], hostIn := [HostMove.idle] } }

/-- A domain with the blocks, right after reset. -/
def domain (is : List Inst) : State := { State.reset with insts := is }

/-- A domain with one block, quiet in this tick. -/
def one (f : Inst → Inst) : State := domain [f (quiet block)]

/-- A domain at a timer value and with an interrupt enable. -/
def clock (timer : Nat) (gie : Bool) (s : State) : State := { s with timer := timer, gie := gie }

/-- A block whose ring has these indices and lists these slots. -/
def ring (w r : Nat) (mem : Memory) (p : Inst) : Inst := { p with rb := { mem := mem, w := w, r := r } }

/-- A block with a command word in its slot. -/
def placed (w : Word) (p : Inst) : Inst := { p with port.cmd := some w }

/-- A block without a transmit pin. -/
def noTx (p : Inst) : Inst := { p with cfg.txPresent := false }

/-- A block without a receive pin. -/
def noRx (p : Inst) : Inst := { p with cfg.rxPresent := false }

/-- A block sending cell `c` of byte `b`, its frame begun at timer 0. -/
def sending (b : Byte) (c : Nat) (p : Inst) : Inst :=
  { p with tx := { line := cell b c, busy := true, cell := c, byte := b, start := 0, deadline := 4 * (c + 1) } }

/-- A block that captures since timer 0 and has taken `c` samples. -/
def capturing (c : Nat) (v : Byte) (p : Inst) : Inst :=
  { p with rx := { prev := true, edgePending := true, busy := true, count := c, shift := v, start := 0, deadline := 5 + 4 * c } }

/-- A block with an edge latched. -/
def latched (p : Inst) : Inst := { p with rx.prev := true, rx.edgePending := true }

/-- What an outcome's state says of block `k`, if there is one. -/
def look (o : Outcome) (k : Nat) (c : State → Inst → Bool) : Bool :=
  match o with
  | .next t => t.insts[k]?.any (c t)
  | .fault _ => false
  | .refused _ => false

theorem exists_of_look {o : Outcome} {k : Nat} {c : State → Inst → Bool} (h : look o k c = true) :
    ∃ t q, o = .next t ∧ t.insts[k]? = some q ∧ c t q = true := by
  cases o with
  | next t =>
    obtain ⟨q, hq, hc⟩ := (Option.any_eq_true _ _).1 h
    exact ⟨t, q, rfl, hq, hc⟩
  | fault _ => cases h
  | refused _ => cases h

/-- A step that answers a next state with a block `k`. -/
def steps (s : State) (k : Nat) : Bool := look (step s) k fun _ _ => true

theorem exists_step {s : State} {k : Nat} (h : steps s k = true) : ∃ t q, step s = .next t ∧ t.insts[k]? = some q :=
  let ⟨t, q, ht, hq, _⟩ := exists_of_look h
  ⟨t, q, ht, hq⟩

/-! ### Well-formed words and configurations: each check refuses an ill-formed term -/

theorem test_wf_instr : (Instr.txByte 0xFF#8).wf = true := by decide

theorem test_word_rsv_refused : rsvClear 0x1100#16 = false ∧ legalWord 0x1100#16 = false := by decide

theorem test_word_op_refused : opAssigned 0x00FF#16 = false ∧ opAssigned 0x0900#16 = false ∧ legalWord 0x0F00#16 = false := by
  decide

theorem test_word_data_refused : dataAllowed 0x0880#16 = false ∧ legalWord 0x0201#16 = false := by decide

theorem test_word_legal : legalWord 0x01FF#16 = true ∧ legalWord 0x0800#16 = true := by decide

theorem test_config_valid : InstConfig.default.valid 32 = true ∧ InstConfig.default.roundTrip 32 = true := by decide

theorem test_config_bp_refused : ({ InstConfig.default with bp := 1 } : InstConfig).valid 32 = false := by decide

theorem test_config_frame_refused : ({ InstConfig.default with bp := 4 } : InstConfig).valid 5 = false := by decide

theorem test_config_off_refused : ({ InstConfig.default with off := 0 } : InstConfig).valid 32 = false := by decide

theorem test_config_capture_refused : ({ InstConfig.default with off := 32 } : InstConfig).valid 6 = false := by decide

theorem test_config_cap_refused : ({ InstConfig.default with cap := 1 } : InstConfig).valid 32 = false := by decide

theorem test_config_band_refused : ({ InstConfig.default with off := 7 } : InstConfig).roundTrip 32 = false := by decide

theorem test_config_window_refused :
    ({ DomainConfig.default with readTimeout := 2 ^ 32 - 1 } : DomainConfig).valid = true ∧
      ({ DomainConfig.default with readTimeout := 2 ^ 32 } : DomainConfig).valid = false := by decide

theorem test_config_no_block_refused : (domain []).configValid = false := by decide

/-! ### Decoding: words written out from R82's patterns (95_test_vectors.md 2.1) -/

theorem test_decode_txByte : decode 0b0000_0001_0100_0001#16 = .ok (.txByte 0x41#8) := by decide

theorem test_decode_rbPop : decode 0b0000_0010_0000_0000#16 = .ok .rbPop := by decide

theorem test_decode_rbPeek : decode 0b0000_0011_0000_0000#16 = .ok .rbPeek := by decide

theorem test_decode_rbAvail : decode 0b0000_0100_0000_0000#16 = .ok .rbAvail := by decide

theorem test_decode_rbClear : decode 0b0000_0101_0000_0000#16 = .ok .rbClear := by decide

theorem test_decode_gieClr : decode 0b0000_0110_0000_0000#16 = .ok .gieClr := by decide

theorem test_decode_gieSet : decode 0b0000_0111_0000_0000#16 = .ok .gieSet := by decide

theorem test_decode_tmrRead : decode 0b0000_1000_0000_0000#16 = .ok .tmrRead := by decide

theorem test_decode_illegal :
    decode 0x0880#16 = .error .dataNonzero ∧ decode 0x00FF#16 = .error .opReserved ∧
      decode 0xFFFF#16 = .error .rsvNonzero := by decide

theorem test_decodeTableWord : decodeTableWord 16 0x01AB = some (.txByte 0xAB#8) ∧ decodeTableWord 16 0x0900 = none := by
  decide

/-- "AT\r\n" (R184). -/
theorem test_write_string_words :
    [0x41#8, 0x54#8, 0x0D#8, 0x0A#8].map (fun b => encode (.txByte b)) = [0x0141#16, 0x0154#16, 0x010D#16, 0x010A#16] := by
  decide

/-- The response words of 95_test_vectors.md 2.1. -/
theorem test_response_words :
    (Response.word 32 8 ⟨.ok, 0x41⟩).toNat = 0x104 ∧ (Response.word 32 8 ⟨.noTxPin, 0⟩).toNat = 0x2 ∧
      (Response.word 32 8 ⟨.ok, 0xFFFFFFFF⟩).toNat = 0x3FFFFFFFC := by decide

/-! ### Commands -/

/-- TX-1: at acceptance the line goes low and `gie = 0`, with no response yet. -/
theorem test_txByte_starts :
    look (exec (.txByte 0x41#8) (one id)) 0 (fun t q => !q.tx.line && q.tx.busy && !t.gie && q.port.resp.isNone) = true := by
  decide

/-- TX-5. -/
theorem test_txByte_no_pin :
    look (exec (.txByte 0x41#8) (one noTx)) 0
      (fun t q => t.gie && !q.tx.busy && q.port.resp == some ⟨.noTxPin, 0⟩) = true := by decide

/-- RB-3. -/
theorem test_rbPop_wraps :
    look (exec .rbPop (one (ring 1 7 [(7, 0x54#8)]))) 0
      (fun _ q => q.rb.r == 0 && q.port.resp == some ⟨.ok, 0x54⟩) = true := by decide

/-- RB-2. -/
theorem test_rbPop_empty :
    look (exec .rbPop (one (ring 4 4 []))) 0 (fun _ q => q.rb.r == 4 && q.port.resp == some ⟨.empty, 0⟩) = true := by decide

/-- RB-4. -/
theorem test_rbPeek :
    look (exec .rbPeek (one (ring 3 2 [(2, 0x0D#8)]))) 0
      (fun _ q => q.rb.r == 2 && q.port.resp == some ⟨.ok, 0x0D⟩) = true := by decide

/-- RB-2a. -/
theorem test_rbPeek_empty :
    look (exec .rbPeek (one (ring 4 4 []))) 0 (fun _ q => q.port.resp == some ⟨.empty, 0⟩) = true := by decide

/-- RB-5. -/
theorem test_rbAvail_wrapped :
    look (exec .rbAvail (one (ring 1 7 []))) 0 (fun _ q => q.port.resp == some ⟨.ok, 2⟩) = true := by decide

/-- RB-5a. -/
theorem test_rbAvail_most :
    look (exec .rbAvail (one (ring 6 7 []))) 0 (fun _ q => q.port.resp == some ⟨.ok, 7⟩) = true := by decide

/-- RB-6. -/
theorem test_rbClear :
    look (exec .rbClear (one (ring 5 2 [(3, 0x99#8)]))) 0
      (fun _ q => q.rb.r == 5 && q.rb.w == 5 && q.rb.mem == [(3, 0x99#8)]) = true := by decide

/-- PL-1. -/
theorem test_gieClr :
    look (exec .gieClr (one id)) 0 (fun t q => !t.gie && q.port.resp == some ⟨.ok, 0⟩) = true := by decide

/-- R171. -/
theorem test_gieSet :
    look (exec .gieSet ((one id).setGie false)) 0 (fun t q => t.gie && q.port.resp == some ⟨.ok, 0⟩) = true := by decide

/-- PL-3. -/
theorem test_tmrRead :
    look (step (clock (0xFFFFFFFF) true (one (placed 0x0800#16)))) 0
      (fun t q => t.timer == 0 && q.port.resp == some ⟨.ok, 0xFFFFFFFF⟩) = true := by decide

/-! ### Engines -/

/-- RB-7: a push at `avail = C - 1` makes the ring read as empty. -/
theorem test_push_overflow :
    ((ring 6 7 [] block).push 0x99#8).rb.w = 7 ∧ ((ring 6 7 [] block).push 0x99#8).avail = 0 := by decide

/-- RB-1. -/
theorem test_push_wraps :
    ((ring 7 3 [] block).push 0x41#8).rb.w = 0 ∧ ((ring 7 3 [] block).push 0x41#8).avail = 5 := by decide

/-- TX-1, tick 4: cell 1 of 0x41 is high. -/
theorem test_sequencer_cell :
    look (step (clock 4 false (one (sending 0x41#8 0)))) 0
      (fun _ q => q.tx.line && q.tx.cell == 1 && q.tx.deadline == 8) = true := by decide

/-- TX-1, tick 40: completion. -/
theorem test_sequencer_end :
    look (step (clock 40 false (one (sending 0x41#8 9)))) 0
      (fun t q => !q.tx.busy && t.gie && q.port.resp == some ⟨.ok, 0⟩ && q.tx.cell == 9 && q.tx.deadline == 40) = true := by
  decide

/-- EX-1 and R209 (a): a capture start beats a command. -/
theorem test_capture_beats_command :
    look (step (one fun p => latched (placed 0x0400#16 p))) 0
      (fun _ q => q.rx.busy && q.port.cmd == some 0x0400#16 && q.port.resp.isNone) = true := by decide

/-- R124's example: the sample of bit 0 is taken when 5 ticks have elapsed. -/
theorem test_sample :
    look (step (clock 5 true (one (capturing 0 0x00#8)))) 0
      (fun _ q => q.rx.shift == 0x01#8 && q.rx.count == 1 && q.rx.deadline == 9) = true := by decide

/-- RX-6: an edge in the finishing tick stays latched. -/
theorem test_stop_keeps_new_edge :
    look (step (clock 37 true (one (fun p => { capturing 8 0xFF#8 p with env.rxIn := [false] })))) 0
      (fun _ q => !q.rx.busy && q.rx.edgePending && q.rb.w == 1 && q.rb.mem == [(0, 0xFF#8)]) = true := by decide

/-- RX-8: a line low at reset is an edge only if the draw of `rx_prev` is 1. -/
theorem test_low_at_reset :
    look (step (one fun p => { p with rx.prev := true, env.rxIn := [false] })) 0 (fun _ q => q.rx.edgePending) = true ∧
    look (step (one fun p => { p with env.rxIn := [false] })) 0 (fun _ q => q.rx.edgePending) = false := by decide

/-- EX-4: either of two ready blocks captures. -/
theorem test_either_captures :
    ({ domain [latched block, latched block] with captureIn := [0] } : State).captureSelect = some 0 ∧
      ({ domain [latched block, latched block] with captureIn := [1] } : State).captureSelect = some 1 := by decide

/-! ### The host -/

/-- HS-3 and R189. -/
theorem test_read_nothing_at_once : Call.start (.readBytes 0 0) = .inr (.bytes []) := by decide

/-- L1-3: RB_AVAIL answers 1 and two bytes are wanted, so the clock is read next. -/
theorem test_read_waits :
    (Phase.answer DomainConfig.default ⟨.ok, 1⟩ (.readAvail 0 (.readBytes 2) 7)).1 = .readClock 0 (.readBytes 2) 7 := by decide

/-- The very next step after reset runs a placed word (R40). -/
theorem test_fetch_from_reset :
    look (step (State.reset.withFetchWord 16 0x0400)) 0 (fun _ q => q.port.resp == some ⟨.ok, 0⟩) = true := by decide

/-! ### Witnesses: states and operands that meet the hypotheses of the statements -/

theorem witness_DecodeOfEncode : (Instr.txByte 0x00#8).wf = true ∧ Instr.tmrRead.wf = true := by decide

theorem witness_EncodeOfDecode : decode 0x01FF#16 = .ok (.txByte 0xFF#8) := by decide

/-- The boundary operation codes: 0, 1, 2, 8, 9, and a reserved field. -/
theorem witness_ExecuteDispatches :
    (0x1000#16).toNat / 4096 ≠ 0 ∧ (0x0000#16).toNat / 256 % 16 = 0 ∧ (0x01FF#16).toNat / 256 % 16 = 1 ∧
      (0x0200#16).toNat / 256 % 16 = 2 ∧ (0x0801#16).toNat / 256 % 16 = 8 ∧ 9 ≤ (0x0900#16).toNat / 256 % 16 := by decide

theorem witness_IllegalWordAnswered :
    (one (placed 0x0201#16)).configValid = true ∧ (one (placed 0x0201#16)).hostPhase.pushOutOfRange = false ∧
      (one (placed 0x0201#16)).hostPhase.commandSelect (one (placed 0x0201#16)).hostPhase.captureSelect = some 0 ∧
      (one (placed 0x0201#16)).hostPhase.command 0 = some 0x0201#16 ∧
      ((one (placed 0x0201#16)).hostPhase.insts[0]?).isSome = true ∧ ∀ i, decode 0x0201#16 ≠ .ok i := by
  refine ⟨by decide, by decide, by decide, by decide, by decide, fun i h => ?_⟩
  rw [show decode 0x0201#16 = .error .dataNonzero by decide] at h
  cases h

theorem witness_OpcodeTableUnambiguous :
    (⟨"RB_POP", 0xFFFF#16, 0x0200#16⟩ : OpcodeRow) ∈ opcodeTable ∧
      (⟨"RB_POP", 0xFFFF#16, 0x0200#16⟩ : OpcodeRow).covers 0x0200#16 = true ∧ decode 0x0200#16 = .ok .rbPop := by decide

theorem witness_ResponseWordLayout :
    (⟨.ok, 2 ^ 32 - 1⟩ : Response).value < 2 ^ valueWidth 32 8 ∧ (255 < 256 ∧ (2 ≤ 8 ∧ 7 < 8)) := by decide

theorem witness_TxByteStartsFrame : (one id).insts[(one id).sel]? = some (quiet block) ∧ block.cfg.txPresent = true := by
  decide

theorem witness_TxByteWithoutPin : (one noTx).insts[0]? = some (noTx (quiet block)) ∧ (noTx block).cfg.txPresent = false := by
  decide

/-- RB_POP and RB_PEEK: an empty ring, the last slot, and an index out of range. -/
theorem witness_RbPopAnswers :
    ((one (ring 4 4 [])).insts[0]? = some (ring 4 4 [] (quiet block)) ∧ (ring 4 4 [] block).rb.w = (ring 4 4 [] block).rb.r) ∧
    ((one (ring 0 7 [])).insts[0]? = some (ring 0 7 [] (quiet block)) ∧ 0 ≠ 7 ∧ 7 < block.cfg.cap) ∧
    ((one (ring 0 8 [])).insts[0]? = some (ring 0 8 [] (quiet block)) ∧ 0 ≠ 8 ∧ ¬8 < block.cfg.cap) := by decide

theorem witness_RbPeekAnswers :
    ((one (ring 4 4 [])).insts[0]? = some (ring 4 4 [] (quiet block)) ∧ (ring 4 4 [] block).rb.w = (ring 4 4 [] block).rb.r) ∧
    ((one (ring 0 7 [])).insts[0]? = some (ring 0 7 [] (quiet block)) ∧ 0 ≠ 7 ∧ 7 < block.cfg.cap) ∧
    ((one (ring 0 8 [])).insts[0]? = some (ring 0 8 [] (quiet block)) ∧ 0 ≠ 8 ∧ ¬8 < block.cfg.cap) := by decide

/-- RB_AVAIL: equal indices, and the write index just below the read index. -/
theorem witness_RbAvailCounts :
    (one (ring 7 7 [])).insts[0]? = some (ring 7 7 [] (quiet block)) ∧ 7 < block.cfg.cap ∧ 7 ≤ 7 ∧
      (one (ring 6 7 [])).insts[0]? = some (ring 6 7 [] (quiet block)) ∧ 6 < 7 := by decide

theorem witness_RbClearEmpties : (one (ring 5 2 [])).insts[0]? = some (ring 5 2 [] (quiet block)) := by decide

theorem witness_GieClrDisables :
    (one id).insts[(one id).sel]? = some (quiet block) ∧ look (exec .gieClr (one id)) 0 (fun _ _ => true) = true := by decide

theorem witness_GieSetEnables :
    (one id).insts[(one id).sel]? = some (quiet block) ∧ look (exec .gieSet (one id)) 0 (fun _ _ => true) = true := by decide

theorem witness_TmrReadAnswersTimer : (one id).insts[(one id).sel]? = some (quiet block) := by decide

theorem witness_EveryCommandCompletes :
    (one (ring 0 7 [])).insts[0]? = some (ring 0 7 [] (quiet block)) ∧ (ring 0 7 [] block).rb.r < block.cfg.cap := by decide

theorem witness_CommandFrame : ∃ t q, exec .rbPop (one (ring 1 7 [])) = .next t ∧ t.insts[0]? = some q ∧ (q.rb.r == 0) = true :=
  exists_of_look (by decide)

/-- A TX_BYTE with a pin, and a command that answers at once. -/
theorem witness_CommandStatuses :
    (∃ t q, exec (.txByte 0x00#8) (one id) = .next t ∧ t.insts[0]? = some q ∧ q.tx.busy = true) ∧
      ∃ t q, exec .rbPop (one id) = .next t ∧ t.insts[0]? = some q ∧ (q.port.resp == some ⟨.empty, 0⟩) = true :=
  ⟨exists_of_look (by decide), exists_of_look (by decide)⟩

theorem witness_StepRunsDecodedCommand :
    (one (placed 0x01FF#16)).configValid = true ∧ (one (placed 0x01FF#16)).hostPhase.pushOutOfRange = false ∧
      (one (placed 0x01FF#16)).hostPhase.commandSelect (one (placed 0x01FF#16)).hostPhase.captureSelect = some 0 ∧
      (one (placed 0x01FF#16)).hostPhase.command 0 = some 0x01FF#16 ∧ decode 0x01FF#16 = .ok (.txByte 0xFF#8) := by decide

theorem witness_FetchedWordRuns : State.reset.configValid = true := by decide

/-- A command accepted, one eligible, and one that waits while a frame is sent. -/
theorem witness_CommandSelection :
    (one (placed 0x0200#16)).commandSelect none = some 0 ∧ (one (placed 0x0200#16)).Eligible none 0 ∧
      (∃ t q, step (clock 0 false (one (fun p => placed 0x0200#16 (sending 0x41#8 0 p)))) = .next t ∧
        t.insts[0]? = some q) ∧
      ((clock 0 false (one (fun p => placed 0x0200#16 (sending 0x41#8 0 p))))).hostPhase.commandSelect none ≠
        some 0 :=
  ⟨by decide, ⟨⟨_, _, rfl, rfl, rfl⟩, by decide, rfl⟩, exists_step (by decide), by decide⟩

theorem witness_CaptureSelection :
    (one latched).captureSelect = some 0 ∧ (one latched).ReadyToCapture 0 ∧ (∀ q ∈ (one latched).insts, q.rx.busy = false) ∧
      ∃ t q, step (one latched) = .next t ∧ t.insts[0]? = some q :=
  ⟨by decide, ⟨_, rfl, rfl, rfl, rfl, rfl⟩, by decide, exists_step (by decide)⟩

/-- No tick, and a tick in which the timer wraps. -/
theorem witness_TimerCountsTicks :
    (one id).timer < 2 ^ (one id).cfg.timerW ∧ ticks 0 (one id) = .next (one id) ∧
      ∃ t q, ticks 1 (clock (2 ^ 32 - 1) true (one id)) = .next t ∧ t.insts[0]? = some q ∧ (t.timer == 0) = true :=
  ⟨by decide, rfl, exists_of_look (by decide)⟩

theorem witness_EdgeDetectorAndLatch :
    (∃ t q, step (one fun p => { p with rx.prev := true, env.rxIn := [false] }) = .next t ∧ t.insts[0]? = some q) ∧
      ∃ t q, step (one noRx) = .next t ∧ t.insts[0]? = some q :=
  ⟨exists_step (by decide), exists_step (by decide)⟩

/-- The last tick of a wait, the change from cell 8 to 9, and the end of cell 9. -/
theorem witness_SequencerStep :
    (steps (clock 3 false (one (sending 0x41#8 0))) 0 = true ∧ elapsed 32 3 0 < 4) ∧
    (steps (clock 36 false (one (sending 0x41#8 8))) 0 = true ∧ 36 ≤ elapsed 32 36 0) ∧
    (steps (clock 40 false (one (sending 0x41#8 9))) 0 = true ∧ 40 ≤ elapsed 32 40 0) := by decide

theorem witness_CaptureStartStep :
    (one latched).StartsCapture 0 ∧ ∃ t q, step (one latched) = .next t ∧ t.insts[0]? = some q :=
  ⟨by decide, exists_step (by decide)⟩

/-- The last sample, one tick early and on time. -/
theorem witness_SampleStep :
    (steps (clock 32 true (one (capturing 7 0x00#8))) 0 = true ∧ elapsed 32 32 0 < 33) ∧
    (steps (clock 33 true (one (capturing 7 0x00#8))) 0 = true ∧ 33 ≤ elapsed 32 33 0) := by decide

/-- The last slot, and a write index out of range. -/
theorem witness_StopStepPushes :
    (steps (clock 37 true (one (fun p => ring 7 0 [] (capturing 8 0x41#8 p)))) 0 = true ∧ 37 ≤ elapsed 32 37 0 ∧
      7 < block.cfg.cap ∧ Memory.wf []) ∧
    ((clock 37 true (one fun p => ring 8 0 [] (capturing 8 0x41#8 p))).configValid = true ∧
      (clock 37 true (one fun p => ring 8 0 [] (capturing 8 0x41#8 p))).insts[0]? =
        some (ring 8 0 [] (capturing 8 0x41#8 (quiet block))) ∧
      (capturing 8 0x41#8 block).rx.busy = true ∧ (capturing 8 0x41#8 block).rx.count = 8 ∧
      (capturing 8 0x41#8 block).rx.deadline ≤ elapsed 32 37 (capturing 8 0x41#8 block).rx.start ∧
      block.cfg.cap ≤ 8) := by decide

theorem witness_RingWriters :
    steps (one (placed 0x0200#16)) 0 = true ∧
      look (step (one fun p => placed 0x0200#16 (ring 1 0 [] p))) 0 (fun _ q => q.rb.r == 1) = true := by decide

theorem witness_GieWriters :
    look (step (one (placed 0x0600#16))) 0 (fun t _ => t.gie != (one (placed 0x0600#16)).gie) = true ∧
      look (step (clock 40 false (one (sending 0x41#8 9)))) 0 (fun t _ => t.gie) = true := by decide

theorem witness_HostPhaseMoves : (one (placed 0x0200#16)).insts[0]? = some (placed 0x0200#16 (quiet block)) := by decide

/-- The invariant holds in a tick that sends and in one that captures, and the machine steps from both. -/
theorem witness_StepKeepsInvariant :
    ((clock 40 false (one (sending 0x41#8 9))).Inv ∧
      steps (clock 40 false (one (sending 0x41#8 9))) 0 = true) ∧
    ((clock 37 true (one (capturing 8 0x41#8))).Inv ∧
      steps (clock 37 true (one (capturing 8 0x41#8))) 0 = true) :=
  ⟨⟨by decide, by decide⟩, ⟨by decide, by decide⟩⟩

/-- Draws at the ends of their ranges. -/
theorem witness_ResetMeetsInvariant :
    InstDraw.ok 32 (InstConfig.default,
        { rxPrev := true, txByte := 0xFF#8, txStart := 2 ^ 32 - 1, txDeadline := 2 ^ 32 - 1, rxStart := 0,
          rxDeadline := 2 ^ 32 - 1, rbMem := [(7, 0x01#8)] }) ∧
      ({ DomainConfig.default with readTimeout := 2 ^ 32 - 1 } : DomainConfig).valid = true ∧ 2 ^ 32 - 1 < 2 ^ 32 := by decide

theorem witness_ResetValues : [(InstConfig.default, InstDraw.zero)][0]? = some (InstConfig.default, InstDraw.zero) := by decide

theorem witness_StepAlwaysAnswers : State.reset.Inv := by decide

theorem witness_InvalidConfigurationRefused :
    step (domain [{ block with cfg.bp := 1 }]) = .refused .invalidConfiguration ∧
      step { one id with cfg := { DomainConfig.default with readTimeout := 2 ^ 32 } } = .refused .invalidConfiguration ∧
      steps { one id with cfg := { DomainConfig.default with readTimeout := 2 ^ 32 - 1 } } 0 = true :=
  ⟨rfl, rfl, by decide⟩

theorem witness_EnginesExcludeEachOther :
    ((clock 1 false (one (sending 0x41#8 0))).Inv ∧
      ∃ p ∈ (clock 1 false (one (sending 0x41#8 0))).insts, p.tx.busy = true) ∧
    ((clock 1 true (one (capturing 0 0x00#8))).Inv ∧
      ∃ p ∈ (clock 1 true (one (capturing 0 0x00#8))).insts, p.rx.busy = true) ∧
    ((one latched).Inv ∧ (one latched).StartsCapture 0) :=
  ⟨⟨by decide, by decide⟩, ⟨by decide, by decide⟩, by decide, by decide⟩

theorem witness_ResponsesNeverOverwritten :
    (one fun p => { p with port.resp := some ⟨.ok, 7⟩ }).Inv ∧
      ((one fun p => { p with port.resp := some ⟨.ok, 7⟩ }).hostPhase.insts[0]?.map (·.port.resp)) = some (some ⟨.ok, 7⟩) ∧
      steps (one fun p => { p with port.resp := some ⟨.ok, 7⟩ }) 0 = true := by decide

theorem witness_NoReceivePinNeverReceives :
    (one noRx).Inv ∧ (one noRx).insts[0]? = some (noRx (quiet block)) ∧ (noRx block).cfg.rxPresent = false ∧
      steps (one noRx) 0 = true ∧ (one noRx).sel = 0 := by decide

theorem witness_FrameTiming :
    (one (placed 0x0141#16)).Inv ∧ (one (placed 0x0141#16)).insts[0]? = some (placed 0x0141#16 (quiet block)) ∧
      block.cfg.txPresent = true ∧ (one (placed 0x0141#16)).Accepts 0 (.txByte 0x41#8) := by decide

theorem witness_CaptureSchedule :
    (one latched).Inv ∧ (one latched).insts[0]? = some (latched (quiet block)) ∧ (one latched).StartsCapture 0 := by decide

theorem witness_DefaultOffsetCentres : 2 ≤ 2 ∧ defaultOffset 2 = 2 := by decide

theorem witness_OverflowHidesBytes :
    (ring 6 6 [] block).rb.w = (ring 6 6 [] block).rb.r ∧ (ring 6 6 [] block).rb.w < block.cfg.cap ∧ Memory.wf [] := by decide

theorem witness_FifoOrder :
    (ring 6 6 [] block).ringOk ∧ (one (ring 6 6 [])).insts[0]? = some (ring 6 6 [] (quiet block)) ∧
      (ringRun [.push 0xA1#8, .push 0xA2#8, .pop] (one (ring 6 6 []))).map (·.2) = some [0xA1#8] := by decide

/-- The last push that fits, and the one that hides everything. -/
theorem witness_PushChangesAvail :
    (ring 5 7 [] block).avail = block.cfg.cap - 2 ∧ (ring 6 7 [] block).avail = block.cfg.cap - 1 := by decide

/-- Two resets that differ in every unobservable draw. -/
def otherDraw : InstDraw :=
  { rxPrev := false, txByte := 0xFF#8, txStart := 9, txDeadline := 8, rxStart := 7, rxDeadline := 6, rbMem := [(3, 0x99#8)] }

theorem witness_UnobservableRegisters :
    (one id).Inv ∧ (domain [quiet (Inst.resetWith InstConfig.default otherDraw)]).Inv ∧
      State.Alike (one id) (domain [quiet (Inst.resetWith InstConfig.default otherDraw)]) ∧
      ∃ t q, step (one id) = .next t ∧ t.insts[0]? = some q := by
  refine ⟨by decide, by decide, ⟨rfl, rfl, fun k p q hp hq => ?_⟩, exists_step (by decide)⟩
  match k with
  | 0 => cases hp; cases hq; decide
  | k + 1 => cases hp

theorem witness_ResetDrawsAlike :
    [(InstConfig.default, InstDraw.zero)].map (fun cd => (cd.1, cd.2.rxPrev)) =
      [(InstConfig.default, otherDraw)].map (fun cd => (cd.1, cd.2.rxPrev)) := by decide

/-- Two domains that send, one of them with a timer about to wrap. -/
theorem witness_TimerValueUnobserved :
    (clock 1 false (one (sending 0x41#8 0))).Inv ∧
      (clock (2 ^ 32 - 1) false (one (fun p => { sending 0x41#8 0 p with tx.start := 2 ^ 32 - 2, rx.start := 5 }))).Inv ∧
      State.Shifted (2 ^ 32 - 2) (clock 1 false (one (sending 0x41#8 0)))
        (clock (2 ^ 32 - 1) false (one (fun p => { sending 0x41#8 0 p with tx.start := 2 ^ 32 - 2, rx.start := 5 }))) ∧
      (∀ k, ¬(clock 1 false (one (sending 0x41#8 0))).Accepts k .tmrRead) ∧
      ∃ t q, step (clock 1 false (one (sending 0x41#8 0))) = .next t ∧ t.insts[0]? = some q := by
  refine ⟨by decide, by decide, ⟨rfl, by decide, rfl, fun k p q hp hq => ?_⟩, fun k h => ?_, exists_step (by decide)⟩
  · match k with
    | 0 => cases hp; cases hq; decide
    | k + 1 => cases hp
  · exact absurd h.1 (by rw [show State.commandSelect _ _ = none by decide]; exact nofun)

/-- A read of two bytes: its take phases, the last one, and a command of one. -/
theorem witness_ReadTakesOnlyWhenAvailable :
    ((Phase.answer DomainConfig.default ⟨.ok, 2⟩ (.readAvail 0 (.readBytes 2) 7)).1 = .readTake 0 (.readBytes 2) [] 2 ∧
      (Phase.answer DomainConfig.default ⟨.ok, 0x41⟩ (.readTake 0 (.readBytes 2) [] 2)).1 =
        .readTake 0 (.readBytes 2) [0x41#8] 1) ∧
    ((Phase.answer DomainConfig.default ⟨.ok, 0x54⟩ (.readTake 0 (.readBytes 2) [0x41#8] 1)).2 =
        some (.bytes [0x41#8, 0x54#8]) ∧ (Phase.readTake 0 (.readBytes 2) [0x41#8] 1).Counted) ∧
    Call.start (.readBytes 0 2) = .inl (.readStart 0 (.readBytes 2)) ∧
    (Phase.readTake 0 .readByte [] 1).command = some (0, encode .rbPop) ∧
    (Phase.readTake 0 .peekByte [] 1).command = some (0, encode .rbPeek) :=
  ⟨by decide, ⟨by decide, Nat.le_refl 1, rfl⟩, by decide, by decide, by decide⟩

/-- The window's last tick and the one before, the first TMR_READ of a read, and the longest window there is. -/
theorem witness_ReadTimeoutOnlyAfterWindow :
    ((Phase.answer DomainConfig.default ⟨.ok, 17⟩ (.readClock 0 .readByte 7)).2 = some .readTimeout ∧
      (Phase.answer DomainConfig.default ⟨.ok, 16⟩ (.readClock 0 .readByte 7)).1 = .readAvail 0 .readByte 7) ∧
    (Phase.answer DomainConfig.default ⟨.ok, 7⟩ (.readStart 0 .readByte)).1 = .readAvail 0 .readByte 7 ∧
    (Phase.answer DomainConfig.default ⟨.ok, 0⟩ (.readAvail 0 .readByte 7)).1 = .readClock 0 .readByte 7 ∧
    Call.start (.readByte 0) = .inl (.readStart 0 .readByte) ∧
    ({ DomainConfig.default with readTimeout := 2 ^ 32 - 1 } : DomainConfig).valid = true := by decide

theorem witness_WriteIssuesBytesInOrder :
    ([0x41#8, 0x54#8].length ≤ [(⟨.ok, 0⟩ : Response), ⟨.noTxPin, 0⟩].length ∧
      Call.start (.writeString 0 [0x41#8, 0x54#8]) = .inl (.write 0 0x41#8 [0x54#8]) ∧
      Call.start (.writeBytes 0 [0x41#8, 0x54#8]) = .inl (.write 0 0x41#8 [0x54#8])) ∧
    Call.start (.writeByte 0 0x41#8) = .inl (.write 0 0x41#8 []) ∧ [0x41#8] ≠ [] := by decide

/-- A transmitting domain and a receiving one, wired (95_test_vectors.md P1, with `BP = 2`). -/
def pair : System where
  nodes :=
    [ { state := domain [{ placed 0x0141#16 (quiet block) with cfg := { InstConfig.default with bp := 2, off := 2 } }]
        agent := none },
      { state :=
          { domain [{ block with
              cfg := { InstConfig.default with bp := 2, off := 2 }
              env := { delivered := [], rxIn := [], hostIn := List.replicate 21 HostMove.idle } }] with dom := 1 }
        agent := none } ]
  wires := [{ source := ⟨0, 0⟩, sink := ⟨1, 0⟩ }]

/-- The receiving block of a system, if its step answers. -/
def receives (o : Host.Outcome System Fault Refusal) (c : Inst → Bool) : Bool :=
  match o with
  | .next y => (y.nodes[1]? >>= fun n => n.state.insts[0]?).any c
  | .fault _ => false
  | .refused _ => false

/-- The wired pin shows the transmit line, which is high before the frame. -/
theorem witness_WiredPinShowsTransmitLine :
    receives pair.step (fun q => q.rx.prev) = true ∧
      (pair.wires.find? fun v => decide (v.sink = ⟨1, 0⟩)) = some { source := ⟨0, 0⟩, sink := ⟨1, 0⟩ } ∧
      pair.txLevel ⟨0, 0⟩ = some true := by decide

theorem witness_RoundTripOneFrame :
    (∀ n ∈ pair.nodes, n.state.Inv) ∧
      (∃ nA, pair.nodes[0]? = some nA ∧ (pair.prepared 0 nA).Accepts 0 (.txByte 0x41#8) ∧
        ∃ pA, nA.state.insts[0]? = some pA ∧ pA.cfg.txPresent = true ∧ pA.cfg.bp = 2) ∧
      ∃ nB pB, pair.nodes[1]? = some nB ∧ nB.agent = none ∧ nB.state.insts = [pB] ∧ pB.cfg.rxPresent = true ∧
        pB.cfg.bp = 2 ∧ pB.cfg.roundTrip nB.state.cfg.timerW = true ∧ nB.state.gie = true ∧ pB.rx.busy = false ∧
        pB.rx.edgePending = false ∧ pB.port.cmd = none ∧
        pB.env.hostIn = List.replicate (pB.cfg.off + 8 * pB.cfg.bp + 3) HostMove.idle ++ [] :=
  ⟨fun n hn => by simp only [pair, List.mem_cons, List.not_mem_nil, or_false] at hn; rcases hn with rfl | rfl <;> decide,
    ⟨_, rfl, by decide, _, rfl, rfl, rfl⟩,
    ⟨_, _, rfl, rfl, rfl, rfl, rfl, by decide, rfl, rfl, rfl, rfl, rfl⟩⟩

end Sys2Proof.Tests
end

section
/-! PROOFS, family 00_scope.md: which configurations a run has a meaning under (R8, R190), and the default offset (R9, R127). -/
namespace Sys2Proof

/-! ### The configuration parameters -/

/-- The check of one block's parameters is R8's list. -/
theorem InstConfig.valid_iff (W : Nat) (c : InstConfig) :
    c.valid W = true ↔ 2 ≤ c.bp ∧ 10 * c.bp < 2 ^ W ∧ 1 ≤ c.off ∧ c.off + 8 * c.bp < 2 ^ W ∧ 2 ≤ c.cap := by
  simp only [InstConfig.valid, Bool.and_eq_true, decide_eq_true_eq, and_assoc]

/-- One bit period and a half, less the tick by which the edge is seen late (R6, R122). -/
theorem defaultOffset_add_one {bp : Nat} (h : 1 ≤ bp) : defaultOffset bp + 1 = bp + bp / 2 := by
  unfold defaultOffset
  omega

end Sys2Proof

namespace Sys2Proof.Machine

/-! ### Nothing but `step` itself refuses -/

theorem State.withBlock_ne_refused (s : State) {f : Inst → Outcome} {r : Refusal} (h : ∀ p, f p ≠ .refused r) :
    s.withBlock f ≠ .refused r := by
  cases hb : s.block with
  | some p =>
    rw [State.withBlock_of_block hb]
    exact h p
  | none => simp [State.withBlock, hb]

/-- No command's meaning refuses: each is a `withBlock` whose branches answer a next state or a fault. -/
theorem exec_ne_refused (i : Instr) (s : State) (r : Refusal) : exec i s ≠ .refused r := by
  cases i with
  | txByte b => exact s.withBlock_ne_refused fun p => by cases p.cfg.txPresent <;> nofun
  | rbPop => exact s.withBlock_ne_refused fun p => by cases p.ringEmpty <;> cases p.memRead p.rb.r <;> nofun
  | rbPeek => exact s.withBlock_ne_refused fun p => by cases p.ringEmpty <;> cases p.memRead p.rb.r <;> nofun
  | rbAvail => exact s.withBlock_ne_refused fun _ => by nofun
  | rbClear => exact s.withBlock_ne_refused fun _ => by nofun
  | gieClr => exact s.withBlock_ne_refused fun _ => by nofun
  | gieSet => exact s.withBlock_ne_refused fun _ => by nofun
  | tmrRead => exact s.withBlock_ne_refused fun _ => by nofun

theorem illegal_ne_refused (s : State) (r : Refusal) : illegal s ≠ .refused r :=
  s.withBlock_ne_refused fun _ => by nofun

theorem execute_ne_refused (w : Word) (s : State) (r : Refusal) : execute w s ≠ .refused r := by
  rcases execute_cases w s with ⟨i, -, h⟩ | ⟨-, -, h⟩ <;> rw [h]
  · exact exec_ne_refused i s r
  · exact illegal_ne_refused s r

theorem andThen_refused_iff (o : Outcome) (f : State → State) (r : Refusal) :
    andThen o f = .refused r ↔ o = .refused r := by
  cases o <;> simp [andThen]

theorem State.blockPhase_ne_refused (h : State) (r : Refusal) : h.blockPhase ≠ .refused r := by
  unfold State.blockPhase
  dsimp only
  split
  · nofun
  · split
    · rw [Ne, andThen_refused_iff]
      exact execute_ne_refused _ _ r
    · nofun

/-- `step` refuses exactly an invalid configuration (R8; log entry 12). -/
theorem step_refused_iff (s : State) (r : Refusal) :
    step s = .refused r ↔ ¬s.configValid = true ∧ r = .invalidConfiguration := by
  unfold step
  split
  · next hv => simp [hv, State.blockPhase_ne_refused]
  · next hv => simp [hv, eq_comm]

/-- The check of a domain is R190's bound, one block at least, and each block's own check (R8). -/
theorem State.configValid_iff (s : State) :
    s.configValid = true ↔
      1 ≤ s.insts.length ∧ s.cfg.readTimeout < 2 ^ s.cfg.timerW ∧ ∀ p ∈ s.insts, p.cfg.valid s.cfg.timerW = true := by
  simp only [State.configValid, DomainConfig.valid, Bool.and_eq_true, decide_eq_true_eq, Bool.not_eq_true',
    List.isEmpty_eq_false_iff, ← List.length_pos_iff, List.all_eq_true, Nat.succ_le_iff, and_assoc, and_left_comm]

/-- Settles O38: only `step`'s own check refuses, and that check is R8's list with R190's bound. -/
theorem invalidConfigurationRefused : Obligations.InvalidConfigurationRefused := by
  intro s
  rw [step_refused_iff, and_iff_left rfl, State.configValid_iff]
  simp only [InstConfig.valid_iff]

/-- Settles O44: the offset is `bp + bp / 2 - 1`, and half a bit period is shorter than the cell. -/
theorem defaultOffsetCentres : Obligations.DefaultOffsetCentres := by
  intro bp hbp
  have hoff : defaultOffset bp + 1 = bp + bp / 2 := defaultOffset_add_one (Nat.le_of_succ_le hbp)
  refine ⟨?_, ?_, ?_⟩ <;> omega

end Sys2Proof.Machine
end

section
/-! PROOFS, family 10_state.md: what a tick does to the state of a domain (R20 to R47). First the facts that every proof of the
family uses: what a command does to the block that executes it, and what a step does, block by block. -/
namespace Sys2Proof

/-! ### The decoder -/

/-- The three fields of a word make it up (R81). -/
theorem rsv_op_data_append (w : Word) : (rsvField w ++ opField w ++ dataField w : Word) = w := by
  simp only [rsvField, opField, dataField]
  ext j hj
  simp only [BitVec.getElem_append, BitVec.getElem_extractLsb']
  split
  · simp [BitVec.getLsbD_eq_getElem hj]
  · split <;> rw [← BitVec.getLsbD_eq_getElem hj] <;> congr 1 <;> omega

theorem noOperand_ok {w : Word} {i j : Instr} (h : noOperand w i = .ok j) : dataField w = 0#8 ∧ i = j := by
  unfold noOperand at h
  split at h
  · exact ⟨‹_›, Except.ok.inj h⟩
  · cases h

/-- What a legal word's fields are (R84): those of the command it decodes to. -/
theorem decode_fields {w : Word} {i : Instr} (h : decode w = .ok i) :
    rsvField w = 0#4 ∧ opField w = i.op ∧ dataField w = i.data := by
  have hop : ∀ {n : Nat} (hn : n < 2 ^ 4), (opField w).toNat = n → opField w = BitVec.ofNat 4 n := fun hn h =>
    BitVec.eq_of_toNat_eq (by rw [h, BitVec.toNat_ofNat, Nat.mod_eq_of_lt hn])
  unfold decode at h
  split at h
  · next hrsv =>
    refine ⟨hrsv, ?_⟩
    split at h
    case h_1 => cases h; exact ⟨hop (by decide) ‹_›, rfl⟩
    case h_9 => cases h
    all_goals
      obtain ⟨hdata, rfl⟩ := noOperand_ok h
      exact ⟨hop (by decide) ‹_›, hdata⟩
  · cases h

/-- No bit of a legal word is ignored (R81, R85). -/
theorem encode_of_decode {w : Word} {i : Instr} (h : decode w = .ok i) : encode i = w := by
  obtain ⟨hrsv, hop, hdata⟩ := decode_fields h
  rw [encode, ← hrsv, ← hop, ← hdata, rsv_op_data_append]

end Sys2Proof

namespace Sys2Proof.Machine

/-! ### What a command does to the block that executes it

`exec` and `execute` are stated on the domain. `Inst.perform` and `Inst.gieAfter` say the same of the executing block and of
`gie`; `execute_eq` ties them to the model. -/

/-- The executing block after a command; `none` at a ring slot that does not exist (log entry 11). -/
def Inst.perform (timer : Nat) (p : Inst) : Instr → Option Inst
  | .txByte b => some (if p.cfg.txPresent then p.startFrame timer b else p.respond .noTxPin 0)
  | .rbPop =>
    if p.ringEmpty then some (p.respond .empty (byteValue sentinel))
    else (p.memRead p.rb.r).map fun b => { p.respond .ok (byteValue b) with rb.r := nextIndex p.cfg.cap p.rb.r }
  | .rbPeek =>
    if p.ringEmpty then some (p.respond .empty (byteValue sentinel))
    else (p.memRead p.rb.r).map fun b => p.respond .ok (byteValue b)
  | .rbAvail => some (p.respond .ok p.avail)
  | .rbClear => some { p.respond .ok 0 with rb.r := p.rb.w }
  | .gieClr => some (p.respond .ok 0)
  | .gieSet => some (p.respond .ok 0)
  | .tmrRead => some (p.respond .ok timer)

/-- `gie` after a command (R32). -/
def Inst.gieAfter (gie : Bool) (p : Inst) : Instr → Bool
  | .txByte _ => if p.cfg.txPresent then false else gie
  | .rbPop => gie
  | .rbPeek => gie
  | .rbAvail => gie
  | .rbClear => gie
  | .gieClr => false
  | .gieSet => true
  | .tmrRead => gie

/-- The executing block after a command word (R84, R85). -/
def Inst.performWord (timer : Nat) (w : Word) (p : Inst) : Option Inst :=
  match decode w with
  | .ok i => p.perform timer i
  | .error _ => some (p.respond .illegal 0)

/-- `gie` after a command word (R32, R85). -/
def Inst.gieAfterWord (gie : Bool) (w : Word) (p : Inst) : Bool :=
  match decode w with
  | .ok i => p.gieAfter gie i
  | .error _ => gie

/-- The domain after its executing block became `o` and `gie` became `g`; `none` is a stop at a ring slot. -/
def State.replaceBlock (s : State) (g : Bool) : Option Inst → Outcome
  | some q => .next ((s.setGie g).updBlock fun _ => q)
  | none => .fault .ringSlotOutOfRange

/-- An update of the executing block depends only on what it makes of that block. -/
theorem State.updBlock_const {s : State} {p : Inst} (h : s.block = some p) (f : Inst → Inst) :
    s.updBlock f = s.updBlock fun _ => f p := by
  have hi : s.insts.modify s.sel f = s.insts.modify s.sel fun _ => f p := by
    apply List.ext_getElem?
    intro j
    rw [List.getElem?_modify, List.getElem?_modify]
    by_cases hj : s.sel = j
    · rw [← hj, ← State.block_eq, h]
      simp
    · simp [hj]
  simp only [State.updBlock, hi]

/-- Every command's meaning is that of `Inst.perform` and `Inst.gieAfter`. -/
theorem exec_eq (i : Instr) {s : State} {p : Inst} (h : s.block = some p) :
    exec i s = s.replaceBlock (p.gieAfter s.gie i) (p.perform s.timer i) := by
  have hnext : ∀ (g : Bool) (f : Inst → Inst),
      Host.Outcome.next ((s.setGie g).updBlock f) = s.replaceBlock g (some (f p)) := fun g f =>
    congrArg _ (State.updBlock_const (s := s.setGie g) h f)
  have hstop : Host.Outcome.fault Fault.ringSlotOutOfRange = s.replaceBlock s.gie none := rfl
  cases i with
  | txByte b =>
    rw [exec, execTxByte, State.withBlock_of_block h, Inst.perform, Inst.gieAfter]
    cases p.cfg.txPresent
    · exact hnext s.gie (·.respond .noTxPin 0)
    · exact hnext false (·.startFrame s.timer b)
  | rbPop =>
    rw [exec, execRbPop, State.withBlock_of_block h, Inst.perform, Inst.gieAfter]
    cases p.ringEmpty
    · cases p.memRead p.rb.r with
      | none => exact hstop
      | some b =>
        exact hnext s.gie fun q => { q.respond .ok (byteValue b) with rb.r := nextIndex p.cfg.cap p.rb.r }
    · exact hnext s.gie (·.respond .empty (byteValue sentinel))
  | rbPeek =>
    rw [exec, execRbPeek, State.withBlock_of_block h, Inst.perform, Inst.gieAfter]
    cases p.ringEmpty
    · cases p.memRead p.rb.r with
      | none => exact hstop
      | some b => exact hnext s.gie (·.respond .ok (byteValue b))
    · exact hnext s.gie (·.respond .empty (byteValue sentinel))
  | rbAvail => exact (State.withBlock_of_block h _).trans (hnext s.gie (·.respond .ok p.avail))
  | rbClear => exact (State.withBlock_of_block h _).trans (hnext s.gie fun q => { q.respond .ok 0 with rb.r := p.rb.w })
  | gieClr => exact (State.withBlock_of_block h _).trans (hnext false (·.respond .ok 0))
  | gieSet => exact (State.withBlock_of_block h _).trans (hnext true (·.respond .ok 0))
  | tmrRead => exact (State.withBlock_of_block h _).trans (hnext s.gie (·.respond .ok s.timer))

/-- `execute` (R84) is `Inst.performWord` on the executing block. -/
theorem execute_eq (w : Word) {s : State} {p : Inst} (h : s.block = some p) :
    execute w s = s.replaceBlock (p.gieAfterWord s.gie w) (p.performWord s.timer w) := by
  unfold execute Inst.gieAfterWord Inst.performWord
  cases decode w with
  | ok i => exact exec_eq i h
  | error _ =>
    exact (State.withBlock_of_block h _).trans
      (congrArg _ (State.updBlock_const (s := s.setGie s.gie) h (·.respond .illegal 0)))

/-- What a command word can do to its block: begin a frame, or answer and at most move the read index, which RB_POP advances on
a ring that is not empty and RB_CLEAR moves to the write index. -/
theorem Inst.performWord_cases {timer : Nat} {w : Word} {p q : Inst} (h : p.performWord timer w = some q) :
    (∃ b, decode w = .ok (.txByte b) ∧ p.cfg.txPresent = true ∧ q = p.startFrame timer b) ∨
    ∃ st v r, q = { p.respond st v with rb.r := r } ∧
      (r = p.rb.r ∨ r = p.rb.w ∨ (p.rb.w ≠ p.rb.r ∧ r = nextIndex p.cfg.cap p.rb.r)) := by
  have hanswer : ∀ st v, some (p.respond st v) = some q → ∃ st v r, q = { p.respond st v with rb.r := r } ∧
      (r = p.rb.r ∨ r = p.rb.w ∨ (p.rb.w ≠ p.rb.r ∧ r = nextIndex p.cfg.cap p.rb.r)) := by
    intro st v h
    cases h
    exact ⟨st, v, p.rb.r, rfl, .inl rfl⟩
  unfold Inst.performWord at h
  cases hd : decode w with
  | error _ =>
    rw [hd] at h
    exact .inr (hanswer _ _ h)
  | ok i =>
    rw [hd] at h
    cases i with
    | txByte b =>
      simp only [Inst.perform] at h
      split at h
      · cases h
        exact .inl ⟨b, rfl, ‹_›, rfl⟩
      · exact .inr (hanswer _ _ h)
    | rbPop =>
      simp only [Inst.perform, Inst.ringEmpty, beq_iff_eq] at h
      split at h
      · exact .inr (hanswer _ _ h)
      · next hne =>
        obtain ⟨b, -, rfl⟩ := Option.map_eq_some_iff.1 h
        exact .inr ⟨.ok, byteValue b, _, rfl, .inr (.inr ⟨hne, rfl⟩)⟩
    | rbPeek =>
      simp only [Inst.perform] at h
      split at h
      · exact .inr (hanswer _ _ h)
      · obtain ⟨b, -, hq⟩ := Option.map_eq_some_iff.1 h
        exact .inr (hanswer _ _ (congrArg some hq))
    | rbClear =>
      cases h
      exact .inr ⟨.ok, 0, p.rb.w, rfl, .inr (.inl rfl)⟩
    | rbAvail => exact .inr (hanswer _ _ h)
    | gieClr => exact .inr (hanswer _ _ h)
    | gieSet => exact .inr (hanswer _ _ h)
    | tmrRead => exact .inr (hanswer _ _ h)

/-- What no command word changes of its block (R41). -/
theorem Inst.performWord_frame {timer : Nat} {w : Word} {p q : Inst} (h : p.performWord timer w = some q) :
    q.cfg = p.cfg ∧ q.rx = p.rx ∧ q.env = p.env ∧ q.port.cmd = p.port.cmd ∧ q.rb.w = p.rb.w ∧ q.rb.mem = p.rb.mem := by
  rcases Inst.performWord_cases h with ⟨b, -, -, rfl⟩ | ⟨st, v, r, rfl, -⟩ <;> exact ⟨rfl, rfl, rfl, rfl, rfl, rfl⟩

/-- A word that changes `gie` (R32). -/
theorem Inst.gieAfterWord_ne {gie : Bool} {w : Word} {p : Inst} (h : p.gieAfterWord gie w ≠ gie) :
    (p.gieAfterWord gie w = true ∧ w = encode .gieSet) ∨
    (p.gieAfterWord gie w = false ∧ (w = encode .gieClr ∨ ∃ b, w = encode (.txByte b))) := by
  unfold Inst.gieAfterWord at h ⊢
  cases hd : decode w with
  | error _ => simp [hd] at h
  | ok i =>
    simp only [hd] at h
    have hw := encode_of_decode hd
    cases i with
    | txByte b =>
      by_cases hp : p.cfg.txPresent = true
      · exact .inr ⟨if_pos hp, .inr ⟨b, hw.symm⟩⟩
      · exact absurd (if_neg hp) h
    | gieClr => exact .inr ⟨rfl, .inl hw.symm⟩
    | gieSet => exact .inl ⟨rfl, hw.symm⟩
    | rbPop => exact absurd rfl h
    | rbPeek => exact absurd rfl h
    | rbAvail => exact absurd rfl h
    | rbClear => exact absurd rfl h
    | tmrRead => exact absurd rfl h

theorem Inst.gieAfterWord_txByte {gie : Bool} {w : Word} {p : Inst} {b : Byte} (hd : decode w = .ok (.txByte b))
    (hp : p.cfg.txPresent = true) : p.gieAfterWord gie w = false := by
  simp [Inst.gieAfterWord, hd, Inst.gieAfter, hp]

/-! ### What a step does -/

/-- The command word that the domain's tick accepts, with its block (R41, R44). -/
def State.TakesWord (s : State) (k : Nat) (w : Word) : Prop :=
  s.hostPhase.commandSelect s.hostPhase.captureSelect = some k ∧ s.hostPhase.command k = some w

/-- In a tick that accepts a command no capture starts and every block is idle (R44). -/
theorem State.TakesWord.idle {s : State} {k : Nat} {w : Word} (h : s.TakesWord k w) :
    s.hostPhase.captureSelect = none ∧
      ∀ (j : Nat) (p : Inst), s.hostPhase.insts[j]? = some p → p.tx.busy = false ∧ p.rx.busy = false := by
  obtain ⟨htx, hrx, hgo, -⟩ := State.commandSelect_some h.1
  exact ⟨hgo, fun _ _ => State.idle_of_active htx hrx⟩

/-- The slots of a block whose word is accepted (R44). -/
theorem State.TakesWord.slots {s : State} {k : Nat} {w : Word} (h : s.TakesWord k w) :
    ∃ p, s.hostPhase.insts[k]? = some p ∧ p.port.cmd = some w ∧ p.port.resp = none := by
  obtain ⟨p, w', hp, hcmd, hresp, hw'⟩ := State.command_of_select h.1
  cases h.2.symm.trans hw'
  exact ⟨p, hp, hcmd, hresp⟩

/-- A tick that accepts a word executes it between the engines' steps and the end of the tick. -/
theorem step_of_takesWord {s : State} {k : Nat} {w : Word} (hv : s.configValid = true)
    (hpush : s.hostPhase.pushOutOfRange = false) (h : s.TakesWord k w) :
    step s = andThen (execute w ((s.hostPhase.engines none).accept k)) State.advance := by
  have hgo := h.idle.1
  obtain ⟨hsel, hw⟩ := h
  rw [hgo] at hsel
  simp [step, State.blockPhase, hv, hpush, hgo, hsel, hw]

/-- Block `k` after the engines' steps of the block phase (R41). -/
def State.enginesOf (s : State) (k : Nat) (p : Inst) : Inst :=
  p.engines s.cfg.timerW s.timer (p.pinLevel s.dom s.tick k) (s.captureSelect == some k)

/-- Block `k` about to execute its word: after the engines' steps, with its command slot emptied (R41). -/
def State.executing (s : State) (k : Nat) (p : Inst) : Inst := { s.enginesOf k p with port.cmd := none }

@[simp] theorem State.executing_cfg (s : State) (k : Nat) (p : Inst) : (s.executing k p).cfg = p.cfg := Inst.engines_cfg ..

/-- A block without a frame comes to its command with its transmit engine and response slot as they were. -/
theorem State.executing_of_idle (s : State) (k : Nat) {p : Inst} (h : p.tx.busy = false) :
    (s.executing k p).tx = p.tx ∧ (s.executing k p).port = { cmd := none, resp := p.port.resp } := by
  simp [State.executing, State.enginesOf, p.txStep_of_idle _ _ h]

/-- The domain after a tick that accepts no command. -/
def State.afterEngines (s : State) : State := (s.hostPhase.engines s.hostPhase.captureSelect).advance

/-- The domain after a tick in which the word `w` made `q` of block `k`, which was `p` after the host phase. -/
def State.afterWord (s : State) (k : Nat) (w : Word) (p q : Inst) : State :=
  ((((s.hostPhase.engines none).accept k).setGie
    ((s.hostPhase.executing k p).gieAfterWord s.gie w)).updBlock fun _ => q).advance

theorem State.getElem?_afterEngines (s : State) (j : Nat) :
    s.afterEngines.insts[j]? = s.hostPhase.insts[j]?.map (s.hostPhase.enginesOf j) := s.hostPhase.getElem?_engines _ j

theorem State.TakesWord.getElem?_afterWord {s : State} {k : Nat} {w : Word} (h : s.TakesWord k w) (p q : Inst) (j : Nat) :
    (s.afterWord k w p q).insts[j]? =
      s.hostPhase.insts[j]?.map fun r => if k = j then q else s.hostPhase.enginesOf j r := by
  rw [State.afterWord, State.advance_insts, State.getElem?_updBlock, State.setGie_sel, State.accept_sel, State.setGie_insts,
    State.getElem?_accept, State.getElem?_engines, ← h.idle.1]
  by_cases hj : k = j
  · simp [hj, Function.comp_def]
  · simp [hj, State.enginesOf]

/-- A tick that accepts no command only steps the engines. -/
theorem step_of_select_none {s : State} (hv : s.configValid = true) (hpush : s.hostPhase.pushOutOfRange = false)
    (h : s.hostPhase.commandSelect s.hostPhase.captureSelect = none) : step s = .next s.afterEngines := by
  simp [step, State.blockPhase, State.afterEngines, hv, hpush, h]

theorem any_eq_false_iff_getElem? (l : List Inst) (c : Inst → Bool) :
    l.any c = false ↔ ∀ (k : Nat) (p : Inst), l[k]? = some p → c p = false := by
  rw [List.any_eq_false]
  constructor
  · exact fun h k p hp => by simpa using h p (List.mem_of_getElem? hp)
  · intro h p hp
    obtain ⟨k, hk⟩ := List.mem_iff_getElem?.1 hp
    simp [h k p hk]

/-- Where every block is idle no frame ends, so the engines leave `gie` alone (R101). -/
theorem State.engines_gie_of_idle {s : State} (h : ∀ (j : Nat) (p : Inst), s.insts[j]? = some p → p.tx.busy = false)
    (go : Option Nat) : (s.engines go).gie = s.gie := by
  have hany : s.insts.any (·.txCompletes s.cfg.timerW s.timer) = false :=
    (any_eq_false_iff_getElem? _ _).2 fun j p hj => p.txCompletes_of_idle _ _ (h j p hj)
  rw [State.engines_gie, hany, Bool.or_false]

/-- The word of a tick that accepts one is executed by block `k` after its engines' steps. -/
theorem State.TakesWord.execute_eq {s : State} {k : Nat} {w : Word} {p : Inst} (h : s.TakesWord k w)
    (hp : s.hostPhase.insts[k]? = some p) :
    andThen (execute w ((s.hostPhase.engines none).accept k)) State.advance =
      match (s.hostPhase.executing k p).performWord s.timer w with
      | some q => .next (s.afterWord k w p q)
      | none => .fault .ringSlotOutOfRange := by
  have hblock : ((s.hostPhase.engines none).accept k).block = some (s.hostPhase.executing k p) := by
    rw [State.block_eq, State.accept_sel, State.getElem?_accept, if_pos rfl, State.getElem?_engines, hp, ← h.idle.1]
    rfl
  have hgie := State.engines_gie_of_idle (fun j p hp => (h.idle.2 j p hp).1) none
  rw [Machine.execute_eq w hblock, State.accept_gie, hgie, State.accept_timer, State.engines_timer, State.hostPhase_timer]
  cases (s.hostPhase.executing k p).performWord s.timer w <;> rfl

/-- What a step does (R40, R41): with no command accepted, the engines' steps of every block; else block `k` also executes
the word from its slot. -/
theorem step_next {s t : State} (h : step s = .next t) :
    s.configValid = true ∧ s.hostPhase.pushOutOfRange = false ∧
    ((s.hostPhase.commandSelect s.hostPhase.captureSelect = none ∧ t = s.afterEngines) ∨
     ∃ k w p q, s.TakesWord k w ∧ s.hostPhase.insts[k]? = some p ∧
        (s.hostPhase.executing k p).performWord s.timer w = some q ∧ t = s.afterWord k w p q) := by
  obtain ⟨hv, hpush, ⟨k, w, u, hgo, hsel, hw, -, -⟩ | hnone⟩ := step_cases h
  · have hk : s.TakesWord k w := ⟨by rw [hgo]; exact hsel, hw⟩
    obtain ⟨p, hp, -, -⟩ := hk.slots
    rw [step_of_takesWord hv hpush hk, hk.execute_eq hp] at h
    split at h
    · next q hq => exact ⟨hv, hpush, .inr ⟨k, w, p, q, hk, hp, hq, by cases h; rfl⟩⟩
    · cases h
  · exact ⟨hv, hpush, .inl hnone⟩

/-- What a step does to the parts of a domain outside its blocks (R31, R32): `gie` becomes 1 at the end of a frame, and what an
accepted word makes of it. -/
theorem step_domain {s t : State} (h : step s = .next t) :
    t.cfg = s.cfg ∧ t.timer = wrapTo s.cfg.timerW (s.timer + 1) ∧ t.tick = s.tick + 1 ∧ t.insts.length = s.insts.length ∧
    ((s.hostPhase.commandSelect s.hostPhase.captureSelect = none ∧
        t.gie = (s.gie || s.hostPhase.insts.any (·.txCompletes s.cfg.timerW s.timer))) ∨
     ∃ k w p, s.TakesWord k w ∧ s.hostPhase.insts[k]? = some p ∧
        t.gie = (s.hostPhase.executing k p).gieAfterWord s.gie w) := by
  obtain ⟨-, -, ⟨hnone, rfl⟩ | ⟨k, w, p, q, hk, hp, -, rfl⟩⟩ := step_next h
  · exact ⟨rfl, rfl, rfl, by simp [State.afterEngines], .inl ⟨hnone, rfl⟩⟩
  · exact ⟨rfl, rfl, rfl, by simp [State.afterWord], .inr ⟨k, w, p, hk, hp, rfl⟩⟩

/-- A block after a step is one after the host phase. -/
theorem step_block_exists {s t : State} {k : Nat} {q : Inst} (h : step s = .next t) (hq : t.insts[k]? = some q) :
    ∃ p, s.hostPhase.insts[k]? = some p := by
  obtain ⟨-, -, -, hlen, -⟩ := step_domain h
  have hk := (List.getElem?_eq_some_iff.1 hq).1
  exact ⟨_, List.getElem?_eq_getElem (by rwa [State.length_hostPhase, ← hlen])⟩

/-- What a step does to one block, from the state the host phase left: its engines' steps, and the word it takes, if any. -/
theorem step_block {s t : State} {k : Nat} {p q : Inst} (h : step s = .next t) (hp : s.hostPhase.insts[k]? = some p)
    (hq : t.insts[k]? = some q) :
    ((∀ w, ¬s.TakesWord k w) ∧ q = s.hostPhase.enginesOf k p) ∨
    ∃ w, s.TakesWord k w ∧ (s.hostPhase.executing k p).performWord s.timer w = some q := by
  obtain ⟨-, -, ⟨hnone, rfl⟩ | ⟨j, w, p', q', hj, hp', hq', rfl⟩⟩ := step_next h
  · rw [State.getElem?_afterEngines, hp, Option.map_some, Option.some_inj] at hq
    exact .inl ⟨fun w hw => by simp [hw.1] at hnone, hq.symm⟩
  · rw [hj.getElem?_afterWord, hp, Option.map_some, Option.some_inj] at hq
    by_cases hjk : j = k
    · subst hjk
      cases hp.symm.trans hp'
      rw [if_pos rfl] at hq
      exact .inr ⟨w, hj, hq ▸ hq'⟩
    · rw [if_neg hjk] at hq
      exact .inl ⟨fun w' hw' => hjk (Option.some.inj (hj.1.symm.trans hw'.1)), hq.symm⟩

/-- What a step does to a block's capture engine and configuration is what the engines' steps do: no word touches them. -/
theorem step_block_rx {s t : State} {k : Nat} {p q : Inst} (h : step s = .next t) (hp : s.hostPhase.insts[k]? = some p)
    (hq : t.insts[k]? = some q) : q.rx = (s.hostPhase.enginesOf k p).rx ∧ q.cfg = p.cfg := by
  rcases step_block h hp hq with ⟨-, rfl⟩ | ⟨w, -, hw⟩
  · exact ⟨rfl, Inst.engines_cfg ..⟩
  · obtain ⟨hcfg, hrx, -⟩ := Inst.performWord_frame hw
    exact ⟨hrx, hcfg.trans (State.executing_cfg ..)⟩

end Sys2Proof.Machine
end

section
/-! PROOFS, family 10_state.md: the invariant of reachable states (R38) holds after reset and is kept by every step. -/
namespace Sys2Proof.Machine

/-! ### One tick of the engines keeps each unit's part of the invariant -/

/-- An engine whose deadline is not met yet has not passed it one tick later. -/
theorem elapsed_tick_of_not_met {W timer start deadline : Nat} (ht : timer < 2 ^ W) (hd : deadline < 2 ^ W)
    (h : deadlineMet W timer start deadline = false) :
    elapsed W (wrapTo W (timer + 1)) start = elapsed W timer start + 1 ∧ elapsed W timer start + 1 ≤ deadline := by
  have hlt : elapsed W timer start < deadline := by simpa [deadlineMet] using h
  exact ⟨elapsed_succ W timer start ht (by omega), hlt⟩

/-- An engine whose elapsed time never passed its deadline meets it exactly. -/
theorem elapsed_tick_of_met {W timer start deadline : Nat} (ht : timer < 2 ^ W) (hd : deadline + 1 < 2 ^ W)
    (hle : elapsed W timer start ≤ deadline) (h : deadlineMet W timer start deadline = true) :
    elapsed W (wrapTo W (timer + 1)) start = deadline + 1 := by
  have hge : deadline ≤ elapsed W timer start := by simpa [deadlineMet] using h
  rw [elapsed_succ W timer start ht (by omega)]
  omega

/-- A wait that begins in a tick has lasted one tick in the next. -/
theorem elapsed_tick_of_start {W timer : Nat} (ht : timer < 2 ^ W) (h1 : 1 < 2 ^ W) :
    elapsed W (wrapTo W (timer + 1)) timer = 1 := by
  rw [elapsed_succ W timer timer ht (by rw [elapsed_self]; exact h1), elapsed_self]

/-- `txOk` reads a block's transmit engine, port and configuration only. -/
theorem Inst.txOk_congr {W timer : Nat} {p q : Inst} (hcfg : q.cfg = p.cfg) (htx : q.tx = p.tx)
    (hresp : q.port.resp = p.port.resp) : q.txOk W timer ↔ p.txOk W timer := by
  simp only [Inst.txOk, hcfg, htx, hresp]

/-- An idle transmit engine meets its part of the invariant at every timer value and whatever the port holds. -/
theorem Inst.txOk_of_idle {W timer timer' : Nat} {p q : Inst} (h : p.txOk W timer) (hidle : p.tx.busy = false)
    (htx : q.tx = p.tx) : q.txOk W timer' := by
  obtain ⟨hcell, hstart, hdl, -, hline⟩ := h
  rw [← htx] at hcell hstart hdl hidle hline
  exact ⟨hcell, hstart, hdl, by simp [hidle], hline⟩

/-- The sequencer's step keeps R38 (b), (c), (f), (g): a cell's wait goes on, the next cell begins where this one ends, or the
frame ends on the stop bit's level. -/
theorem Inst.txOk_txStep {W timer : Nat} {p : Inst} (hv : p.cfg.valid W = true) (ht : timer < 2 ^ W)
    (h : p.txOk W timer) : (p.txStep W timer).txOk W (wrapTo W (timer + 1)) := by
  obtain ⟨hbp, hframe, -, -, -⟩ := (InstConfig.valid_iff W p.cfg).1 hv
  by_cases hbusy : p.tx.busy = true
  case neg =>
    rw [p.txStep_of_idle W timer (by simpa using hbusy)]
    exact Inst.txOk_of_idle h (by simpa using hbusy) rfl
  obtain ⟨hcell, hstart, hdl, hb, hidle⟩ := h
  obtain ⟨hpin, hresp, hline, hdeadline, hlow, hhigh⟩ := hb hbusy
  rcases p.txStep_cases W timer with ⟨hdue, heq⟩ | ⟨hdue, hlt, heq⟩ | ⟨-, hge, heq⟩ <;> rw [heq]
  · obtain ⟨hel, hnext⟩ := elapsed_tick_of_not_met ht hdl (by simpa [Inst.txDue, hbusy] using hdue)
    refine ⟨hcell, hstart, hdl, fun _ => ⟨hpin, hresp, hline, hdeadline, ?_, ?_⟩, hidle⟩ <;> rw [hel] <;> omega
  · have hnext : (p.tx.cell + 1 + 1) * p.cfg.bp = p.tx.deadline + p.cfg.bp := by rw [Nat.succ_mul, hdeadline]
    have hend : p.tx.deadline + p.cfg.bp ≤ 10 * p.cfg.bp := hnext ▸ Nat.mul_le_mul_right _ (by omega)
    have hwrap : wrapTo W (p.tx.deadline + p.cfg.bp) = p.tx.deadline + p.cfg.bp := wrapTo_of_lt (by omega)
    have hel := elapsed_tick_of_met ht (by omega) hhigh (by simpa [Inst.txDue, hbusy] using hdue)
    refine ⟨hlt, hstart, wrapTo_lt _ _, fun _ => ⟨hpin, hresp, rfl, hwrap.trans hnext.symm, ?_, ?_⟩, fun hf => ?_⟩
    · rw [Inst.nextCell_tx, hel, hdeadline]
      exact Nat.lt_succ_self _
    · rw [Inst.nextCell_tx, hel]
      exact (Nat.add_le_add_left (show 1 ≤ p.cfg.bp by omega) _).trans hwrap.ge
    · simp [hbusy] at hf
  · have hlast : p.tx.cell = 9 := by omega
    exact ⟨hcell, hstart, hdl, nofun, fun _ => by rw [Inst.endFrame_tx, hline, hlast, cell_stop]⟩

theorem Inst.txOk_engines {W timer : Nat} {p : Inst} (hv : p.cfg.valid W = true) (ht : timer < 2 ^ W)
    (h : p.txOk W timer) (pin start : Bool) : (p.engines W timer pin start).txOk W (wrapTo W (timer + 1)) :=
  (Inst.txOk_congr (by simp) (by simp) (by simp)).2 (Inst.txOk_txStep hv ht h)

/-- A capture that may start in this tick: the block is ready and nothing of it is busy (R46). -/
abbrev Inst.startable (p : Inst) : Prop := p.cfg.rxPresent = true ∧ p.rx.busy = false ∧ p.rx.edgePending = true

/-- RXE's step keeps R38 (b), (c), (h): a wait goes on, a sample begins the next wait, the finish leaves the engine idle, and a
capture that starts waits for `OFF` ticks. -/
theorem Inst.rxOk_engines {W timer : Nat} {p : Inst} (hv : p.cfg.valid W = true) (ht : timer < 2 ^ W)
    (h : p.rxOk W timer) (pin start : Bool) (hstartable : start = true → p.startable) :
    (p.engines W timer pin start).rxOk W (wrapTo W (timer + 1)) := by
  obtain ⟨hbp, -, hoff, hcap, -⟩ := (InstConfig.valid_iff W p.cfg).1 hv
  obtain ⟨hcount, hst, hdl, hb, hlatch⟩ := h
  have hlatched : (p.edgeSeen pin || p.rx.edgePending && !p.stopDue W timer) = true → p.cfg.rxPresent = true := by
    simp only [Inst.edgeSeen, Bool.or_eq_true, Bool.and_eq_true]
    rintro (⟨⟨hpin, -⟩, -⟩ | ⟨hp, -⟩)
    · exact hpin
    · exact hlatch hp
  unfold Inst.rxOk
  rw [Inst.engines_rx, Inst.engines_cfg]
  cases start with
  | true =>
    obtain ⟨hpin, hidle, hpend⟩ := hstartable rfl
    have hel := elapsed_tick_of_start ht (show 1 < 2 ^ W by omega)
    simp [hel, hpin, hpend, p.stopDue_of_idle W timer hidle, ht]
    omega
  | false =>
    simp only [Bool.false_eq_true, if_false]
    by_cases hbusy : p.rx.busy = true
    case neg =>
      rw [p.captureStep_of_idle W timer pin (by simpa using hbusy)]
      exact ⟨hcount, hst, hdl, fun hf => absurd hf hbusy, hlatched⟩
    obtain ⟨hpin, hpend, hdeadline, hlow, hhigh⟩ := hb hbusy
    rcases p.captureStep_cases W timer pin with ⟨hs, hf, heq⟩ | ⟨hs, hf, heq⟩ | ⟨-, -, heq⟩ <;> rw [heq]
    · have hwait : deadlineMet W timer p.rx.start p.rx.deadline = false := by
        rcases Nat.lt_or_eq_of_le hcount with hc | hc
        · simpa [Inst.sampleDue, Inst.rxDue, hbusy, hc] using hs
        · simpa [Inst.stopDue, Inst.rxDue, hbusy, hc] using hf
      obtain ⟨hel, hnext⟩ := elapsed_tick_of_not_met ht hdl hwait
      refine ⟨hcount, hst, hdl, fun _ => ⟨hpin, by simp [hpend, hf], hdeadline, ?_, ?_⟩, hlatched⟩ <;>
        simp only [hel] <;> omega
    · obtain ⟨hdue, hlt⟩ : deadlineMet W timer p.rx.start p.rx.deadline = true ∧ p.rx.count < 8 := by
        simpa [Inst.sampleDue, Inst.rxDue, hbusy] using hs
      have hnext : p.cfg.off + (p.rx.count + 1) * p.cfg.bp = p.rx.deadline + p.cfg.bp := by
        rw [Nat.succ_mul, hdeadline, Nat.add_assoc]
      have hend : (p.rx.count + 1) * p.cfg.bp ≤ 8 * p.cfg.bp := Nat.mul_le_mul_right _ hlt
      have hwrap : wrapTo W (p.rx.deadline + p.cfg.bp) = p.rx.deadline + p.cfg.bp := wrapTo_of_lt (by omega)
      have hel := elapsed_tick_of_met ht (by omega) hhigh hdue
      refine ⟨hlt, hst, wrapTo_lt _ _, fun _ => ⟨hpin, by simp [hpend, hf], hwrap.trans hnext.symm, ?_, ?_⟩, hlatched⟩
      · rw [Inst.sample_rx, hel]
        exact Nat.succ_pos _
      · rw [Inst.sample_rx, hel]
        exact (Nat.add_le_add_left (show 1 ≤ p.cfg.bp by omega) _).trans hwrap.ge
    · rw [Inst.captureStop_rx]
      exact ⟨hcount, hst, hdl, nofun, hlatched⟩

/-- The ring's part of the invariant: a push at an existing slot, which only a block with a receive pin makes, keeps it
(R38 (a), R131). -/
theorem Inst.ringOk_engines {W timer : Nat} {p : Inst} (h : p.ringOk) (hrx : p.rx.busy = true → p.cfg.rxPresent = true)
    (pin start : Bool) : (p.engines W timer pin start).ringOk := by
  obtain ⟨hw, hr, hwf, hin, hnone⟩ := h
  unfold Inst.ringOk
  rw [Inst.engines_rb, Inst.engines_cfg]
  rcases p.captureStep_cases W timer pin with ⟨-, -, heq⟩ | ⟨-, -, heq⟩ | ⟨-, hstop, heq⟩ <;> rw [heq]
  · exact ⟨hw, hr, hwf, hin, hnone⟩
  · exact ⟨hw, hr, hwf, hin, hnone⟩
  · have hbusy : p.rx.busy = true := by
      by_contra hidle
      simp [p.stopDue_of_idle W timer (by simpa using hidle)] at hstop
    obtain ⟨hwf', hin'⟩ := p.push_mem_ok p.rx.shift ⟨hwf, hin⟩
    rw [Inst.captureStop_rb, Inst.push_r, Inst.push_w_of_lt _ _ hw]
    exact ⟨nextIndex_lt (by omega) _, hr, hwf', hin', fun hp => by simp [hrx hbusy] at hp⟩

/-- The sequencer stays busy until its frame completes (R101). -/
theorem Inst.busy_txStep {W timer : Nat} {p : Inst} :
    (p.txStep W timer).tx.busy = true ↔ p.tx.busy = true ∧ p.txCompletes W timer = false := by
  rcases p.txStep_cases W timer with ⟨hdue, heq⟩ | ⟨-, hlt, heq⟩ | ⟨hc, -, heq⟩ <;> rw [heq]
  · simp [Inst.txCompletes, hdue]
  · simp [Inst.txCompletes, hlt]
  · simp [hc]

/-- A capture engine is busy after a tick's engine steps only if it was, or if its capture starts. -/
theorem Inst.rx_busy_engines {W timer : Nat} {p : Inst} {pin start : Bool}
    (h : (p.engines W timer pin start).rx.busy = true) : p.rx.busy = true ∨ start = true := by
  by_contra hno
  obtain ⟨hidle, rfl⟩ : p.rx.busy = false ∧ start = false := by simpa using hno
  rw [Inst.engines_rx, p.captureStep_of_idle W timer pin hidle] at h
  simp [hidle] at h

/-! ### The invariant, block by block -/

/-- The invariant's clauses about one block (R38 (a) to (c), (e) to (h)). -/
abbrev Inst.Ok (W timer : Nat) (gie : Bool) (p : Inst) : Prop :=
  p.txOk W timer ∧ p.rxOk W timer ∧ p.ringOk ∧ (p.tx.busy = true → gie = false) ∧
    ¬(p.tx.busy = true ∧ p.rx.busy = true)

/-- At most one block is busy (R38 (d)), said of the blocks' numbers. -/
theorem pairwise_apart_iff (l : List Inst) :
    l.Pairwise Inst.apart ↔
      ∀ (i j : Nat) (p q : Inst), l[i]? = some p → l[j]? = some q → p.busy = true → q.busy = true → i = j := by
  rw [List.pairwise_iff_getElem]
  constructor
  · intro h i j p q hp hq hbp hbq
    obtain ⟨hi, rfl⟩ := List.getElem?_eq_some_iff.1 hp
    obtain ⟨hj, rfl⟩ := List.getElem?_eq_some_iff.1 hq
    rcases Nat.lt_trichotomy i j with hij | hij | hij
    · exact absurd ⟨hbp, hbq⟩ (h i j hi hj hij)
    · exact hij
    · exact absurd ⟨hbq, hbp⟩ (h j i hj hi hij)
  · intro h i j hi hj hij hb
    exact absurd (h i j _ _ (List.getElem?_eq_getElem hi) (List.getElem?_eq_getElem hj) hb.1 hb.2) (Nat.ne_of_lt hij)

theorem State.inv_iff (s : State) :
    s.Inv ↔ s.configValid = true ∧ s.timer < 2 ^ s.cfg.timerW ∧
      (∀ (k : Nat) (p : Inst), s.insts[k]? = some p → p.Ok s.cfg.timerW s.timer s.gie) ∧
      ∀ (i j : Nat) (p q : Inst), s.insts[i]? = some p → s.insts[j]? = some q → p.busy = true → q.busy = true → i = j := by
  rw [State.Inv, pairwise_apart_iff]
  have hmem : (∀ p ∈ s.insts, p.Ok s.cfg.timerW s.timer s.gie) ↔
      ∀ (k : Nat) (p : Inst), s.insts[k]? = some p → p.Ok s.cfg.timerW s.timer s.gie :=
    ⟨fun h _ p hp => h p (List.mem_of_getElem? hp), fun h p hp =>
      let ⟨k, hk⟩ := List.mem_iff_getElem?.1 hp
      h k p hk⟩
  rw [← hmem]

/-- A valid domain's blocks have valid parameters (R8). -/
theorem State.cfg_valid_of_configValid {s : State} (h : s.configValid = true) {k : Nat} {p : Inst}
    (hp : s.insts[k]? = some p) : p.cfg.valid s.cfg.timerW = true :=
  ((State.configValid_iff s).1 h).2.2 p (List.mem_of_getElem? hp)

/-- The configuration stays valid where no block's parameters change (R232). -/
theorem State.configValid_of_blocks {s t : State} (hc : t.cfg = s.cfg) (hlen : t.insts.length = s.insts.length)
    (h : ∀ (k : Nat) (p q : Inst), s.insts[k]? = some p → t.insts[k]? = some q → q.cfg = p.cfg) :
    t.configValid = s.configValid :=
  State.configValid_congr hc <| List.ext_getElem (by simp [hlen]) fun k h₁ h₂ => by
    rw [List.length_map] at h₁ h₂
    simpa using h k _ _ (List.getElem?_eq_getElem h₂) (List.getElem?_eq_getElem h₁)

/-! ### The host phase -/

theorem State.hostPhase_block {s : State} {k : Nat} {q : Inst} (h : s.hostPhase.insts[k]? = some q) :
    ∃ p, s.insts[k]? = some p ∧ q = p.hostPhase (p.hostMove s.dom s.tick k) := by
  rw [State.getElem?_hostPhase, Option.map_eq_some_iff] at h
  obtain ⟨p, hp, rfl⟩ := h
  exact ⟨p, hp, rfl⟩

/-- The host can only empty the response slot, so the invariant survives its phase (R40). -/
theorem Inst.ok_hostPhase {W timer : Nat} {gie : Bool} {p : Inst} (h : p.Ok W timer gie) (m : HostMove) :
    (p.hostPhase m).Ok W timer gie := by
  obtain ⟨⟨hcell, hstart, hdl, hb, hidle⟩, hrest⟩ := h
  refine ⟨⟨hcell, hstart, hdl, fun hbusy => ?_, hidle⟩, hrest⟩
  obtain ⟨hpin, hresp, hcells⟩ := hb hbusy
  exact ⟨hpin, by rw [Inst.hostPhase_port, hresp]; rfl, hcells⟩

theorem State.inv_hostPhase {s : State} (h : s.Inv) : s.hostPhase.Inv := by
  rw [State.inv_iff] at h ⊢
  obtain ⟨hv, ht, hok, hone⟩ := h
  refine ⟨?_, ht, fun k q hq => ?_, fun i j p q hp hq hbp hbq => ?_⟩
  · refine (State.configValid_of_blocks (s := s) (t := s.hostPhase) rfl (by simp) fun k p q hp hq => ?_).trans hv
    obtain ⟨p', hp', rfl⟩ := State.hostPhase_block hq
    rw [Inst.hostPhase_cfg, Option.some_inj.1 (hp.symm.trans hp')]
  · obtain ⟨p, hp, rfl⟩ := State.hostPhase_block hq
    exact Inst.ok_hostPhase (hok k p hp) _
  · obtain ⟨p', hp', rfl⟩ := State.hostPhase_block hp
    obtain ⟨q', hq', rfl⟩ := State.hostPhase_block hq
    exact hone i j p' q' hp' hq' hbp hbq

/-! ### One tick -/

/-- Block `k` leaves rest in this tick: its capture starts or it takes a word (R41). -/
def State.Wakes (s : State) (k : Nat) : Prop := s.StartsCapture k ∨ ∃ w, s.TakesWord k w

/-- A capture starts only in a block that is ready, while no engine of the domain is busy (R44, R46, R109). -/
theorem State.StartsCapture.startable {s : State} (h : s.hostPhase.Inv) {k : Nat} (hk : s.StartsCapture k) :
    (∃ p, s.hostPhase.insts[k]? = some p ∧ p.startable) ∧
      ∀ (j : Nat) (p : Inst), s.hostPhase.insts[j]? = some p → p.tx.busy = false ∧ p.rx.busy = false := by
  obtain ⟨hrx, p, hp, hready⟩ := State.captureSelect_some hk
  obtain ⟨⟨⟨hpin, hidle⟩, hpend⟩, hgie⟩ : ((p.cfg.rxPresent = true ∧ p.rx.busy = false) ∧ p.rx.edgePending = true) ∧
      s.hostPhase.gie = true := by simpa [Inst.ready] using hready
  refine ⟨⟨p, hp, hpin, hidle, hpend⟩, fun j q hq => ⟨?_, ?_⟩⟩
  · obtain ⟨-, -, hok, -⟩ := (State.inv_iff _).1 h
    obtain ⟨-, -, -, hoff, -⟩ := hok j q hq
    by_contra hbusy
    cases hgie.symm.trans (hoff (by simpa using hbusy))
  · simpa using List.any_eq_false.1 hrx q (List.mem_of_getElem? hq)

/-- Where a block wakes, no block is busy, and no other block wakes. -/
theorem State.Wakes.alone {s : State} (h : s.hostPhase.Inv) {k : Nat} (hk : s.Wakes k) :
    (∀ (j : Nat) (p : Inst), s.hostPhase.insts[j]? = some p → p.tx.busy = false ∧ p.rx.busy = false) ∧
      ∀ j, s.Wakes j → j = k := by
  rcases hk with hk | ⟨w, hk⟩
  · refine ⟨(State.StartsCapture.startable h hk).2, fun j hj => ?_⟩
    rcases hj with hj | ⟨w, hj⟩
    · exact Option.some.inj (hj.symm.trans hk)
    · cases hj.idle.1.symm.trans hk
  · refine ⟨hk.idle.2, fun j hj => ?_⟩
    rcases hj with hj | ⟨w', hj⟩
    · cases hk.idle.1.symm.trans hj
    · exact Option.some.inj (hj.1.symm.trans hk.1)

theorem step_tx_busy {s t : State} {k : Nat} {p q : Inst} (h : step s = .next t) (hp : s.hostPhase.insts[k]? = some p)
    (hq : t.insts[k]? = some q) (hb : q.tx.busy = true) : p.tx.busy = true ∨ ∃ w, s.TakesWord k w := by
  rcases step_block h hp hq with ⟨-, rfl⟩ | ⟨w, hw, -⟩
  · rw [State.enginesOf, Inst.engines_tx] at hb
    exact .inl (Inst.busy_txStep.1 hb).1
  · exact .inr ⟨w, hw⟩

theorem step_rx_busy {s t : State} {k : Nat} {p q : Inst} (h : step s = .next t) (hp : s.hostPhase.insts[k]? = some p)
    (hq : t.insts[k]? = some q) (hb : q.rx.busy = true) : p.rx.busy = true ∨ s.StartsCapture k := by
  rw [(step_block_rx h hp hq).1] at hb
  exact (Inst.rx_busy_engines hb).imp_right fun hstart => by simpa using hstart

/-- A block is busy after a step only if it was, or if it wakes. -/
theorem step_busy {s t : State} {k : Nat} {p q : Inst} (h : step s = .next t) (hp : s.hostPhase.insts[k]? = some p)
    (hq : t.insts[k]? = some q) (hb : q.busy = true) : p.busy = true ∨ s.Wakes k := by
  rcases (Bool.or_eq_true _ _).mp hb with hb | hb
  · exact (step_tx_busy h hp hq hb).imp (fun hb => by simp [Inst.busy, hb]) .inr
  · exact (step_rx_busy h hp hq hb).imp (fun hb => by simp [Inst.busy, hb]) .inl

/-- A tick's engine steps keep a block's part of the invariant, but for `gie`, at the next timer value. -/
theorem State.ok_enginesOf {s : State} (h : s.hostPhase.Inv) {k : Nat} {p : Inst} (hp : s.hostPhase.insts[k]? = some p) :
    (s.hostPhase.enginesOf k p).txOk s.cfg.timerW (wrapTo s.cfg.timerW (s.timer + 1)) ∧
    (s.hostPhase.enginesOf k p).rxOk s.cfg.timerW (wrapTo s.cfg.timerW (s.timer + 1)) ∧
    (s.hostPhase.enginesOf k p).ringOk := by
  obtain ⟨hv, ht, hok, -⟩ := (State.inv_iff _).1 h
  obtain ⟨htx, hrx, hring, -, -⟩ := hok k p hp
  have hcfg := State.cfg_valid_of_configValid hv hp
  refine ⟨Inst.txOk_engines hcfg ht htx _ _, Inst.rxOk_engines hcfg ht hrx _ _ fun hstart => ?_,
    Inst.ringOk_engines hring (fun hb => ?_) _ _⟩
  · obtain ⟨⟨p', hp', hst⟩, -⟩ := State.StartsCapture.startable h (k := k) (s := s) (by simpa using hstart)
    rwa [Option.some_inj.1 (hp.symm.trans hp')]
  · obtain ⟨-, -, -, hbusy, -⟩ := hrx
    exact (hbusy hb).1

/-- A command on an idle block keeps its part of the invariant: it begins a frame one tick before the next timer value, or it
answers and leaves the read index in range. -/
theorem Inst.ok_performWord {W timer : Nat} {w : Word} {p q : Inst} (hv : p.cfg.valid W = true) (ht : timer < 2 ^ W)
    (h : p.performWord timer w = some q) (hidle : p.tx.busy = false) (htx : p.txOk W (wrapTo W (timer + 1)))
    (hresp : p.port.resp = none) (hring : p.ringOk) : q.txOk W (wrapTo W (timer + 1)) ∧ q.ringOk := by
  obtain ⟨hbp, hframe, -, -, hcap⟩ := (InstConfig.valid_iff W p.cfg).1 hv
  obtain ⟨hw, hr, hwf, hin, hnone⟩ := hring
  rcases Inst.performWord_cases h with ⟨b, -, hpin, rfl⟩ | ⟨st, v, r, rfl, hr'⟩
  · have hel := elapsed_tick_of_start ht (show 1 < 2 ^ W by omega)
    refine ⟨⟨by simp, ht, ?_, fun _ => ⟨hpin, hresp, rfl, ?_, ?_, ?_⟩, nofun⟩, hw, hr, hwf, hin, hnone⟩ <;>
      simp [hel] <;> omega
  · refine ⟨Inst.txOk_of_idle htx hidle rfl, hw, ?_, hwf, hin, fun hp => ⟨(hnone hp).1, ?_⟩⟩
    · rcases hr' with rfl | rfl | ⟨-, rfl⟩
      · exact hr
      · exact hw
      · exact nextIndex_lt (by omega) _
    · obtain ⟨hw0, hr0⟩ := hnone hp
      rcases hr' with rfl | rfl | ⟨hne, -⟩
      · exact hr0
      · exact hw0
      · exact absurd (hw0.trans hr0.symm) hne

/-- `gie` where a block's transmit engine is busy after the tick: no other frame ended in it, and TX_BYTE cleared it (R38 (e)). -/
theorem step_gie_of_sending {s t : State} {k : Nat} {p q : Inst} (hinv : s.hostPhase.Inv) (h : step s = .next t)
    (hp : s.hostPhase.insts[k]? = some p) (hq : t.insts[k]? = some q) (hb : q.tx.busy = true) : t.gie = false := by
  obtain ⟨-, -, hok, hone⟩ := (State.inv_iff _).1 hinv
  obtain ⟨-, -, -, -, hgie⟩ := step_domain h
  rcases step_block h hp hq with ⟨hno, rfl⟩ | ⟨w, hw, hperf⟩
  · rw [State.enginesOf, Inst.engines_tx, Inst.busy_txStep] at hb
    obtain ⟨hbp, hends⟩ := hb
    obtain ⟨-, -, -, hoff, -⟩ := hok k p hp
    rcases hgie with ⟨-, hgie⟩ | ⟨j, w, -, hj, -⟩
    · rw [hgie, ← State.hostPhase_gie, hoff hbp, Bool.false_or, any_eq_false_iff_getElem?]
      intro j r hj
      by_cases hbr : r.tx.busy = true
      · have hjk := hone j k r p hj hp (by simp [Inst.busy, hbr]) (by simp [Inst.busy, hbp])
        subst hjk
        cases hj.symm.trans hp
        exact hends
      · exact r.txCompletes_of_idle _ _ (by simpa using hbr)
    · simp [(hj.idle.2 k p hp).1] at hbp
  · have hidle := (hw.idle.2 k p hp).1
    rcases hgie with ⟨hnone, -⟩ | ⟨j, w', p', hj, hp', hgie⟩
    · cases hw.1.symm.trans hnone
    · cases hw.1.symm.trans hj.1
      cases hw.2.symm.trans hj.2
      cases hp.symm.trans hp'
      rcases Inst.performWord_cases hperf with ⟨b, hd, hpin, -⟩ | ⟨st, v, r, rfl, -⟩
      · rw [hgie, Inst.gieAfterWord_txByte hd hpin]
      · cases hidle.symm.trans ((s.hostPhase.executing_of_idle k hidle).1 ▸ hb)

/-- A block's part of the invariant after a step (R38 (a) to (c), (e) to (h)). -/
theorem step_ok {s t : State} {k : Nat} {p q : Inst} (hinv : s.hostPhase.Inv) (h : step s = .next t)
    (hp : s.hostPhase.insts[k]? = some p) (hq : t.insts[k]? = some q) :
    q.Ok s.cfg.timerW (wrapTo s.cfg.timerW (s.timer + 1)) t.gie := by
  obtain ⟨hv, ht, hok, -⟩ := (State.inv_iff _).1 hinv
  obtain ⟨htx, hrx, hring⟩ := State.ok_enginesOf hinv hp
  have hparts : q.txOk s.cfg.timerW (wrapTo s.cfg.timerW (s.timer + 1)) ∧ q.ringOk := by
    rcases step_block h hp hq with ⟨-, rfl⟩ | ⟨w, hw, hperf⟩
    · exact ⟨htx, hring⟩
    · have hidle := (hw.idle.2 k p hp).1
      obtain ⟨p', hp', -, hresp⟩ := hw.slots
      cases hp.symm.trans hp'
      obtain ⟨hetx, heport⟩ := s.hostPhase.executing_of_idle k hidle
      have hcfg : (s.hostPhase.executing k p).cfg.valid s.cfg.timerW = true := by
        rw [State.executing_cfg]
        exact State.cfg_valid_of_configValid hv hp
      refine Inst.ok_performWord hcfg ht hperf (by rw [hetx, hidle]) ?_ (by rw [heport, hresp]) hring
      exact Inst.txOk_of_idle (hok k p hp).1 hidle hetx
  have hrxq : q.rxOk s.cfg.timerW (wrapTo s.cfg.timerW (s.timer + 1)) := by
    obtain ⟨heq, hcfg⟩ := step_block_rx h hp hq
    have hcfg' : q.cfg = (s.hostPhase.enginesOf k p).cfg := hcfg.trans (Inst.engines_cfg ..).symm
    rw [Inst.rxOk, heq, hcfg']
    exact hrx
  refine ⟨hparts.1, hrxq, hparts.2, step_gie_of_sending hinv h hp hq, fun ⟨hbt, hbr⟩ => ?_⟩
  obtain ⟨-, -, -, -, hboth⟩ := hok k p hp
  rcases step_tx_busy h hp hq hbt with hbt | ⟨w, hw⟩ <;> rcases step_rx_busy h hp hq hbr with hbr | hgo
  · exact hboth ⟨hbt, hbr⟩
  · simp [((State.StartsCapture.startable hinv hgo).2 k p hp).1] at hbt
  · simp [(hw.idle.2 k p hp).2] at hbr
  · cases hw.idle.1.symm.trans hgo

/-- At most one block is busy after a step (R38 (d)): a block wakes only where none is busy, and no other wakes with it. -/
theorem step_one_busy {s t : State} (hinv : s.hostPhase.Inv) (h : step s = .next t) {i j : Nat} {p q : Inst}
    (hp : t.insts[i]? = some p) (hq : t.insts[j]? = some q) (hbp : p.busy = true) (hbq : q.busy = true) : i = j := by
  obtain ⟨p₀, hp₀⟩ := step_block_exists h hp
  obtain ⟨q₀, hq₀⟩ := step_block_exists h hq
  obtain ⟨-, -, -, hone⟩ := (State.inv_iff _).1 hinv
  have hawake : ∀ {k l : Nat} {r : Inst}, s.Wakes k → s.hostPhase.insts[l]? = some r → ¬r.busy = true := by
    intro k l r hk hr
    obtain ⟨htx, hrx⟩ := (State.Wakes.alone hinv hk).1 l r hr
    simp [Inst.busy, htx, hrx]
  rcases step_busy h hp₀ hp hbp with hb | hw <;> rcases step_busy h hq₀ hq hbq with hb' | hw'
  · exact hone i j p₀ q₀ hp₀ hq₀ hb hb'
  · exact absurd hb (hawake hw' hp₀)
  · exact absurd hb' (hawake hw hq₀)
  · exact (State.Wakes.alone hinv hw').2 i hw

/-- Settles O34: after the host phase, a step keeps each block's clauses and lets no second engine become busy. -/
theorem stepKeepsInvariant : Obligations.StepKeepsInvariant := by
  intro s t h e
  have hinv := State.inv_hostPhase h
  obtain ⟨hv, -, -, -⟩ := (State.inv_iff _).1 hinv
  obtain ⟨hcfg, htimer, -, hlen, -⟩ := step_domain e
  rw [State.inv_iff, hcfg, htimer]
  refine ⟨?_, wrapTo_lt _ _, fun k q hq => ?_, fun i j p q => step_one_busy hinv e⟩
  · refine (State.configValid_of_blocks (s := s.hostPhase) hcfg (by simp [hlen]) fun k p q hp hq => ?_).trans hv
    exact (step_block_rx e hp hq).2
  · obtain ⟨p, hp⟩ := step_block_exists e hq
    exact step_ok hinv e hp hq

/-! ### The state after reset -/

/-- A block right after reset meets its part of the invariant: its engines are idle and its ring is empty (R231). -/
theorem Inst.ok_resetWith {W timer : Nat} {cd : InstConfig × InstDraw} (h : InstDraw.ok W cd) :
    (Inst.resetWith cd.1 cd.2).Ok W timer true := by
  obtain ⟨hv, htxs, htxd, hrxs, hrxd, hwf, hin⟩ := h
  have hcap : 0 < cd.1.cap := by
    obtain ⟨-, -, -, -, hcap⟩ := (InstConfig.valid_iff W cd.1).1 hv
    omega
  exact ⟨⟨Nat.zero_le _, htxs, htxd, nofun, fun _ => rfl⟩, ⟨Nat.zero_le _, hrxs, hrxd, nofun, nofun⟩,
    ⟨hcap, hcap, hwf, hin, fun _ => ⟨rfl, rfl⟩⟩, nofun, nofun⟩

theorem State.inv_resetWith {cfg : DomainConfig} {dom timer : Nat} {is : List (InstConfig × InstDraw)} (hne : is ≠ [])
    (hv : cfg.valid = true) (ht : timer < 2 ^ cfg.timerW) (hok : ∀ cd ∈ is, InstDraw.ok cfg.timerW cd) :
    (State.resetWith cfg dom timer is).Inv := by
  have hblock : ∀ {k : Nat} {p : Inst}, (State.resetWith cfg dom timer is).insts[k]? = some p →
      ∃ cd ∈ is, p = Inst.resetWith cd.1 cd.2 := fun {k p} hp => by
    rw [State.getElem?_resetWith, Option.map_eq_some_iff] at hp
    obtain ⟨cd, hcd, rfl⟩ := hp
    exact ⟨cd, List.mem_of_getElem? hcd, rfl⟩
  rw [State.inv_iff, State.configValid_iff]
  refine ⟨⟨?_, of_decide_eq_true hv, fun p hp => ?_⟩, ht, fun k p hp => ?_, fun i j p q hp _ hb _ => ?_⟩
  · simpa [State.resetWith, Nat.succ_le_iff] using List.length_pos_iff.2 hne
  · obtain ⟨cd, hcd, rfl⟩ := List.mem_map.1 hp
    exact (hok cd hcd).1
  · obtain ⟨cd, hcd, rfl⟩ := hblock hp
    exact Inst.ok_resetWith (hok cd hcd)
  · obtain ⟨cd, -, rfl⟩ := hblock hp
    cases hb

/-- Settles O35: every block is idle and empty after reset; `State.reset`'s configuration and draws are in range. -/
theorem resetMeetsInvariant : Obligations.ResetMeetsInvariant :=
  ⟨fun _ _ _ _ hne hv ht hok => State.inv_resetWith hne hv ht hok,
    State.inv_resetWith (by simp) (by decide) (by decide) (by decide)⟩

end Sys2Proof.Machine
end

section
/-! PROOFS, family 10_state.md: two domains whose blocks are related, one by one, by a relation that the engines and the commands
keep, step to two that are (a simulation). Unobservable registers (R26 to R30, R66) and the timer's value (R31) are two such
relations. -/
namespace Sys2Proof.Machine

/-! ### Related domains -/

/-- The blocks of two domains are related, one by one. -/
def State.Blockwise (R : Inst → Inst → Prop) (s t : State) : Prop :=
  t.insts.length = s.insts.length ∧
    ∀ (k : Nat) (p q : Inst), s.insts[k]? = some p → t.insts[k]? = some q → R p q

/-- Two domains that differ at most in the timer and in their blocks, which are related one by one. -/
structure State.Related (R : Inst → Inst → Prop) (s t : State) : Prop where
  cfg : t.cfg = s.cfg
  dom : t.dom = s.dom
  tick : t.tick = s.tick
  gie : t.gie = s.gie
  sel : t.sel = s.sel
  captureIn : t.captureIn = s.captureIn
  commandIn : t.commandIn = s.commandIn
  blocks : State.Blockwise R s t

/-- `State.Related` in the form in which the obligations say it. -/
theorem State.related_iff {R : Inst → Inst → Prop} {s t : State} :
    State.Related R s t ↔ t = { s with timer := t.timer, insts := t.insts } ∧ State.Blockwise R s t := by
  constructor
  · rintro ⟨hcfg, hdom, htick, hgie, hsel, hcap, hcom, hblocks⟩
    refine ⟨?_, hblocks⟩
    rw [← hcfg, ← hdom, ← htick, ← hgie, ← hsel, ← hcap, ← hcom]
  · rintro ⟨heq, hblocks⟩
    exact ⟨by rw [heq], by rw [heq], by rw [heq], by rw [heq], by rw [heq], by rw [heq], by rw [heq], hblocks⟩

section blockwise
variable {R : Inst → Inst → Prop} {s t s' t' : State}

/-- Each block has its partner. -/
theorem State.Blockwise.partner (h : State.Blockwise R s t) {k : Nat} {p : Inst} (hp : s.insts[k]? = some p) :
    ∃ q, t.insts[k]? = some q ∧ R p q := by
  have hk : k < t.insts.length := by
    rw [h.1]
    exact (List.getElem?_eq_some_iff.1 hp).1
  exact ⟨_, List.getElem?_eq_getElem hk, h.2 k p _ hp (List.getElem?_eq_getElem hk)⟩

/-- Related blocks read alike what the relation fixes. -/
theorem State.Blockwise.map_eq {α : Type} (h : State.Blockwise R s t) {c c' : Inst → α} (hc : ∀ p q, R p q → c' q = c p) :
    t.insts.map c' = s.insts.map c :=
  List.ext_getElem (by simp [h.1]) fun k h₁ h₂ => by
    rw [List.length_map] at h₁ h₂
    simpa using hc _ _ (h.2 k _ _ (List.getElem?_eq_getElem h₂) (List.getElem?_eq_getElem h₁))

theorem State.Blockwise.any_eq (h : State.Blockwise R s t) {c c' : Inst → Bool} (hc : ∀ p q, R p q → c' q = c p) :
    t.insts.any c' = s.insts.any c := by
  have hmap := congrArg (List.any · id) (h.map_eq hc)
  simpa [List.any_map, Function.comp_def] using hmap

theorem State.Blockwise.indices_eq (h : State.Blockwise R s t) {c c' : Inst → Bool} (hc : ∀ p q, R p q → c' q = c p) :
    t.indices c' = s.indices c := by
  have hget : ∀ (u : State) (d : Inst → Bool) (k : Nat), u.insts[k]?.any d = (u.insts.map d)[k]?.any id := fun u d k => by
    rw [List.getElem?_map]
    cases u.insts[k]? <;> rfl
  simp only [State.indices, hget, h.map_eq hc, h.1]

/-- Updates of the blocks one by one keep them related. -/
theorem State.Blockwise.update (h : State.Blockwise R s t) {f g : Nat → Inst → Inst}
    (hs : ∀ k, s'.insts[k]? = s.insts[k]?.map (f k)) (ht : ∀ k, t'.insts[k]? = t.insts[k]?.map (g k))
    (hfg : ∀ (k : Nat) (p q : Inst), R p q → R (f k p) (g k q)) :
    State.Blockwise R s' t' := by
  have hs' : s'.insts = s.insts.mapIdx f := List.ext_getElem? fun k => by rw [hs, List.getElem?_mapIdx]
  have ht' : t'.insts = t.insts.mapIdx g := List.ext_getElem? fun k => by rw [ht, List.getElem?_mapIdx]
  refine ⟨by simp [hs', ht', h.1], fun k p' q' hp hq => ?_⟩
  rw [hs, Option.map_eq_some_iff] at hp
  rw [ht, Option.map_eq_some_iff] at hq
  obtain ⟨p, hp, rfl⟩ := hp
  obtain ⟨q, hq, rfl⟩ := hq
  exact hfg k p q (h.2 k p q hp hq)

end blockwise

/-! ### The simulation -/

/-- A relation of blocks, at the timer values `τ` and `τ'` of their domains, that fixes what the domain reads of a block and
that the host, the engines and the emptying of a command slot keep. -/
structure Inst.Simulation (W τ τ' : Nat) (R : Inst → Inst → Prop) : Prop where
  cfg : ∀ p q, R p q → q.cfg = p.cfg
  port : ∀ p q, R p q → q.port = p.port
  env : ∀ p q, R p q → q.env = p.env
  txBusy : ∀ p q, R p q → q.tx.busy = p.tx.busy
  rxBusy : ∀ p q, R p q → q.rx.busy = p.rx.busy
  edgePending : ∀ p q, R p q → q.rx.edgePending = p.rx.edgePending
  writeIndex : ∀ p q, R p q → q.rb.w = p.rb.w
  stopDue : ∀ p q, R p q → q.stopDue W τ' = p.stopDue W τ
  txCompletes : ∀ p q, R p q → q.txCompletes W τ' = p.txCompletes W τ
  hostPhase : ∀ p q m, R p q → R (p.hostPhase m) (q.hostPhase m)
  engines : ∀ p q pin start, R p q → R (p.engines W τ pin start) (q.engines W τ' pin start)
  emptied : ∀ p q, R p q → R { p with port.cmd := none } { q with port.cmd := none }

/-- A command word on related blocks, at their domains' timer values, leaves related blocks. -/
def Inst.PerformsAlike (τ τ' : Nat) (R : Inst → Inst → Prop) (w : Word) : Prop :=
  ∀ p q p', R p q → p.performWord τ w = some p' → ∃ q', q.performWord τ' w = some q' ∧ R p' q'

section simulation
variable {R : Inst → Inst → Prop} {s t s' : State}

theorem Inst.Simulation.related_hostPhase (hR : Inst.Simulation s.cfg.timerW s.timer t.timer R) (h : State.Related R s t) :
    State.Related R s.hostPhase t.hostPhase := by
  refine ⟨h.cfg, h.dom, h.tick, h.gie, h.sel, h.captureIn, h.commandIn,
    h.blocks.update s.getElem?_hostPhase t.getElem?_hostPhase fun k p q hpq => ?_⟩
  have hmove : q.hostMove t.dom t.tick k = p.hostMove s.dom s.tick k := by
    simp only [Inst.hostMove, hR.env p q hpq, h.dom, h.tick]
  rw [hmove]
  exact hR.hostPhase p q _ hpq

/-- Related domains choose alike: which capture starts, which command is accepted, and its word (R44 to R46). -/
theorem Inst.Simulation.selects (hR : Inst.Simulation s.cfg.timerW s.timer t.timer R) (h : State.Related R s t) :
    t.pushOutOfRange = s.pushOutOfRange ∧ t.captureSelect = s.captureSelect ∧
      (∀ go, t.commandSelect go = s.commandSelect go) ∧ ∀ k, t.command k = s.command k := by
  have hrx : t.rxActive = s.rxActive := h.blocks.any_eq hR.rxBusy
  have htx : t.txActive = s.txActive := h.blocks.any_eq hR.txBusy
  have hready := h.blocks.indices_eq (c := (·.ready s.gie)) (c' := (·.ready t.gie)) fun p q hpq => by
    simp only [Inst.ready, h.gie, hR.cfg p q hpq, hR.rxBusy p q hpq, hR.edgePending p q hpq]
  have hoffers := h.blocks.indices_eq (c := Inst.offers) (c' := Inst.offers) fun p q hpq => by
    simp only [Inst.offers, hR.port p q hpq]
  refine ⟨h.blocks.any_eq fun p q hpq => ?_, ?_, fun go => ?_, fun k => ?_⟩
  · rw [h.cfg, hR.stopDue p q hpq, hR.writeIndex p q hpq, hR.cfg p q hpq]
  · simp only [State.captureSelect, State.capturePick, hrx, hready, h.captureIn, h.dom, h.tick]
  · simp only [State.commandSelect, State.commandPick, htx, hrx, hoffers, h.commandIn, h.dom, h.tick]
  · have hport := congrArg (·[k]? >>= Port.cmd) (h.blocks.map_eq (c := Inst.port) (c' := Inst.port) hR.port)
    simpa [State.command, List.getElem?_map, Option.bind_map, Function.comp_def] using hport

/-- Related blocks after the engines' steps. -/
theorem Inst.Simulation.enginesOf (hR : Inst.Simulation s.cfg.timerW s.timer t.timer R) (h : State.Related R s t)
    (k : Nat) {p q : Inst} (hpq : R p q) : R (s.enginesOf k p) (t.enginesOf k q) := by
  have hpin : q.pinLevel t.dom t.tick k = p.pinLevel s.dom s.tick k := by
    simp only [Inst.pinLevel, hR.env p q hpq, h.dom, h.tick]
  rw [State.enginesOf, State.enginesOf, hpin, h.cfg, (hR.selects h).2.1]
  exact hR.engines p q _ _ hpq

/-- `gie` after a word depends on the block's parameters only. -/
theorem Inst.gieAfterWord_congr {gie : Bool} {w : Word} {p q : Inst} (h : q.cfg = p.cfg) :
    q.gieAfterWord gie w = p.gieAfterWord gie w := by
  simp only [Inst.gieAfterWord]
  cases decode w with
  | error _ => rfl
  | ok i => cases i <;> simp only [Inst.gieAfter, h]

/-- Two domains whose blocks are related step to two whose blocks are, if the accepted word keeps the relation. -/
theorem step_related (hR : Inst.Simulation s.cfg.timerW s.timer t.timer R) (h : State.Related R s t)
    (hw : ∀ k w, s.TakesWord k w → Inst.PerformsAlike s.timer t.timer R w) (e : step s = .next s') :
    ∃ t', step t = .next t' ∧ State.Related R s' t' := by
  have hhost := hR.related_hostPhase h
  have hR' : Inst.Simulation s.hostPhase.cfg.timerW s.hostPhase.timer t.hostPhase.timer R := hR
  obtain ⟨hpush, hcapture, hcommand, hword⟩ := hR'.selects hhost
  have hengines : ∀ k p q, R p q → R (s.hostPhase.enginesOf k p) (t.hostPhase.enginesOf k q) :=
    fun k _ _ => hR'.enginesOf hhost k
  obtain ⟨hvs, hps, hcases⟩ := step_next e
  have hv : t.configValid = true := (State.configValid_congr h.cfg (h.blocks.map_eq hR.cfg)).trans hvs
  have hp : t.hostPhase.pushOutOfRange = false := hpush.trans hps
  rcases hcases with ⟨hnone, rfl⟩ | ⟨k, w, p, p', hk, hp, hperf, rfl⟩
  · have hstep := step_of_select_none hv hp (by rw [hcapture, hcommand, hnone])
    refine ⟨_, hstep, h.cfg, h.dom, congrArg (· + 1) h.tick, ?_, h.sel,
      congrArg List.tail h.captureIn, congrArg List.tail h.commandIn,
      hhost.blocks.update s.getElem?_afterEngines t.getElem?_afterEngines hengines⟩
    have hends : t.hostPhase.insts.any (·.txCompletes t.hostPhase.cfg.timerW t.hostPhase.timer) =
        s.hostPhase.insts.any (·.txCompletes s.hostPhase.cfg.timerW s.hostPhase.timer) :=
      hhost.blocks.any_eq fun p q hpq => by
        rw [hhost.cfg]
        exact hR'.txCompletes p q hpq
    exact congrArg₂ or h.gie hends
  · have hk' : t.TakesWord k w := ⟨by rw [hcapture, hcommand, hk.1], by rw [hword, hk.2]⟩
    obtain ⟨q, hq, hpq⟩ := hhost.blocks.partner hp
    obtain ⟨q', hq', hpq'⟩ := hw k w hk _ _ p' (hR.emptied _ _ (hengines k p q hpq)) hperf
    have hstep : step t = .next (t.afterWord k w q q') := by
      rw [step_of_takesWord hv ‹_› hk', hk'.execute_eq hq, State.executing, hq']
    refine ⟨_, hstep, h.cfg, h.dom, congrArg (· + 1) h.tick, ?_, rfl, congrArg List.tail h.captureIn,
      congrArg List.tail h.commandIn,
      hhost.blocks.update (hk.getElem?_afterWord p p') (hk'.getElem?_afterWord q q') fun j r r' hr => ?_⟩
    · show Inst.gieAfterWord t.gie w _ = Inst.gieAfterWord s.gie w _
      rw [h.gie]
      exact Inst.gieAfterWord_congr (by rw [State.executing_cfg, State.executing_cfg, hR.cfg p q hpq])
    · by_cases hj : k = j
      · simpa only [if_pos hj] using hpq'
      · simpa only [if_neg hj] using hengines j r r' hr

end simulation

end Sys2Proof.Machine
end

section
/-! PROOFS, family 10_state.md: the timer's value matters to TMR_READ only (R31, R106). -/
namespace Sys2Proof.Machine

/-! ### Blocks that differ in their start times -/

/-- A block with other start times of its two engines. -/
def Inst.reclock (a b : Nat) (p : Inst) : Inst := { p with tx.start := a, rx.start := b }

theorem Inst.shifted_iff {W d : Nat} {p q : Inst} :
    Inst.Shifted W d p q ↔
      ∃ a b, q = p.reclock a b ∧ (p.tx.busy = true → a = (p.tx.start + d) % 2 ^ W) ∧
        (p.rx.busy = true → b = (p.rx.start + d) % 2 ^ W) :=
  ⟨fun ⟨heq, htx, hrx⟩ => ⟨q.tx.start, q.rx.start, heq, htx, hrx⟩,
    fun ⟨_, _, heq, htx, hrx⟩ => heq ▸ ⟨rfl, htx, hrx⟩⟩

/-- A busy engine's wait is over in both domains or in neither, where timer and start differ by the same amount. -/
theorem due_shift {W timer d start start' deadline : Nat} {busy : Bool} (ht : timer < 2 ^ W)
    (h : busy = true → start' = (start + d) % 2 ^ W) :
    (busy && deadlineMet W ((timer + d) % 2 ^ W) start' deadline) = (busy && deadlineMet W timer start deadline) := by
  cases busy with
  | false => rfl
  | true => rw [h rfl, deadlineMet, deadlineMet, elapsed_shift W timer start d ht]

section reclock
variable {W timer timer' a b : Nat} {p : Inst}

theorem Inst.txStep_reclock (h : (p.reclock a b).txDue W timer' = p.txDue W timer) :
    (p.reclock a b).txStep W timer' = (p.txStep W timer).reclock a b := by
  unfold Inst.txStep
  rw [h]
  cases p.txDue W timer with
  | false => rfl
  | true =>
    by_cases hc : p.tx.cell < 9
    · simp only [if_true, if_pos hc, if_pos (show (p.reclock a b).tx.cell < 9 from hc)]
      rfl
    · simp only [if_true, if_neg hc, if_neg (show ¬(p.reclock a b).tx.cell < 9 from hc)]
      rfl

theorem Inst.push_reclock (v : Byte) : (p.reclock a b).push v = (p.push v).reclock a b := by
  have hmem : (p.reclock a b).memWrite (p.reclock a b).rb.w v = p.memWrite p.rb.w v := rfl
  unfold Inst.push
  rw [hmem]
  cases p.memWrite p.rb.w v <;> rfl

theorem Inst.captureStep_reclock {pin : Bool} (h : (p.reclock a b).rxDue W timer' = p.rxDue W timer) :
    (p.reclock a b).captureStep W timer' pin = (p.captureStep W timer pin).reclock a b := by
  have hsample : (p.reclock a b).sampleDue W timer' = p.sampleDue W timer := congrArg (· && _) h
  have hstop : (p.reclock a b).stopDue W timer' = p.stopDue W timer := congrArg (· && _) h
  unfold Inst.captureStep
  rw [hsample, hstop]
  cases p.sampleDue W timer with
  | true => rfl
  | false =>
    cases p.stopDue W timer with
    | false => rfl
    | true =>
      show { (p.reclock a b).push p.rx.shift with rx.busy := false } = _
      rw [Inst.push_reclock]
      rfl

/-- The engines' steps where both waits are over in both domains or in neither: a capture that starts takes its own domain's
timer. -/
theorem Inst.engines_reclock {pin start : Bool} (htx : (p.reclock a b).txDue W timer' = p.txDue W timer)
    (hrx : (p.reclock a b).rxDue W timer' = p.rxDue W timer) :
    (p.reclock a b).engines W timer' pin start =
      (p.engines W timer pin start).reclock a (if start then timer' else b) := by
  have hstop : (p.reclock a b).stopDue W timer' = p.stopDue W timer := congrArg (· && _) hrx
  have hstep : ∀ (r : Inst) (c : Nat), r.tx = p.tx →
      (r.reclock a c).txStep W timer' = (r.txStep W timer).reclock a c := fun r c hr => by
    refine Inst.txStep_reclock ?_
    simpa only [Inst.txDue, Inst.reclock, hr] using htx
  unfold Inst.engines
  rw [Inst.captureStep_reclock hrx, hstop]
  cases start with
  | false =>
    simp only [Bool.false_eq_true, if_false]
    rw [hstep _ b (by simp)]
    rfl
  | true =>
    have hstart : ∀ r : Inst, (r.reclock a b).captureStart timer' = (r.captureStart timer).reclock a timer' := fun _ => rfl
    simp only [if_true, hstart]
    rw [hstep _ timer' (by simp)]
    rfl

/-- A command word that begins no frame and is not TMR_READ reads neither the timer nor a start time. -/
theorem Inst.performWord_reclock {w : Word} (hw : w ≠ encode .tmrRead)
    (hframe : ¬∃ c, decode w = .ok (.txByte c) ∧ p.cfg.txPresent = true) :
    (p.reclock a b).performWord timer' w = (p.performWord timer w).map (·.reclock a b) := by
  unfold Inst.performWord
  cases hd : decode w with
  | error _ => rfl
  | ok i =>
    cases i with
    | txByte c =>
      have hpin : ¬p.cfg.txPresent = true := fun h => hframe ⟨c, hd, h⟩
      simp only [Inst.perform, if_neg hpin, if_neg (show ¬(p.reclock a b).cfg.txPresent = true from hpin)]
      rfl
    | rbPop =>
      have hempty : (p.reclock a b).ringEmpty = p.ringEmpty := rfl
      have hread : (p.reclock a b).memRead (p.reclock a b).rb.r = p.memRead p.rb.r := rfl
      simp only [Inst.perform, hempty, hread]
      cases p.ringEmpty <;> cases p.memRead p.rb.r <;> rfl
    | rbPeek =>
      have hempty : (p.reclock a b).ringEmpty = p.ringEmpty := rfl
      have hread : (p.reclock a b).memRead (p.reclock a b).rb.r = p.memRead p.rb.r := rfl
      simp only [Inst.perform, hempty, hread]
      cases p.ringEmpty <;> cases p.memRead p.rb.r <;> rfl
    | rbAvail => rfl
    | rbClear => rfl
    | gieClr => rfl
    | gieSet => rfl
    | tmrRead => exact absurd (encode_of_decode hd).symm hw

end reclock

/-! ### Domains whose timers differ -/

/-- Start times in use: the engines keep them, but for a capture that starts. -/
theorem Inst.start_engines (W timer : Nat) (pin start : Bool) (p : Inst) :
    (p.engines W timer pin start).tx.start = p.tx.start ∧
      (p.engines W timer pin start).rx.start = if start then timer else p.rx.start := by
  constructor
  · rw [Inst.engines_tx]
    rcases p.txStep_cases W timer with ⟨-, h⟩ | ⟨-, -, h⟩ | ⟨-, -, h⟩ <;> rw [h] <;> rfl
  · rw [Inst.engines_rx]
    cases start with
    | true => rfl
    | false => rcases p.captureStep_cases W timer pin with ⟨-, -, h⟩ | ⟨-, -, h⟩ | ⟨-, -, h⟩ <;> simp [h]

/-- A shift of the start times by as much as the timer is a simulation. -/
theorem Inst.simulation_shifted {W timer : Nat} (d : Nat) (ht : timer < 2 ^ W) :
    Inst.Simulation W timer ((timer + d) % 2 ^ W) (Inst.Shifted W d) := by
  have htx : ∀ {p : Inst} {a b : Nat}, (p.tx.busy = true → a = (p.tx.start + d) % 2 ^ W) →
      (p.reclock a b).txDue W ((timer + d) % 2 ^ W) = p.txDue W timer := fun h => due_shift ht h
  have hrx : ∀ {p : Inst} {a b : Nat}, (p.rx.busy = true → b = (p.rx.start + d) % 2 ^ W) →
      (p.reclock a b).rxDue W ((timer + d) % 2 ^ W) = p.rxDue W timer := fun h => due_shift ht h
  constructor <;> intro p q <;> simp only [Inst.shifted_iff]
  case stopDue =>
    rintro ⟨a, b, rfl, -, hb⟩
    exact congrArg (· && _) (hrx hb)
  case txCompletes =>
    rintro ⟨a, b, rfl, ha, -⟩
    exact congrArg (· && _) (htx ha)
  case hostPhase =>
    rintro m ⟨a, b, rfl, ha, hb⟩
    exact ⟨a, b, rfl, ha, hb⟩
  case emptied =>
    rintro ⟨a, b, rfl, ha, hb⟩
    exact ⟨a, b, rfl, ha, hb⟩
  case engines =>
    rintro pin start ⟨a, b, rfl, ha, hb⟩
    obtain ⟨hta, htb⟩ := p.start_engines W timer pin start
    refine ⟨a, _, Inst.engines_reclock (htx ha) (hrx hb), fun hbusy => ?_, fun hbusy => ?_⟩
    · rw [Inst.engines_tx] at hbusy
      rw [hta, ha (Inst.busy_txStep.1 hbusy).1]
    · rw [htb]
      cases start with
      | true => rfl
      | false => exact hb ((Inst.rx_busy_engines hbusy).resolve_right (by simp))
  all_goals
    rintro ⟨a, b, rfl, -, -⟩
    rfl

/-- Every word but TMR_READ's answers alike whatever the timer. -/
theorem Inst.performsAlike_shifted {W timer d : Nat} {w : Word} (hw : w ≠ encode .tmrRead) :
    Inst.PerformsAlike timer ((timer + d) % 2 ^ W) (Inst.Shifted W d) w := by
  intro p q p' hpq h
  obtain ⟨a, b, rfl, ha, hb⟩ := Inst.shifted_iff.1 hpq
  by_cases hframe : ∃ c, decode w = .ok (.txByte c) ∧ p.cfg.txPresent = true
  · obtain ⟨c, hd, hpin⟩ := hframe
    have hp : ∀ (r : Inst) (τ : Nat), r.cfg = p.cfg → r.performWord τ w = some (r.startFrame τ c) := fun r τ hr => by
      simp [Inst.performWord, hd, Inst.perform, hr, hpin]
    cases (hp p timer rfl).symm.trans h
    exact ⟨_, hp _ _ rfl, Inst.shifted_iff.2 ⟨_, b, rfl, fun _ => rfl, hb⟩⟩
  · refine ⟨p'.reclock a b, ?_, Inst.shifted_iff.2 ⟨a, b, rfl, ?_⟩⟩
    · rw [Inst.performWord_reclock hw hframe, h, Option.map_some]
    rcases Inst.performWord_cases h with ⟨c, hd, hpin, -⟩ | ⟨st, v, r, rfl, -⟩
    · exact absurd ⟨c, hd, hpin⟩ hframe
    · exact ⟨ha, hb⟩

theorem State.shifted_iff {d : Nat} {s t : State} :
    State.Shifted d s t ↔
      State.Related (Inst.Shifted s.cfg.timerW d) s t ∧ t.timer = (s.timer + d) % 2 ^ s.cfg.timerW := by
  rw [State.related_iff, State.Blockwise, State.Shifted]
  tauto

/-- Timers that differ by `d` still do after a tick, also when one of them wraps (R31, R106). -/
theorem wrapTo_shift (W timer d : Nat) : wrapTo W ((timer + d) % 2 ^ W + 1) = (wrapTo W (timer + 1) + d) % 2 ^ W := by
  rw [wrapTo, wrapTo, Nat.mod_add_mod, Nat.mod_add_mod, Nat.add_right_comm]

/-- Settles O50: the shift is a simulation, and no accepted word is TMR_READ's. -/
theorem timerValueUnobserved : Obligations.TimerValueUnobserved := by
  intro d s t s' hs _ h hno e
  obtain ⟨hrel, htimer⟩ := State.shifted_iff.1 h
  have hR := Inst.simulation_shifted (W := s.cfg.timerW) d hs.2.1
  have hword : ∀ k w, s.TakesWord k w →
      Inst.PerformsAlike s.timer t.timer (Inst.Shifted s.cfg.timerW d) w := fun k w hk => by
    rw [htimer]
    exact Inst.performsAlike_shifted fun hw => hno k ⟨hk.1, hw ▸ hk.2⟩
  rw [← htimer] at hR
  obtain ⟨t', e', hrel'⟩ := step_related hR hrel hword e
  obtain ⟨hcfg, hts, -⟩ := step_domain e
  obtain ⟨-, htt, -⟩ := step_domain e'
  refine ⟨t', e', State.shifted_iff.2 ⟨by rwa [hcfg], ?_⟩⟩
  rw [htt, hts, hrel.cfg, hcfg, htimer, wrapTo_shift]

end Sys2Proof.Machine
end

section
/-! PROOFS, family 10_state.md: the registers the spec calls unobservable reach neither the host nor the pins (R26 to R30, R66). -/
namespace Sys2Proof.Machine

/-! ### The unread bytes -/

/-- A ring whose indices are in range and whose storage is canonical. -/
abbrev Inst.RingSound (p : Inst) : Prop := p.rb.w < p.cfg.cap ∧ p.rb.r < p.cfg.cap ∧ Memory.wf p.rb.mem

theorem avail_lt {p : Inst} (h : p.RingSound) : p.avail < p.cfg.cap := by
  obtain ⟨hw, hr, -⟩ := h
  rw [avail_eq p hw hr]
  split <;> omega

theorem nextIndex_eq {cap x : Nat} (h : x < cap) : nextIndex cap x = if x + 1 = cap then 0 else x + 1 := by
  unfold nextIndex
  split
  · next he => rw [he, Nat.mod_self]
  · exact Nat.mod_eq_of_lt (by omega)

/-- A push keeps a sound ring sound. -/
theorem Inst.ringSound_push {p : Inst} (h : p.RingSound) (b : Byte) : (p.push b).RingSound := by
  obtain ⟨hw, hr, hwf⟩ := h
  rw [p.push_of_lt b hw]
  exact ⟨nextIndex_lt (by omega) _, hr, Memory.wf_write _ hwf _ _⟩

/-- A push raises the unread count by one, but for the push that meets the read index (R151, R159). -/
theorem avail_push {p : Inst} (h : p.RingSound) (b : Byte) :
    (p.push b).avail = if p.avail + 1 = p.cfg.cap then 0 else p.avail + 1 := by
  obtain ⟨hw', hr', -⟩ := Inst.ringSound_push h b
  obtain ⟨hw, hr, -⟩ := h
  rw [avail_eq _ hw' hr', avail_eq p hw hr, Inst.push_w_of_lt p b hw, Inst.push_r, Inst.push_cfg, nextIndex_eq hw]
  split_ifs <;> omega

/-- The slots of the unread bytes are none that a push writes (R66). -/
theorem unread_slot_ne {p : Inst} (h : p.RingSound) {j : Nat} (hj : j < p.avail) : (p.rb.r + j) % p.cfg.cap ≠ p.rb.w := by
  intro heq
  have hmod : p.rb.r + j ≡ p.rb.r + p.avail [MOD p.cfg.cap] := by
    rw [Nat.ModEq, heq, read_add_avail p h.1 h.2.1]
  have hja := Nat.ModEq.eq_of_lt_of_lt (Nat.ModEq.add_left_cancel' _ hmod) (hj.trans (avail_lt h)) (avail_lt h)
  omega

/-- The unread bytes after a push: the byte joins them, or the push that meets the read index hides them all (R151). -/
theorem Inst.unread_push {p : Inst} (h : p.RingSound) (b : Byte) :
    (p.push b).unread = if p.avail + 1 = p.cfg.cap then [] else p.unread ++ [b] := by
  have hread : ∀ a, Memory.read (p.push b).rb.mem a = if a = p.rb.w then b else Memory.read p.rb.mem a := fun a => by
    rw [Inst.push_mem_of_lt p b h.1, Memory.read_write _ h.2.2]
  unfold Inst.unread
  rw [avail_push h, Inst.push_r, Inst.push_cfg]
  simp only [hread]
  split
  · rfl
  · rw [List.range_succ, List.map_append, List.map_singleton, read_add_avail p h.1 h.2.1, if_pos rfl]
    congr 1
    exact List.map_congr_left fun j hj => if_neg (unread_slot_ne h (List.mem_range.1 hj))

/-- The oldest unread byte is at the read index, and the others are unread after it (R66, R152). -/
theorem Inst.unread_cons {p : Inst} (h : p.RingSound) (hne : p.rb.w ≠ p.rb.r) :
    p.unread = Memory.read p.rb.mem p.rb.r :: ({ p with rb.r := nextIndex p.cfg.cap p.rb.r } : Inst).unread := by
  obtain ⟨hw, hr, -⟩ := h
  have havail : p.avail = ({ p with rb.r := nextIndex p.cfg.cap p.rb.r } : Inst).avail + 1 := by
    rw [avail_eq p hw hr, avail_eq { p with rb.r := nextIndex p.cfg.cap p.rb.r } hw (nextIndex_lt (by omega) _)]
    simp only [nextIndex_eq hr]
    split_ifs <;> omega
  unfold Inst.unread
  rw [havail, List.range_succ_eq_map, List.map_cons, List.map_map, Nat.add_zero, Nat.mod_eq_of_lt hr]
  congr 1
  refine List.map_congr_left fun j _ => ?_
  simp only [Function.comp_apply, nextIndex, Nat.mod_add_mod, Nat.add_assoc, Nat.succ_eq_add_one, Nat.add_comm 1 j]

/-- RB_CLEAR leaves no byte unread (R155). -/
theorem Inst.unread_cleared {p : Inst} (h : p.RingSound) : ({ p with rb.r := p.rb.w } : Inst).unread = [] := by
  have havail : ({ p with rb.r := p.rb.w } : Inst).avail = 0 := by
    rw [avail_eq { p with rb.r := p.rb.w } h.1 h.1]
    simp
  simp [Inst.unread, havail]

/-- The unread bytes are the ring's and the capacity's. -/
theorem Inst.unread_congr {p q : Inst} (hrb : q.rb = p.rb) (hcfg : q.cfg = p.cfg) : q.unread = p.unread := by
  simp only [Inst.unread, Inst.avail, hrb, hcfg]

/-! ### Blocks that differ in unobservable registers -/

/-- Alike blocks whose rings are sound, so that unread bytes are what RB_POP and RB_PEEK read. -/
def Inst.AlikeSound (p q : Inst) : Prop := Inst.Alike p q ∧ p.RingSound ∧ q.RingSound

/-- A tick's engine steps keep a sound ring sound. -/
theorem Inst.ringSound_engines {p : Inst} (h : p.RingSound) (W timer : Nat) (pin start : Bool) :
    (p.engines W timer pin start).RingSound := by
  unfold Inst.RingSound
  rw [Inst.engines_rb, Inst.engines_cfg]
  rcases p.captureStep_cases W timer pin with ⟨-, -, heq⟩ | ⟨-, -, heq⟩ | ⟨-, -, heq⟩ <;> rw [heq]
  · exact h
  · exact h
  · have hpush := Inst.ringSound_push h p.rx.shift
    rwa [Inst.RingSound, Inst.push_cfg] at hpush

section engines
variable {W timer : Nat} {p q : Inst}

/-- Alike transmit engines step alike, on the pin and on the port: a busy one's registers are equal, an idle one does nothing
(R26, R27). -/
theorem Inst.alike_txStep (hcfg : q.cfg = p.cfg) (hport : q.port = p.port) (hline : q.tx.line = p.tx.line)
    (hbusy : q.tx.busy = p.tx.busy) (htx : p.tx.busy = true → q.tx = p.tx) :
    (q.txStep W timer).port = (p.txStep W timer).port ∧ (q.txStep W timer).tx.line = (p.txStep W timer).tx.line ∧
      (q.txStep W timer).tx.busy = (p.txStep W timer).tx.busy ∧
      ((p.txStep W timer).tx.busy = true → (q.txStep W timer).tx = (p.txStep W timer).tx) := by
  by_cases hb : p.tx.busy = true
  · obtain ⟨ht, hp⟩ := Inst.txStep_tx_congr W timer (htx hb) hcfg hport
    exact ⟨hp, congrArg Txe.line ht, congrArg Txe.busy ht, fun _ => ht⟩
  · have hidle : p.tx.busy = false := by simpa using hb
    rw [p.txStep_of_idle W timer hidle, q.txStep_of_idle W timer (hbusy.trans hidle)]
    exact ⟨hport, hline, hbusy, htx⟩

/-- Alike blocks complete a frame in the same tick. -/
theorem Inst.alike_txCompletes (hbusy : q.tx.busy = p.tx.busy) (htx : p.tx.busy = true → q.tx = p.tx) :
    q.txCompletes W timer = p.txCompletes W timer := by
  by_cases hb : p.tx.busy = true
  · simp only [Inst.txCompletes, Inst.txDue, htx hb]
  · have hidle : p.tx.busy = false := by simpa using hb
    rw [p.txCompletes_of_idle W timer hidle, q.txCompletes_of_idle W timer (hbusy.trans hidle)]

/-- Alike blocks finish a capture in the same tick. -/
theorem Inst.alike_stopDue (hbusy : q.rx.busy = p.rx.busy) (hrx : p.rx.busy = true → q.rx = p.rx) :
    q.stopDue W timer = p.stopDue W timer := by
  by_cases hb : p.rx.busy = true
  · simp only [Inst.stopDue, Inst.rxDue, hrx hb]
  · have hidle : p.rx.busy = false := by simpa using hb
    rw [p.stopDue_of_idle W timer hidle, q.stopDue_of_idle W timer (hbusy.trans hidle)]

/-- The capture step reads the capture registers and the bit period, and pushes the byte into the ring as it is. -/
theorem Inst.captureStep_congr {pin : Bool} (hcfg : q.cfg = p.cfg) (hrx : q.rx = p.rx) :
    (q.captureStep W timer pin).rx = (p.captureStep W timer pin).rx ∧
      ((q.captureStep W timer pin).rb = q.rb ∧ (p.captureStep W timer pin).rb = p.rb ∨
        (q.captureStep W timer pin).rb = (q.push p.rx.shift).rb ∧
          (p.captureStep W timer pin).rb = (p.push p.rx.shift).rb) := by
  have hsample : q.sampleDue W timer = p.sampleDue W timer := by simp only [Inst.sampleDue, Inst.rxDue, hrx]
  have hstop : q.stopDue W timer = p.stopDue W timer := by simp only [Inst.stopDue, Inst.rxDue, hrx]
  unfold Inst.captureStep
  rw [hsample, hstop]
  cases p.sampleDue W timer with
  | true => simp [hrx, hcfg]
  | false =>
    cases p.stopDue W timer with
    | true => simp [hrx]
    | false => simp [hrx]

/-- Alike capture engines are alike after a tick: busy ones by equal steps, a capture that starts by setting every register
(R29, R30, R123). -/
theorem Inst.alike_rx_engines {pin start : Bool} (hcfg : q.cfg = p.cfg) (hprev : q.rx.prev = p.rx.prev)
    (hpend : q.rx.edgePending = p.rx.edgePending) (hbusy : q.rx.busy = p.rx.busy) (hrx : p.rx.busy = true → q.rx = p.rx) :
    (q.engines W timer pin start).rx.prev = (p.engines W timer pin start).rx.prev ∧
      (q.engines W timer pin start).rx.edgePending = (p.engines W timer pin start).rx.edgePending ∧
      (q.engines W timer pin start).rx.busy = (p.engines W timer pin start).rx.busy ∧
      ((p.engines W timer pin start).rx.busy = true →
        (q.engines W timer pin start).rx = (p.engines W timer pin start).rx) := by
  have hedge : q.edgeSeen pin = p.edgeSeen pin := by simp only [Inst.edgeSeen, hcfg, hprev]
  simp only [Inst.engines_rx, hedge, hpend, hcfg, hprev, Inst.alike_stopDue hbusy hrx, true_and]
  cases start with
  | true => simp [hcfg]
  | false =>
    simp only [Bool.false_eq_true, if_false]
    by_cases hb : p.rx.busy = true
    · simp only [(Inst.captureStep_congr hcfg (hrx hb)).1, implies_true, and_self]
    · have hidle : p.rx.busy = false := by simpa using hb
      rw [p.captureStep_of_idle W timer pin hidle, q.captureStep_of_idle W timer pin (hbusy.trans hidle)]
      exact ⟨hbusy, fun h => absurd h hb⟩

/-- Alike rings are alike after a tick: a push puts the same byte behind the same unread bytes. -/
theorem Inst.alike_rb_engines {pin start : Bool} (hcfg : q.cfg = p.cfg) (hw : q.rb.w = p.rb.w) (hr : q.rb.r = p.rb.r)
    (hunread : q.unread = p.unread) (hbusy : q.rx.busy = p.rx.busy) (hrx : p.rx.busy = true → q.rx = p.rx)
    (hp : p.RingSound) (hq : q.RingSound) :
    (q.engines W timer pin start).rb.w = (p.engines W timer pin start).rb.w ∧
      (q.engines W timer pin start).rb.r = (p.engines W timer pin start).rb.r ∧
      (q.engines W timer pin start).unread = (p.engines W timer pin start).unread := by
  have hsame : (q.engines W timer pin start).rb = q.rb ∧ (p.engines W timer pin start).rb = p.rb ∨
      (q.engines W timer pin start).rb = (q.push p.rx.shift).rb ∧
        (p.engines W timer pin start).rb = (p.push p.rx.shift).rb := by
    rw [Inst.engines_rb, Inst.engines_rb]
    by_cases hb : p.rx.busy = true
    · exact (Inst.captureStep_congr hcfg (hrx hb)).2
    · have hidle : p.rx.busy = false := by simpa using hb
      rw [p.captureStep_of_idle W timer pin hidle, q.captureStep_of_idle W timer pin (hbusy.trans hidle)]
      exact .inl ⟨rfl, rfl⟩
  rcases hsame with ⟨hqe, hpe⟩ | ⟨hqe, hpe⟩
  · rw [Inst.unread_congr hqe (by simp), Inst.unread_congr hpe (by simp), hqe, hpe]
    exact ⟨hw, hr, hunread⟩
  · have havail : q.avail = p.avail := by simp only [Inst.avail, hw, hr, hcfg]
    rw [Inst.unread_congr (p := q.push p.rx.shift) hqe (by simp), Inst.unread_congr (p := p.push p.rx.shift) hpe (by simp),
      hqe, hpe, Inst.unread_push hp, Inst.unread_push hq, havail, hcfg, hunread, Inst.push_w_of_lt _ _ hp.1,
      Inst.push_w_of_lt _ _ hq.1, hcfg, hw]
    exact ⟨rfl, by simpa using hr, rfl⟩

end engines

/-- Alike blocks are alike after a tick's engine steps. -/
theorem Inst.alikeSound_engines {W timer : Nat} {pin start : Bool} {p q : Inst} (h : Inst.AlikeSound p q) :
    Inst.AlikeSound (p.engines W timer pin start) (q.engines W timer pin start) := by
  obtain ⟨⟨hcfg, hport, henv, hw, hr, hunread, hline, htxb, htx, hprev, hpend, hrxb, hrx⟩, hp, hq⟩ := h
  obtain ⟨hport', hline', htxb', htx'⟩ := Inst.alike_txStep (W := W) (timer := timer) hcfg hport hline htxb htx
  obtain ⟨hw', hr', hunread'⟩ :=
    Inst.alike_rb_engines (W := W) (timer := timer) (pin := pin) (start := start) hcfg hw hr hunread hrxb hrx hp hq
  refine ⟨⟨by simpa using hcfg, by simpa using hport', by simp [henv], hw', hr', hunread', ?_, ?_, ?_,
    Inst.alike_rx_engines hcfg hprev hpend hrxb hrx⟩, Inst.ringSound_engines hp W timer pin start,
    Inst.ringSound_engines hq W timer pin start⟩ <;> simpa only [Inst.engines_tx]

/-- Alikeness in unobservable registers is a simulation. -/
theorem Inst.simulation_alike (W timer : Nat) : Inst.Simulation W timer timer Inst.AlikeSound where
  cfg := fun _ _ ⟨⟨hcfg, _⟩, _⟩ => hcfg
  port := fun _ _ ⟨⟨_, hport, _⟩, _⟩ => hport
  env := fun _ _ ⟨⟨_, _, henv, _⟩, _⟩ => henv
  writeIndex := fun _ _ ⟨⟨_, _, _, hw, _⟩, _⟩ => hw
  txBusy := fun _ _ ⟨⟨_, _, _, _, _, _, _, hbusy, _⟩, _⟩ => hbusy
  edgePending := fun _ _ ⟨⟨_, _, _, _, _, _, _, _, _, _, hpend, _⟩, _⟩ => hpend
  rxBusy := fun _ _ ⟨⟨_, _, _, _, _, _, _, _, _, _, _, hbusy, _⟩, _⟩ => hbusy
  stopDue := fun _ _ ⟨⟨_, _, _, _, _, _, _, _, _, _, _, hbusy, hrx⟩, _⟩ => Inst.alike_stopDue hbusy hrx
  txCompletes := fun _ _ ⟨⟨_, _, _, _, _, _, _, hbusy, htx, _⟩, _⟩ => Inst.alike_txCompletes hbusy htx
  engines := fun _ _ _ _ => Inst.alikeSound_engines
  hostPhase := fun p q m ⟨⟨hcfg, hport, henv, halike⟩, hsound⟩ => by
    refine ⟨⟨hcfg, ?_, ?_, halike⟩, hsound⟩
    · rw [Inst.hostPhase_port, Inst.hostPhase_port, hport]
    · rw [Inst.hostPhase_env, Inst.hostPhase_env, henv, hport]
  emptied := fun p q ⟨⟨hcfg, hport, halike⟩, hsound⟩ => ⟨⟨hcfg, by simp only [hport], halike⟩, hsound⟩

/-- An answer, and a read index moved alike, keep blocks alike. -/
theorem Inst.alikeSound_answer {p q : Inst} (h : Inst.AlikeSound p q) (st : Status) (v : Nat) {r r' : Nat} (heq : r' = r)
    (hr : r < p.cfg.cap) (hunread : ({ q with rb.r := r' } : Inst).unread = ({ p with rb.r := r } : Inst).unread) :
    Inst.AlikeSound { p.respond st v with rb.r := r } { q.respond st v with rb.r := r' } := by
  obtain ⟨⟨hcfg, hport, henv, hw, -, -, hengines⟩, ⟨hwp, -, hmp⟩, ⟨hwq, -, hmq⟩⟩ := h
  exact ⟨⟨hcfg, by simp only [Inst.respond, hport], henv, hw, heq, hunread, hengines⟩, ⟨hwp, hr, hmp⟩,
    ⟨hwq, hcfg ▸ heq ▸ hr, hmq⟩⟩

/-- Alike rings that are not empty have the same byte at the read index, and alike bytes after it. -/
theorem Inst.AlikeSound.oldest {p q : Inst} (h : Inst.AlikeSound p q) (hne : p.rb.w ≠ p.rb.r) :
    Memory.read q.rb.mem q.rb.r = Memory.read p.rb.mem p.rb.r ∧
      ({ q with rb.r := nextIndex q.cfg.cap q.rb.r } : Inst).unread =
        ({ p with rb.r := nextIndex p.cfg.cap p.rb.r } : Inst).unread := by
  obtain ⟨⟨-, -, -, hw, hr, hunread, -⟩, hp, hq⟩ := h
  rw [Inst.unread_cons hp hne, Inst.unread_cons hq (by rwa [hw, hr])] at hunread
  exact List.cons_eq_cons.1 hunread

/-- Every word answers alike on alike blocks: RB_POP and RB_PEEK read unread bytes only (R66). -/
theorem Inst.performsAlike_alike (timer : Nat) (w : Word) : Inst.PerformsAlike timer timer Inst.AlikeSound w := by
  intro p q p' hpq h
  have ⟨⟨hcfg, hport, henv, hw, hr, hunread, _, _, _, hrx⟩, hp, hq⟩ := hpq
  have hanswer : ∀ st v, Inst.AlikeSound (p.respond st v) (q.respond st v) := fun st v =>
    Inst.alikeSound_answer hpq st v hr hp.2.1 hunread
  have hempty : q.ringEmpty = p.ringEmpty := by simp only [Inst.ringEmpty, hw, hr]
  have hne : p.ringEmpty = false → p.rb.w ≠ p.rb.r := by simp [Inst.ringEmpty]
  unfold Inst.performWord at h ⊢
  cases hd : decode w with
  | error _ =>
    rw [hd] at h
    cases h
    exact ⟨_, rfl, hanswer _ _⟩
  | ok i =>
    rw [hd] at h
    cases i with
    | txByte b =>
      simp only [Inst.perform, hcfg] at h ⊢
      cases h
      refine ⟨_, rfl, ?_⟩
      cases p.cfg.txPresent with
      | true =>
        have htx : (q.startFrame timer b).tx = (p.startFrame timer b).tx := by
          rw [Inst.startFrame_tx, Inst.startFrame_tx, hcfg]
        exact ⟨⟨hcfg, hport, henv, hw, hr, hunread, rfl, rfl, fun _ => htx, hrx⟩, hp, hq⟩
      | false => exact hanswer _ _
    | rbPop =>
      simp only [Inst.perform, hempty, p.memRead_of_lt hp.2.1, q.memRead_of_lt hq.2.1] at h ⊢
      cases he : p.ringEmpty with
      | true =>
        rw [he] at h
        cases h
        exact ⟨_, rfl, hanswer _ _⟩
      | false =>
        rw [he] at h
        cases h
        obtain ⟨hbyte, hrest⟩ := Inst.AlikeSound.oldest hpq (hne he)
        refine ⟨_, rfl, ?_⟩
        rw [hbyte]
        exact Inst.alikeSound_answer hpq _ _ (by rw [hcfg, hr]) (nextIndex_lt (Nat.zero_lt_of_lt hp.1) _) hrest
    | rbPeek =>
      simp only [Inst.perform, hempty, p.memRead_of_lt hp.2.1, q.memRead_of_lt hq.2.1] at h ⊢
      cases he : p.ringEmpty with
      | true =>
        rw [he] at h
        cases h
        exact ⟨_, rfl, hanswer _ _⟩
      | false =>
        rw [he] at h
        cases h
        refine ⟨_, rfl, ?_⟩
        rw [(Inst.AlikeSound.oldest hpq (hne he)).1]
        exact hanswer _ _
    | rbAvail =>
      cases h
      have havail : q.avail = p.avail := by simp only [Inst.avail, hw, hr, hcfg]
      exact ⟨_, rfl, havail ▸ hanswer _ _⟩
    | rbClear =>
      cases h
      exact ⟨_, rfl, Inst.alikeSound_answer hpq _ _ hw hp.1 ((Inst.unread_cleared hq).trans (Inst.unread_cleared hp).symm)⟩
    | gieClr =>
      cases h
      exact ⟨_, rfl, hanswer _ _⟩
    | gieSet =>
      cases h
      exact ⟨_, rfl, hanswer _ _⟩
    | tmrRead =>
      cases h
      exact ⟨_, rfl, hanswer _ _⟩

/-- A reachable domain's rings are sound (R38 (a)). -/
theorem State.Inv.ringSound {s : State} (h : s.Inv) {k : Nat} {p : Inst} (hp : s.insts[k]? = some p) : p.RingSound := by
  obtain ⟨-, -, hok, -⟩ := (State.inv_iff s).1 h
  obtain ⟨-, -, ⟨hw, hr, hwf, -⟩, -⟩ := hok k p hp
  exact ⟨hw, hr, hwf⟩

/-- Settles O48: with the rings that the invariant makes sound, alikeness is a simulation that every word keeps. -/
theorem unobservableRegisters : Obligations.UnobservableRegisters := by
  intro s t s' hs ht h e
  obtain ⟨heq, hlen, hblocks⟩ := h
  have htimer : t.timer = s.timer := by rw [heq]
  have hrel : State.Related Inst.AlikeSound s t := State.related_iff.2
    ⟨htimer ▸ heq, hlen, fun k p q hp hq => ⟨hblocks k p q hp hq, State.Inv.ringSound hs hp, State.Inv.ringSound ht hq⟩⟩
  have hR := Inst.simulation_alike s.cfg.timerW s.timer
  have hword : ∀ k w, s.TakesWord k w → Inst.PerformsAlike s.timer t.timer Inst.AlikeSound w := fun _ w _ =>
    htimer ▸ Inst.performsAlike_alike s.timer w
  obtain ⟨t', e', hrel'⟩ := step_related (t := t) (htimer ▸ hR) hrel hword e
  obtain ⟨-, hts, -⟩ := step_domain e
  obtain ⟨-, htt, -⟩ := step_domain e'
  have htimer' : t'.timer = s'.timer := by rw [htt, hts, hrel.cfg, htimer]
  obtain ⟨heq', hlen', hblocks'⟩ := State.related_iff.1 hrel'
  exact ⟨t', e', htimer' ▸ heq', hlen', fun k p q hp hq => (hblocks' k p q hp hq).1⟩

end Sys2Proof.Machine
end

section
/-! PROOFS, family 10_state.md: the tick rule by rule: the selections (R44 to R46), the executed word (R41, R84), the timer (R31),
`gie` (R32), the host phase (R40, R180) and the wired pins (R47). -/
namespace Sys2Proof.Machine

/-! ### The selections -/

/-- A command is eligible where its block offers it and nothing in the domain is busy (R44). -/
theorem State.eligible_iff {s : State} {go : Option Nat} {k : Nat} :
    s.Eligible go k ↔ (s.txActive || s.rxActive || go.isSome) = false ∧ k ∈ s.indices Inst.offers := by
  have hoffer : k ∈ s.indices Inst.offers ↔
      ∃ p w, s.insts[k]? = some p ∧ p.port.cmd = some w ∧ p.port.resp = none := by
    simp only [State.mem_indices, Inst.offers_iff, exists_and_left]
  have hidle : (s.txActive || s.rxActive || go.isSome) = false ↔
      (∀ q ∈ s.insts, q.tx.busy = false ∧ q.rx.busy = false) ∧ go = none := by
    simp [State.txActive, State.rxActive, forall_and]
  rw [hoffer, hidle, State.Eligible, and_comm]

theorem State.commandSelect_of_eligible {s : State} {go : Option Nat} {k : Nat} (h : s.Eligible go k) :
    s.commandSelect go = choose s.commandPick (s.indices Inst.offers) := by
  rw [State.commandSelect, (State.eligible_iff.1 h).1]
  rfl

/-- A block is ready to capture where the model's own check says so (R46). -/
theorem State.readyToCapture_iff {s : State} {k : Nat} : s.ReadyToCapture k ↔ k ∈ s.indices (·.ready s.gie) := by
  simp [State.ReadyToCapture, State.mem_indices, Inst.ready, and_assoc]

theorem State.captureSelect_of_idle {s : State} (h : ∀ q ∈ s.insts, q.rx.busy = false) :
    s.captureSelect = choose s.capturePick (s.indices (·.ready s.gie)) := by
  have hrx : s.rxActive = false := List.any_eq_false.2 fun q hq => by simp [h q hq]
  rw [State.captureSelect, hrx]
  rfl

/-- The engines' steps leave the command slot alone. -/
theorem State.enginesOf_cmd (s : State) (k : Nat) (p : Inst) : (s.enginesOf k p).port.cmd = p.port.cmd := by
  rw [State.enginesOf, Inst.engines_port]
  rcases p.txStep_cases s.cfg.timerW s.timer with ⟨-, h⟩ | ⟨-, -, h⟩ | ⟨-, -, h⟩ <;> rw [h] <;> rfl

/-- Settles O23: the choice is of a list that holds exactly the eligible commands, and only the chosen block's slot is emptied. -/
theorem commandSelection : Obligations.CommandSelection := by
  refine ⟨fun s go k h => ?_, fun s go k h => ⟨?_, ?_⟩, fun s t k p q h hp hq hno => ?_⟩
  · obtain ⟨htx, hrx, rfl, hp⟩ := State.commandSelect_some h
    exact State.eligible_iff.2 ⟨by simp [htx, hrx], State.mem_indices.2 hp⟩
  · rw [State.commandSelect_of_eligible h]
    exact Option.isSome_iff_exists.1 (choose_isSome (List.ne_nil_of_mem (State.eligible_iff.1 h).2))
  · obtain ⟨c, hc⟩ := choose_complete (State.eligible_iff.1 h).2
    exact ⟨c, (State.commandSelect_of_eligible (s := { s with commandIn := [c] }) h).trans hc⟩
  · rcases step_block h hp hq with ⟨-, rfl⟩ | ⟨w, hw, -⟩
    · exact State.enginesOf_cmd _ k p
    · exact absurd hw.1 hno

/-- The latch of an idle capture engine is kept by a tick (R121). -/
theorem step_edgePending_of_idle {s t : State} {k : Nat} {p q : Inst} (h : step s = .next t)
    (hp : s.hostPhase.insts[k]? = some p) (hq : t.insts[k]? = some q) (hidle : p.rx.busy = false)
    (hpend : p.rx.edgePending = true) : q.rx.edgePending = true := by
  rw [(step_block_rx h hp hq).1, State.enginesOf, Inst.engines_rx]
  simp [hpend, p.stopDue_of_idle _ _ hidle]

/-- Settles O24: the choice is of a list that holds exactly the ready blocks, and only a finish clears a latch. -/
theorem captureSelection : Obligations.CaptureSelection := by
  refine ⟨fun s k h => ⟨?_, fun q hq => ?_⟩, fun s k hk hidle => ⟨?_, ?_⟩, fun s t k q h hk hq => ?_⟩
  · exact State.readyToCapture_iff.2 (State.mem_indices.2 (State.captureSelect_some h).2)
  · simpa using List.any_eq_false.1 (State.captureSelect_some h).1 q hq
  · rw [State.captureSelect_of_idle hidle]
    exact Option.isSome_iff_exists.1 (choose_isSome (List.ne_nil_of_mem (State.readyToCapture_iff.1 hk)))
  · obtain ⟨c, hc⟩ := choose_complete (State.readyToCapture_iff.1 hk)
    exact ⟨c, (State.captureSelect_of_idle (s := { s with captureIn := [c] }) hidle).trans hc⟩
  · obtain ⟨p, hp, -, hidle, hpend, -⟩ := hk
    exact step_edgePending_of_idle h (p := p.hostPhase (p.hostMove s.dom s.tick k))
      (by rw [State.getElem?_hostPhase, hp, Option.map_some]) hq hidle hpend

/-! ### The executed word -/

/-- Settles O21: the step of a tick that takes a word, with the word's command for `execute`. -/
theorem stepRunsDecodedCommand : Obligations.StepRunsDecodedCommand := by
  intro s k w i hv hpush hsel hword hd
  have hexec : execute w ((s.hostPhase.engines none).accept k) = exec i ((s.hostPhase.engines none).accept k) := by
    simp only [execute, hd]
  rw [step_of_takesWord hv hpush ⟨hsel, hword⟩, hexec]

/-- Every 16-bit word is a table word (R90). -/
theorem tableWord_toNat (w : Word) : tableWord 16 w.toNat = w := by
  rw [tableWord, Nat.mod_eq_of_lt w.isLt, BitVec.ofNat_toNat, BitVec.setWidth_eq]

/-- The blocks of a domain about to have a word accepted, after the host phase: idle, without an edge, and with no command but
the word on block 0, whose response slot is empty (log entry 13). -/
theorem State.offer_hostPhase_block {s : State} {w : Word} {k : Nat} {p : Inst}
    (h : (s.offer w).hostPhase.insts[k]? = some p) :
    p.tx.busy = false ∧ p.rx.busy = false ∧ p.rx.edgePending = false ∧
      (k = 0 → p.port = { cmd := some w, resp := none }) ∧ (k ≠ 0 → p.port.cmd = none) := by
  obtain ⟨r, hr, rfl⟩ := State.hostPhase_block h
  rw [State.offer, List.getElem?_mapIdx, Option.map_eq_some_iff] at hr
  obtain ⟨r₀, -, rfl⟩ := hr
  by_cases hk : k = 0
  · simp only [if_pos hk]
    exact ⟨rfl, rfl, rfl, fun _ => rfl, fun hne => absurd hk hne⟩
  · simp only [if_neg hk]
    exact ⟨rfl, rfl, rfl, fun h0 => absurd h0 hk, fun _ => rfl⟩

/-- No push is due where no block captures. -/
theorem State.pushOutOfRange_of_idle {s : State} (h : ∀ (k : Nat) (p : Inst), s.insts[k]? = some p → p.rx.busy = false) :
    s.pushOutOfRange = false :=
  (any_eq_false_iff_getElem? _ _).2 fun k p hp => by rw [p.stopDue_of_idle _ _ (h k p hp), Bool.false_and]

/-- In the tick after an offer block 0 takes the offered word (log entry 13): its command is the only one. -/
theorem State.offer_takesWord {s : State} {w : Word} (hne : s.insts ≠ []) : (s.offer w).TakesWord 0 w := by
  obtain ⟨p, hp⟩ : ∃ p, (s.offer w).hostPhase.insts[0]? = some p :=
    ⟨_, List.getElem?_eq_getElem (by simpa [State.offer] using List.length_pos_iff.2 hne)⟩
  obtain ⟨-, -, -, hport, -⟩ := State.offer_hostPhase_block hp
  have hgo : (s.offer w).hostPhase.captureSelect = none := Option.eq_none_iff_forall_ne_some.2 fun k hk => by
    obtain ⟨-, q, hq, hready⟩ := State.captureSelect_some hk
    obtain ⟨-, -, hpend, -⟩ := State.offer_hostPhase_block hq
    simp [Inst.ready, hpend] at hready
  have helig : (s.offer w).hostPhase.Eligible none 0 := by
    refine ⟨⟨p, w, hp, by rw [hport rfl], by rw [hport rfl]⟩, fun q hq => ?_, rfl⟩
    obtain ⟨k, hk⟩ := List.mem_iff_getElem?.1 hq
    obtain ⟨htx, hrx, -⟩ := State.offer_hostPhase_block hk
    exact ⟨htx, hrx⟩
  obtain ⟨j, hj⟩ := (commandSelection.2.1 _ _ _ helig).1
  obtain ⟨q, w', hq, hcmd, -⟩ := State.command_of_select hj
  obtain ⟨-, -, -, -, hnone⟩ := State.offer_hostPhase_block hq
  have hj0 : j = 0 := by
    by_contra hj0
    cases hcmd.symm.trans (hnone hj0)
  refine ⟨by rw [hgo, hj, hj0], ?_⟩
  rw [State.command, hp, Option.bind_eq_bind, Option.bind_some, hport rfl]

/-- Settles O22: a placed word is the only command, and nothing in its domain is busy or about to be. -/
theorem fetchedWordRuns : Obligations.FetchedWordRuns := by
  intro s w hv
  have hcfg : (s.offer w).insts.map Inst.cfg = s.insts.map Inst.cfg := by
    refine List.ext_getElem? fun k => ?_
    rw [List.getElem?_map, List.getElem?_map, State.offer, List.getElem?_mapIdx, Option.map_map]
    congr 1
    funext p
    by_cases hk : k = 0
    · simp only [Function.comp_apply, if_pos hk]
      rfl
    · simp only [Function.comp_apply, if_neg hk]
      rfl
  have hne : s.insts ≠ [] := List.length_pos_iff.1 ((State.configValid_iff s).1 hv).1
  rw [State.withFetchWord, tableWord_toNat]
  refine step_of_takesWord ((State.configValid_congr (s := s) (t := s.offer w) rfl hcfg).trans hv)
    (State.pushOutOfRange_of_idle fun k p hp => ?_) (State.offer_takesWord hne)
  obtain ⟨-, hrx, -⟩ := State.offer_hostPhase_block hp
  exact hrx

/-! ### The timer and the interrupt enable -/

/-- Settles O25: by induction on the number of ticks, each of which adds one (R31). -/
theorem timerCountsTicks : Obligations.TimerCountsTicks := by
  intro n
  induction n with
  | zero =>
    intro s t hs h
    cases h
    exact ⟨(Nat.mod_eq_of_lt hs).symm, rfl⟩
  | succ n ih =>
    intro s t hs h
    unfold ticks at h
    split at h
    · next u hu =>
      obtain ⟨hcfg, htimer, htick, -⟩ := step_domain hu
      obtain ⟨ht, hn⟩ := ih u t (by rw [htimer, hcfg]; exact wrapTo_lt _ _) h
      rw [ht, hn, htimer, htick, hcfg, wrapTo, Nat.mod_add_mod]
      exact ⟨by rw [Nat.add_assoc, Nat.add_comm 1], by omega⟩
    · cases h
    · cases h

/-- Settles O32: `gie` changes by a completed frame or by what the accepted word makes of it. -/
theorem gieWriters : Obligations.GieWriters := by
  intro s t h hne
  obtain ⟨-, -, -, -, ⟨-, hgie⟩ | ⟨k, w, p, hk, -, hgie⟩⟩ := step_domain h
  · left
    have hends : s.hostPhase.insts.any (·.txCompletes s.cfg.timerW s.timer) = true := by
      by_contra hno
      exact hne (by rw [hgie, Bool.eq_false_iff.2 hno, Bool.or_false])
    refine ⟨by rw [hgie, hends, Bool.or_true], ?_⟩
    obtain ⟨q, hq, hcomp⟩ := List.any_eq_true.1 hends
    obtain ⟨k, hk⟩ := List.mem_iff_getElem?.1 hq
    obtain ⟨p, hp, rfl⟩ := State.hostPhase_block hk
    replace hcomp : p.txCompletes s.cfg.timerW s.timer = true := hcomp
    refine ⟨p, List.mem_of_getElem? hp, ?_⟩
    simpa only [Inst.txCompletes, Inst.txDue, deadlineMet, Bool.and_eq_true, decide_eq_true_eq, Bool.not_eq_true',
      decide_eq_false_iff_not, Nat.not_lt, and_assoc] using hcomp
  · right
    rw [hgie] at hne ⊢
    refine ⟨k, (Inst.gieAfterWord_ne hne).imp ?_ ?_⟩
    · rintro ⟨hg, rfl⟩
      exact ⟨hg, hk⟩
    · rintro ⟨hg, rfl | ⟨b, rfl⟩⟩
      · exact ⟨hg, .inl hk⟩
      · exact ⟨hg, .inr ⟨b, hk⟩⟩

/-! ### The host phase -/

/-- Settles O33: the host phase writes the two slots of the port and the host's receipts only. -/
theorem hostPhaseMoves : Obligations.HostPhaseMoves := by
  intro s k p hp
  refine ⟨rfl, rfl, p.hostPhase (p.hostMove s.dom s.tick k), by rw [State.getElem?_hostPhase, hp, Option.map_some], rfl, rfl,
    rfl, rfl, fun w hw => ?_, fun hw => ?_, fun hr => ?_, fun r hr => ⟨fun htake => ?_, fun htake => ?_⟩⟩
  · rw [Inst.hostPhase_port, hw]
    rfl
  · rw [Inst.hostPhase_port, hw]
    rfl
  · simp [hr, respAfter, respTaken]
  · simp [hr, htake, respAfter, respTaken]
  · simp [hr, htake, respAfter, respTaken]

/-! ### The wired pins -/

/-- A tick of the domains from the `d`-th on is a tick of each of them. -/
theorem System.stepFrom_getElem? {y : System} {ns ns' : List Node} {d : Nat} (h : y.stepFrom d ns = .next ns') {j : Nat}
    {n n' : Node} (hn : ns[j]? = some n) (hn' : ns'[j]? = some n') : y.stepNode (d + j) n = .next n' := by
  induction ns generalizing d ns' j with
  | nil => cases hn
  | cons m ns ih =>
    unfold System.stepFrom at h
    split at h
    · next m' hm =>
      split at h
      · next ms' hms =>
        cases h
        cases j with
        | zero =>
          cases hn
          cases hn'
          exact hm
        | succ j =>
          rw [Nat.add_comm j, ← Nat.add_assoc]
          exact ih hms hn hn'
      · cases h
      · cases h
    · cases h
    · cases h

/-- A domain's tick in a system is a step of the domain with its inputs set. -/
theorem System.step_node {y y' : System} (h : y.step = .next y') {d : Nat} {n n' : Node} (hn : y.nodes[d]? = some n)
    (hn' : y'.nodes[d]? = some n') : Machine.step (y.prepared d n) = .next n'.state := by
  unfold System.step at h
  split at h
  · next ns hns =>
    cases h
    have hnode := System.stepFrom_getElem? hns hn hn'
    rw [Nat.zero_add, System.stepNode] at hnode
    split at hnode
    · next t ht =>
      cases hnode
      exact ht
    · cases hnode
    · cases hnode
  · cases h
  · cases h

/-- The first wire that ends at a pin and carries a level sets the pin (R47, log entry 18). -/
theorem System.wireLevel_of_find {y : System} {w : Wire} {l : Bool}
    (hw : (y.wires.find? fun v => decide (v.sink = w.sink)) = some w) (hl : y.txLevel w.source = some l) :
    y.wireLevel w.sink = some l := by
  obtain ⟨-, before, after, hwires, hbefore⟩ := List.find?_eq_some_iff_append.1 hw
  have hskip : before.findSome? (fun v => if v.sink = w.sink then y.txLevel v.source else none) = none :=
    List.findSome?_eq_none_iff.2 fun v hv => if_neg (by simpa using hbefore v hv)
  rw [System.wireLevel, hwires, List.findSome?_append, hskip, Option.none_or, List.findSome?_cons, if_pos rfl, hl]

/-- A wired pin's level of the tick is the wire's (R47). -/
theorem System.prepared_block {y : System} {d k : Nat} {n : Node} {p : Inst} {l : Bool}
    (hp : n.state.insts[k]? = some p) (hl : y.wireLevel ⟨d, k⟩ = some l) :
    ∃ r, (y.prepared d n).hostPhase.insts[k]? = some r ∧ r.cfg = p.cfg ∧ r.env.rxIn = l :: p.env.rxIn.tail := by
  have hwired : (y.wired d n.state).insts[k]? = some { p with env.rxIn := l :: p.env.rxIn.tail } := by
    rw [System.wired, List.getElem?_mapIdx, hp, Option.map_some, hl]
    rfl
  rw [State.getElem?_hostPhase, System.prepared]
  cases n.agent with
  | none =>
    simp only [hwired, Option.map_some]
    exact ⟨_, rfl, rfl, rfl⟩
  | some a =>
    simp only [HostAgent.drive, List.getElem?_mapIdx, hwired, Option.map_some]
    exact ⟨_, rfl, rfl, rfl⟩

/-- Settles O54: the wire's level stands first in the pin's script, and the edge detector's history takes it (R47, R120). -/
theorem wiredPinShowsTransmitLine : Obligations.WiredPinShowsTransmitLine := by
  intro y y' w l n n' p q h hw hl hn hp hpin hn' hq
  obtain ⟨r, hr, hcfg, hlevel⟩ := System.prepared_block hp (System.wireLevel_of_find hw hl)
  rw [(step_block_rx (System.step_node h hn hn') hr hq).1, State.enginesOf, Inst.engines_rx]
  simp [hcfg, hpin, Inst.pinLevel, hlevel]

end Sys2Proof.Machine
end

section
/-! PROOFS, family 30_encoding.md: the command words: encoder and decoder are inverse to each other on the legal words (R81 to
R84), which words are legal (R85), the opcode table (R82), and the assembler (R91). -/
namespace Sys2Proof

/-! ### The fields of a word -/

/-- A word put together from its fields has these fields (R81). -/
theorem fields_append (r o : BitVec 4) (d : Byte) :
    rsvField (r ++ o ++ d : Word) = r ∧ opField (r ++ o ++ d : Word) = o ∧ dataField (r ++ o ++ d : Word) = d := by
  refine ⟨?_, ?_, BitVec.extractLsb'_append_eq_right⟩
  · rw [rsvField, BitVec.extractLsb'_append_eq_of_le (by decide)]
    exact BitVec.extractLsb'_append_eq_left
  · rw [opField, BitVec.extractLsb'_append_eq_of_le (by decide)]
    exact BitVec.extractLsb'_append_eq_right

theorem fields_encode (i : Instr) :
    rsvField (encode i) = 0#4 ∧ opField (encode i) = i.op ∧ dataField (encode i) = i.data := fields_append _ _ _

/-- The fields of a masked word are the masked fields. -/
theorem fields_and (w m : Word) :
    rsvField (w &&& m) = rsvField w &&& rsvField m ∧ opField (w &&& m) = opField w &&& opField m :=
  ⟨BitVec.extractLsb'_and, BitVec.extractLsb'_and⟩

theorem rsvField_eq_zero_iff (w : Word) : rsvField w = 0#4 ↔ w.toNat / 4096 = 0 := by
  rw [← BitVec.toNat_inj, rsvField, BitVec.extractLsb'_toNat, Nat.shiftRight_eq_div_pow, BitVec.toNat_ofNat]
  have := w.isLt
  omega

theorem opField_eq_iff (w : Word) (o : BitVec 4) : opField w = o ↔ w.toNat / 256 % 16 = o.toNat := by
  rw [← BitVec.toNat_inj, opField, BitVec.extractLsb'_toNat, Nat.shiftRight_eq_div_pow]

theorem dataField_eq (w : Word) : dataField w = BitVec.ofNat 8 (w.toNat % 256) := by
  apply BitVec.eq_of_toNat_eq
  rw [dataField, BitVec.extractLsb'_toNat, BitVec.toNat_ofNat, Nat.mod_mod, Nat.shiftRight_zero]

theorem dataField_eq_zero_iff (w : Word) : dataField w = 0#8 ↔ w.toNat % 256 = 0 := by
  rw [← BitVec.toNat_inj, dataField, BitVec.extractLsb'_toNat, BitVec.toNat_ofNat, Nat.zero_mod, Nat.shiftRight_zero]

/-! ### Decoding what the encoder made -/

/-- A word with the fields of a command decodes to it (R84): the converse of `decode_fields`. -/
theorem decode_of_fields {w : Word} {i : Instr} (hrsv : rsvField w = 0#4) (hop : opField w = i.op)
    (hdata : dataField w = i.data) : decode w = .ok i := by
  cases i <;> simp [decode, noOperand, hrsv, hop, hdata, Instr.op, Instr.data]

theorem decode_encode (i : Instr) : decode (encode i) = .ok i := by
  obtain ⟨hrsv, hop, hdata⟩ := fields_encode i
  exact decode_of_fields hrsv hop hdata

theorem decode_eq_ok_iff (w : Word) (i : Instr) : decode w = .ok i ↔ encode i = w :=
  ⟨encode_of_decode, fun h => h ▸ decode_encode i⟩

/-- No two commands have one word. -/
theorem encode_injective : Function.Injective encode := fun i j h =>
  Except.ok.inj ((decode_encode i).symm.trans (h ▸ decode_encode j))

end Sys2Proof

namespace Sys2Proof.Machine

/-- Settles O2: the encoded word has the command's fields, and these are what the decoder reads. -/
theorem decodeOfEncode : Obligations.DecodeOfEncode := fun i _ => decode_encode i

/-- Settles O3: the fields of a decoded word are those of its command, and they make up the whole word. -/
theorem encodeOfDecode : Obligations.EncodeOfDecode := fun _ _ => encode_of_decode

/-! ### The legal words -/

/-- The seven operations from 0x2 to 0x8 carry no data (R82). -/
theorem plainCommands_fields : ∀ i ∈ plainCommands, 2 ≤ i.op.toNat ∧ i.data = 0#8 := by decide

theorem plainCommands_cover_op : ∀ n < 9, 2 ≤ n → ∃ i ∈ plainCommands, i.op.toNat = n := by decide

/-- The legal words (R85): no reserved bit, an assigned operation code, and no data but TX_BYTE's. -/
theorem exists_decode_iff (w : Word) :
    (∃ i, decode w = .ok i) ↔
      w.toNat / 4096 = 0 ∧
        (w.toNat / 256 % 16 = 1 ∨ (2 ≤ w.toNat / 256 % 16 ∧ w.toNat / 256 % 16 ≤ 8 ∧ w.toNat % 256 = 0)) := by
  constructor
  · rintro ⟨i, hi⟩
    obtain ⟨hrsv, hop, hdata⟩ := decode_fields hi
    rw [rsvField_eq_zero_iff] at hrsv
    rw [opField_eq_iff] at hop
    rw [hop, ← dataField_eq_zero_iff, hdata]
    exact ⟨hrsv, by cases i <;> simp [Instr.op, Instr.data]⟩
  · rintro ⟨hrsv, hop | ⟨hlo, hhi, hdata⟩⟩
    · exact ⟨.txByte (dataField w), decode_of_fields ((rsvField_eq_zero_iff w).2 hrsv) ((opField_eq_iff w _).2 hop) rfl⟩
    · obtain ⟨i, hi, hop⟩ := plainCommands_cover_op _ (Nat.lt_succ_of_le hhi) hlo
      refine ⟨i, decode_of_fields ((rsvField_eq_zero_iff w).2 hrsv) ((opField_eq_iff w _).2 hop.symm) ?_⟩
      rw [(dataField_eq_zero_iff w).2 hdata, (plainCommands_fields i hi).2]

/-- The check of R85's list, stated apart from the decoder, accepts exactly what the decoder does. -/
theorem legalWord_iff (w : Word) : legalWord w = true ↔ ∃ i, decode w = .ok i := by
  rw [exists_decode_iff]
  simp only [legalWord, rsvClear, opAssigned, dataAllowed, Bool.and_eq_true, Bool.or_eq_true, beq_iff_eq, decide_eq_true_eq]
  omega

/-- Every command: TX_BYTE of each byte, and the seven without an operand. -/
def allCommands : List Instr := (List.finRange 256).map (fun b => .txByte (BitVec.ofFin b)) ++ plainCommands

theorem mem_allCommands (i : Instr) : i ∈ allCommands := by
  cases i with
  | txByte b => exact List.mem_append_left _ (List.mem_map.2 ⟨b.toFin, List.mem_finRange _, rfl⟩)
  | _ => exact List.mem_append_right _ (by decide)

theorem nodup_allCommands : allCommands.Nodup := by
  refine List.Nodup.append (List.Nodup.map (fun a b h => ?_) (List.nodup_finRange 256)) (by decide) ?_
  · exact BitVec.ofFin.inj (Instr.txByte.inj h)
  · intro i hi hplain
    obtain ⟨b, -, rfl⟩ := List.mem_map.1 hi
    exact absurd (plainCommands_fields _ hplain).1 (show ¬2 ≤ 1 by decide)

theorem length_allCommands : allCommands.length = 263 := by
  rw [allCommands, List.length_append, List.length_map, List.length_finRange]
  rfl

/-! ### The opcode table -/

theorem opcodeTable_mnemonic_inj :
    ∀ r ∈ opcodeTable, ∀ r' ∈ opcodeTable, r.mnemonic = r'.mnemonic → r = r' := by decide

/-- Every row but TX_BYTE's holds one word, that of its command. -/
theorem opcodeTable_plain : ∀ r ∈ opcodeTable.tail,
    r.mask = BitVec.allOnes 16 ∧ ∃ i ∈ plainCommands, encode i = r.value ∧ r.mnemonic = i.mnemonic := by decide

/-- A word of a row decodes to a command of the row's name (R82). -/
theorem decode_of_covers {w : Word} {r : OpcodeRow} (hr : r ∈ opcodeTable) (h : r.covers w = true) :
    ∃ i, decode w = .ok i ∧ r.mnemonic = i.mnemonic := by
  have hw : w &&& r.mask = r.value := by simpa [OpcodeRow.covers] using h
  rcases List.mem_cons.1 hr with rfl | hr
  · obtain ⟨hrsv, hop⟩ := fields_and w 0xFF00#16
    rw [hw, show rsvField 0xFF00#16 = BitVec.allOnes 4 by decide, BitVec.and_allOnes] at hrsv
    rw [hw, show opField 0xFF00#16 = BitVec.allOnes 4 by decide, BitVec.and_allOnes] at hop
    exact ⟨.txByte (dataField w), decode_of_fields hrsv.symm hop.symm rfl, rfl⟩
  · obtain ⟨hmask, i, -, hi, hname⟩ := opcodeTable_plain r hr
    rw [hmask, BitVec.and_allOnes] at hw
    exact ⟨i, (decode_eq_ok_iff w i).2 (hi.trans hw.symm), hname⟩

/-- Every command's word belongs to a row of the table (R82). -/
theorem exists_covers_encode (i : Instr) : ∃ r ∈ opcodeTable, r.covers (encode i) = true := by
  have hrow : Laws.TableRow.Statement i := by
    cases i with
    | txByte b => exact Laws.TableRow.txByte b
    | rbPop => exact Laws.TableRow.rbPop
    | rbPeek => exact Laws.TableRow.rbPeek
    | rbAvail => exact Laws.TableRow.rbAvail
    | rbClear => exact Laws.TableRow.rbClear
    | gieClr => exact Laws.TableRow.gieClr
    | gieSet => exact Laws.TableRow.gieSet
    | tmrRead => exact Laws.TableRow.tmrRead
  obtain ⟨r, hr, hcovers⟩ := List.any_eq_true.1 hrow
  exact ⟨r, hr, ((Bool.and_eq_true _ _).mp hcovers).2⟩

/-- Settles O6: a row covers only words of the command it names, the rows' names differ, and every command has its row. -/
theorem opcodeTableUnambiguous : Obligations.OpcodeTableUnambiguous := by
  refine ⟨fun w r r' hr hr' h h' => ?_, fun w => ?_, fun w i r hi hr h => ?_⟩
  · obtain ⟨i, hi, hname⟩ := decode_of_covers hr h
    obtain ⟨j, hj, hname'⟩ := decode_of_covers hr' h'
    cases hi.symm.trans hj
    exact opcodeTable_mnemonic_inj r hr r' hr' (hname.trans hname'.symm)
  · rw [legalWord_iff]
    constructor
    · rintro ⟨i, hi⟩
      exact encode_of_decode hi ▸ exists_covers_encode i
    · rintro ⟨r, hr, h⟩
      obtain ⟨i, hi, -⟩ := decode_of_covers hr h
      exact ⟨i, hi⟩
  · obtain ⟨j, hj, hname⟩ := decode_of_covers hr h
    cases hi.symm.trans hj
    exact hname

/-! ### The assembler -/

/-- Settles O8: the assembler is run on each line. -/
theorem assemblerReadsLines : Obligations.AssemblerReadsLines := by
  refine ⟨by decide, ?_, ?_, ?_, ?_, ?_, ?_⟩ <;> decide

end Sys2Proof.Machine
end

section
/-! PROOFS, family 30_encoding.md: what the execution of a command word answers (R84, R85, R93), the response word (R87), and
that a response is never overwritten (R88). -/
namespace Sys2Proof.Machine

/-! ### Dispatch -/

theorem execute_of_ok {w : Word} {i : Instr} (h : decode w = .ok i) (s : State) : execute w s = exec i s := by
  simp only [execute, h]

theorem execute_of_illegal {w : Word} (h : ∀ i, decode w ≠ .ok i) (s : State) : execute w s = illegal s := by
  rcases execute_cases w s with ⟨i, hi, -⟩ | ⟨-, -, heq⟩
  · exact absurd hi (h i)
  · exact heq

/-- A word with the operation code of a command without an operand is that command if it holds no data, else illegal. -/
theorem execute_plain {w : Word} {i : Instr} (hi : i ∈ plainCommands) (hrsv : w.toNat / 4096 = 0)
    (hop : w.toNat / 256 % 16 = i.op.toNat) (s : State) :
    execute w s = if w.toNat % 256 = 0 then exec i s else illegal s := by
  obtain ⟨hlo, hdata⟩ := plainCommands_fields i hi
  split
  · next h0 =>
    refine execute_of_ok (decode_of_fields ((rsvField_eq_zero_iff w).2 hrsv) ((opField_eq_iff w _).2 hop) ?_) s
    rw [(dataField_eq_zero_iff w).2 h0, hdata]
  · next h0 =>
    refine execute_of_illegal (fun j hj => ?_) s
    have hlegal := (exists_decode_iff w).1 ⟨j, hj⟩
    omega

/-- Settles O4: the operation code names the command, and what `exists_decode_iff` leaves out is illegal. -/
theorem executeDispatches : Obligations.ExecuteDispatches := by
  intro w s
  have hillegal := fun h => execute_of_illegal (not_exists.1 (mt (exists_decode_iff w).1 h)) s
  refine ⟨fun hrsv => hillegal fun h => hrsv h.1, fun hrsv =>
    ⟨fun hop => ?_, fun hop => execute_plain (i := .rbPop) (by decide) hrsv hop s,
      fun hop => execute_plain (i := .rbPeek) (by decide) hrsv hop s,
      fun hop => execute_plain (i := .rbAvail) (by decide) hrsv hop s,
      fun hop => execute_plain (i := .rbClear) (by decide) hrsv hop s,
      fun hop => execute_plain (i := .gieClr) (by decide) hrsv hop s,
      fun hop => execute_plain (i := .gieSet) (by decide) hrsv hop s,
      fun hop => execute_plain (i := .tmrRead) (by decide) hrsv hop s,
      fun hop => hillegal fun h => ?_⟩⟩
  · exact execute_of_ok (i := .txByte _)
      (decode_of_fields ((rsvField_eq_zero_iff w).2 hrsv) ((opField_eq_iff w _).2 hop) (dataField_eq w)) s
  · omega

/-! ### Illegal words -/

/-- In a tick that takes a word the engines' steps leave every port, transmit engine and ring alone (R44). -/
theorem State.TakesWord.enginesOf_frame {s : State} {k : Nat} {w : Word} (h : s.TakesWord k w) {j : Nat} {p : Inst}
    (hp : s.hostPhase.insts[j]? = some p) :
    (s.hostPhase.enginesOf j p).port = p.port ∧ (s.hostPhase.enginesOf j p).tx = p.tx ∧
      (s.hostPhase.enginesOf j p).rb = p.rb ∧ (s.hostPhase.enginesOf j p).rx.busy = p.rx.busy := by
  obtain ⟨hgo, hidle⟩ := h.idle
  obtain ⟨htx, hrx⟩ := hidle j p hp
  have hquiet : (s.hostPhase.captureSelect == some j) = false := by rw [hgo]; rfl
  rw [State.enginesOf, hquiet, Inst.engines_of_idle _ _ _ _ htx hrx]
  exact ⟨rfl, rfl, rfl, rfl⟩

/-- An illegal word is answered `(ILLEGAL, 0)` and leaves `gie` alone (R85). -/
theorem Inst.performWord_illegal {w : Word} (h : ∀ i, decode w ≠ .ok i) (timer : Nat) (gie : Bool) (p : Inst) :
    p.performWord timer w = some (p.respond .illegal 0) ∧ p.gieAfterWord gie w = gie := by
  unfold Inst.performWord Inst.gieAfterWord
  cases hd : decode w with
  | ok i => exact absurd hd (h i)
  | error _ => exact ⟨rfl, rfl⟩

/-- A tick that takes an illegal word (R85): block `k` answers it, and the engines' steps are all else that happens. -/
theorem step_of_illegal {s : State} {k : Nat} {w : Word} {p : Inst} (hv : s.configValid = true)
    (hpush : s.hostPhase.pushOutOfRange = false) (h : s.TakesWord k w) (hp : s.hostPhase.insts[k]? = some p)
    (hw : ∀ i, decode w ≠ .ok i) :
    step s = .next (s.afterWord k w p ((s.hostPhase.executing k p).respond .illegal 0)) := by
  rw [step_of_takesWord hv hpush h, h.execute_eq hp, (Inst.performWord_illegal hw s.timer s.gie _).1]

/-- Settles O5: the legal words are those of `allCommands`; an illegal one is taken where no engine runs. -/
theorem illegalWordAnswered : Obligations.IllegalWordAnswered := by
  refine ⟨exists_decode_iff, ⟨allCommands.map encode, ?_, ?_, fun w => ?_⟩,
    fun s k w p hv hpush hsel hword hp hw => ?_⟩
  · exact nodup_allCommands.map encode_injective
  · rw [List.length_map, length_allCommands]
  · simp only [List.mem_map, mem_allCommands, true_and, decode_eq_ok_iff]
  · have hk : s.TakesWord k w := ⟨hsel, hword⟩
    obtain ⟨-, htx, hrb, hrx⟩ := hk.enginesOf_frame hp
    refine ⟨_, (s.hostPhase.executing k p).respond .illegal 0, step_of_illegal hv hpush hk hp hw, ?_, rfl, htx, hrb, hrx,
      (Inst.performWord_illegal hw s.timer s.gie _).2, fun j p' q' hj hp' hq' => ?_⟩
    · rw [hk.getElem?_afterWord, hp, Option.map_some, if_pos rfl]
    · rw [hk.getElem?_afterWord, hp', Option.map_some, if_neg (Ne.symm hj), Option.some_inj] at hq'
      exact hq' ▸ hk.enginesOf_frame hp'

/-! ### The response word -/

theorem lt_two_pow_bitsFor (x : Nat) : x < 2 ^ bitsFor x := Nat.lt_log2_self

/-- Settles O7: the value stands above the two bits of the status, and `VW` covers each kind of value. -/
theorem responseWordLayout : Obligations.ResponseWordLayout := by
  refine ⟨fun W cap r hr => ?_, fun W cap v hv => ?_⟩
  · rw [Response.word, BitVec.toNat_append, BitVec.toNat_ofNat, Nat.mod_eq_of_lt hr,
      ← Nat.shiftLeft_add_eq_or_of_lt r.status.code.isLt, Nat.shiftLeft_eq]
  · have hwiden : ∀ n, v < 2 ^ n → n ≤ valueWidth W cap → v < 2 ^ valueWidth W cap := fun n hn hle =>
      hn.trans_le (Nat.pow_le_pow_right (by decide) hle)
    rcases hv with hv | hv | ⟨hcap, hv⟩
    · exact hwiden W hv (le_max_left _ _)
    · exact hwiden 8 hv (le_max_of_le_right (le_max_left _ _))
    · have hbits := lt_two_pow_bitsFor (cap - 1)
      exact hwiden (bitsFor (cap - 1)) (by omega) (le_max_of_le_right (le_max_right _ _))

/-! ### Completion and status -/

/-- A command on a block whose read index is in range completes: the ring slot it may read exists (R61). -/
theorem Inst.perform_isSome {p : Inst} (h : p.rb.r < p.cfg.cap) (timer : Nat) (i : Instr) :
    ∃ q, p.perform timer i = some q := by
  cases i with
  | rbPop =>
    simp only [Inst.perform, p.memRead_of_lt h, Option.map_some]
    split <;> exact ⟨_, rfl⟩
  | rbPeek =>
    simp only [Inst.perform, p.memRead_of_lt h, Option.map_some]
    split <;> exact ⟨_, rfl⟩
  | _ => exact ⟨_, rfl⟩

/-- Settles O18: the executing block completes its command, and no command's meaning refuses. -/
theorem everyCommandCompletes : Obligations.EveryCommandCompletes := by
  refine ⟨fun i s p hp hr => ?_, exec_ne_refused⟩
  obtain ⟨q, hq⟩ := Inst.perform_isSome hr s.timer i
  exact ⟨_, by rw [exec_eq i hp, hq]; rfl⟩

/-- The executing block after a command is what `Inst.perform` makes of it. -/
theorem exec_block {i : Instr} {s t : State} {p q : Inst} (h : exec i s = .next t) (hp : s.insts[s.sel]? = some p)
    (hq : t.insts[s.sel]? = some q) : p.perform s.timer i = some q := by
  rw [exec_eq i hp] at h
  cases hperf : p.perform s.timer i with
  | none => simp [hperf, State.replaceBlock] at h
  | some q' =>
    rw [hperf] at h
    cases h
    rw [State.getElem?_updBlock, State.setGie_sel, if_pos rfl, State.setGie_insts, hp] at hq
    exact hq

/-- The status with which a command answers that answers at once (R93, R201, R202). -/
def Inst.answerStatus (p : Inst) : Instr → Status
  | .txByte _ => .noTxPin
  | .rbPop => if p.ringEmpty then .empty else .ok
  | .rbPeek => if p.ringEmpty then .empty else .ok
  | .rbAvail => .ok
  | .rbClear => .ok
  | .gieClr => .ok
  | .gieSet => .ok
  | .tmrRead => .ok

/-- What RB_POP and RB_PEEK answer (R152, R153): `EMPTY` on an empty ring, else what they do with the byte read, `OK`. -/
theorem Inst.answers_of_read {p q : Inst} {f : Byte → Inst} (hf : ∀ b, ∃ v, (f b).port.resp = some ⟨.ok, v⟩)
    (h : (if p.ringEmpty then some (p.respond .empty (byteValue sentinel)) else (p.memRead p.rb.r).map f) = some q) :
    ∃ v, q.port.resp = some ⟨if p.ringEmpty then .empty else .ok, v⟩ := by
  split at h
  · next he =>
    cases h
    exact ⟨byteValue sentinel, by rw [if_pos he]; rfl⟩
  · next he =>
    obtain ⟨b, -, rfl⟩ := Option.map_eq_some_iff.1 h
    rw [if_neg he]
    exact hf b

/-- A command that begins no frame answers at once, with the status of `Inst.answerStatus`. -/
theorem Inst.perform_answers {timer : Nat} {p q : Inst} {i : Instr} (h : p.perform timer i = some q)
    (hno : ¬(p.cfg.txPresent = true ∧ ∃ b, i = .txByte b)) : ∃ v, q.port.resp = some ⟨p.answerStatus i, v⟩ := by
  cases i with
  | txByte b =>
    have hpin : ¬p.cfg.txPresent = true := fun hpin => hno ⟨hpin, b, rfl⟩
    simp only [Inst.perform, if_neg hpin, Option.some_inj] at h
    exact ⟨0, h ▸ rfl⟩
  | rbPop => exact Inst.answers_of_read (fun b => ⟨byteValue b, rfl⟩) h
  | rbPeek => exact Inst.answers_of_read (fun b => ⟨byteValue b, rfl⟩) h
  | _ => exact ⟨_, by cases h; rfl⟩

/-- Which command answers with which status (R201, R202, R203). -/
theorem Inst.answerStatus_iff (p : Inst) (i : Instr) :
    (p.answerStatus i = .noTxPin ↔ ∃ b, i = .txByte b) ∧
    (p.answerStatus i = .empty ↔ (i = .rbPop ∨ i = .rbPeek) ∧ p.rb.w = p.rb.r) ∧ p.answerStatus i ≠ .illegal := by
  by_cases he : p.rb.w = p.rb.r <;> cases i <;> simp [Inst.answerStatus, Inst.ringEmpty, he]

/-- Settles O20: a frame leaves the port alone, and every other command answers with its status. -/
theorem commandStatuses : Obligations.CommandStatuses := by
  intro i s t p q h hp hq
  have hperf := exec_block h hp hq
  refine ⟨fun hpin hi => ?_, fun hno => ?_⟩
  · obtain ⟨b, rfl⟩ := hi
    simp only [Inst.perform, if_pos hpin, Option.some_inj] at hperf
    exact hperf ▸ rfl
  · obtain ⟨v, hv⟩ := Inst.perform_answers hperf hno
    exact ⟨_, hv, p.answerStatus_iff i⟩

/-! ### The response slot -/

/-- Settles O40: a sending block has an empty response slot (`State.Inv`), and so has one whose word is taken (R44). -/
theorem responsesNeverOverwritten : Obligations.ResponsesNeverOverwritten := by
  intro s t k p q r hinv h hp hq hr
  rcases step_block h hp hq with ⟨-, rfl⟩ | ⟨w, hw, -⟩
  · obtain ⟨-, -, hok, -⟩ := (State.inv_iff _).1 (State.inv_hostPhase hinv)
    obtain ⟨⟨-, -, -, hsending, -⟩, -⟩ := hok k p hp
    have hidle : p.tx.busy = false := by
      by_contra hbusy
      obtain ⟨-, hnone, -⟩ := hsending (by simpa using hbusy)
      cases hnone.symm.trans hr
    rw [State.enginesOf, Inst.engines_port, p.txStep_of_idle _ _ hidle, hr]
  · obtain ⟨p', hp', -, hnone⟩ := hw.slots
    cases hp.symm.trans hp'
    cases hnone.symm.trans hr

end Sys2Proof.Machine
end

section
/-! PROOFS, family 40_transmit.md: TX_BYTE (R102, R103), the exclusion of the engines and the commands (R109, R206, R209), and
the sequencer's step (R101). -/
namespace Sys2Proof.Machine

/-! ### TX_BYTE -/

/-- What a command makes of the executing block and of `gie` is all that it changes (R41, R158). -/
theorem commandGives_of_perform {i : Instr} {s : State} {p q : Inst} (hp : s.insts[s.sel]? = some p)
    (h : p.perform s.timer i = some q) : CommandGives i s q (p.gieAfter s.gie i) := by
  refine ⟨((s.setGie (p.gieAfter s.gie i)).updBlock fun _ => q), ?_, ?_, rfl, rfl, rfl, rfl, rfl, rfl, rfl, rfl,
    State.length_updBlock _ _, fun j hj => State.other_updBlock _ _ hj⟩
  · rw [exec_eq i hp, h]
    rfl
  · rw [State.getElem?_updBlock, State.setGie_sel, if_pos rfl, State.setGie_insts, hp]
    rfl

/-- Settles O9: with a transmit pin, what TX_BYTE makes of its block is `Inst.startFrame`, and of `gie` 0. -/
theorem txByteStartsFrame : Obligations.TxByteStartsFrame := by
  intro s p b hp hpin
  have h := commandGives_of_perform (i := .txByte b) hp rfl
  rwa [if_pos hpin, Inst.gieAfter, if_pos hpin] at h

/-- Settles O10: without a transmit pin, TX_BYTE answers and leaves `gie` alone. -/
theorem txByteWithoutPin : Obligations.TxByteWithoutPin := by
  intro s p b hp hpin
  have hno : ¬p.cfg.txPresent = true := by simp [hpin]
  have h := commandGives_of_perform (i := .txByte b) hp rfl
  rwa [if_neg hno, Inst.gieAfter, if_neg hno] at h

/-! ### The exclusion of the engines and the commands -/

/-- A block after the host phase: the converse of `State.hostPhase_block`. -/
theorem State.hostPhase_of_block {s : State} {k : Nat} {p : Inst} (hp : s.insts[k]? = some p) :
    s.hostPhase.insts[k]? = some (p.hostPhase (p.hostMove s.dom s.tick k)) := by
  rw [State.getElem?_hostPhase, hp, Option.map_some]

/-- Where a block is busy no capture starts and no command is accepted: either would wake a block where none is busy. -/
theorem State.selects_none_of_busy {s : State} (h : s.Inv) {k : Nat} {p : Inst} (hp : s.insts[k]? = some p)
    (hb : p.busy = true) :
    s.hostPhase.captureSelect = none ∧ s.hostPhase.commandSelect s.hostPhase.captureSelect = none := by
  have hasleep : ∀ j, ¬s.Wakes j := fun j hj => by
    obtain ⟨htx, hrx⟩ := (State.Wakes.alone (State.inv_hostPhase h) hj).1 k _ (State.hostPhase_of_block hp)
    rw [Inst.hostPhase_tx] at htx
    rw [Inst.hostPhase_rx] at hrx
    simp [Inst.busy, htx, hrx] at hb
  refine ⟨Option.eq_none_iff_forall_ne_some.2 fun j hj => hasleep j (.inl hj),
    Option.eq_none_iff_forall_ne_some.2 fun j hj => ?_⟩
  obtain ⟨-, w, -, -, -, hw⟩ := State.command_of_select hj
  exact hasleep j (.inr ⟨w, hj, hw⟩)

/-- Settles O39: a busy block excludes both selections, and a capture that starts excludes the commands. -/
theorem enginesExcludeEachOther : Obligations.EnginesExcludeEachOther := by
  intro s h
  refine ⟨fun ⟨p, hp, hb⟩ => ?_, fun ⟨p, hp, hb⟩ => ?_, fun k hk => ?_⟩
  · obtain ⟨k, hk⟩ := List.mem_iff_getElem?.1 hp
    exact State.selects_none_of_busy h hk (by simp [Inst.busy, hb])
  · obtain ⟨k, hk⟩ := List.mem_iff_getElem?.1 hp
    exact State.selects_none_of_busy h hk (by simp [Inst.busy, hb])
  · refine Option.eq_none_iff_forall_ne_some.2 fun j hj => ?_
    obtain ⟨-, -, hgo, -⟩ := State.commandSelect_some hj
    cases hgo.symm.trans hk

/-! ### The sequencer's step -/

section sending
variable {W timer : Nat} {p : Inst}

/-- The wait of a sending block is over when its deadline's ticks have elapsed (R101). -/
theorem Inst.txDue_iff (hb : p.tx.busy = true) : p.txDue W timer = true ↔ p.tx.deadline ≤ elapsed W timer p.tx.start := by
  rw [Inst.txDue, hb, Bool.true_and, deadlineMet, decide_eq_true_eq]

theorem Inst.txStep_of_waiting (hb : p.tx.busy = true) (h : elapsed W timer p.tx.start < p.tx.deadline) :
    p.txStep W timer = p := by
  rw [Inst.txStep, if_neg (mt (Inst.txDue_iff hb).1 (Nat.not_le.2 h))]

theorem Inst.txStep_of_cell_over (hb : p.tx.busy = true) (h : p.tx.deadline ≤ elapsed W timer p.tx.start)
    (hcell : p.tx.cell < 9) : p.txStep W timer = p.nextCell W := by
  rw [Inst.txStep, if_pos ((Inst.txDue_iff hb).2 h), if_pos hcell]

theorem Inst.txStep_of_frame_over (hb : p.tx.busy = true) (h : p.tx.deadline ≤ elapsed W timer p.tx.start)
    (hcell : ¬p.tx.cell < 9) : p.txStep W timer = p.endFrame ∧ p.txCompletes W timer = true := by
  have hdue := (Inst.txDue_iff hb).2 h
  exact ⟨by rw [Inst.txStep, if_pos hdue, if_neg hcell], by rw [Inst.txCompletes, hdue, decide_eq_false hcell]; rfl⟩

end sending

/-- A tick of a sending block is its sequencer's step: no command is accepted in the domain (R44), and `gie` becomes 1 if a frame
ends in it. -/
theorem step_of_sending {s t : State} {k : Nat} {p q : Inst} (h : step s = .next t) (hp : s.hostPhase.insts[k]? = some p)
    (hq : t.insts[k]? = some q) (hb : p.tx.busy = true) :
    q.tx = (p.txStep s.cfg.timerW s.timer).tx ∧ q.port = (p.txStep s.cfg.timerW s.timer).port ∧
      (p.txCompletes s.cfg.timerW s.timer = true → t.gie = true) := by
  have hno : ∀ j w, ¬s.TakesWord j w := fun j w hw => by simp [(hw.idle.2 k p hp).1] at hb
  obtain ⟨-, -, -, -, hgie⟩ := step_domain h
  rcases step_block h hp hq with ⟨-, rfl⟩ | ⟨w, hw, -⟩
  · refine ⟨Inst.engines_tx .., Inst.engines_port .., fun hends => ?_⟩
    rcases hgie with ⟨-, hgie⟩ | ⟨j, w, -, hw, -⟩
    · rw [hgie, List.any_eq_true.2 ⟨p, List.mem_of_getElem? hp, hends⟩, Bool.or_true]
    · exact absurd hw (hno j w)
  · exact absurd hw (hno k w)

/-- Settles O27: the tick of a busy block is `Inst.txStep`, and each clause is one of its branches. -/
theorem sequencerStep : Obligations.SequencerStep := by
  intro s t k p q h hp hq hb
  obtain ⟨htx, hport, hgie⟩ := step_of_sending h (State.hostPhase_of_block hp) hq hb
  refine ⟨fun hwait => ?_, fun hmet hcell => ?_, fun hmet hcell => ?_⟩
  · rw [htx, Inst.txStep_of_waiting (p := p.hostPhase _) hb hwait, Inst.hostPhase_tx]
  · rw [htx, Inst.txStep_of_cell_over (p := p.hostPhase _) hb hmet hcell]
    rfl
  · obtain ⟨hend, hcompletes⟩ := Inst.txStep_of_frame_over (p := p.hostPhase (p.hostMove s.dom s.tick k)) hb hmet hcell
    rw [htx, hport, hend]
    exact ⟨rfl, hgie hcompletes, rfl⟩

end Sys2Proof.Machine
end

section
/-! PROOFS, family 40_transmit.md: the timing of a frame (R104, R106), tick by tick. The elapsed ticks of a sending block number
the ticks of its frame, and the invariant says which cell is on the line in each. -/
namespace Sys2Proof.Machine

/-! ### Runs of reachable states -/

theorem Inst.performWord_isSome {p : Inst} (h : p.rb.r < p.cfg.cap) (timer : Nat) (w : Word) :
    ∃ q, p.performWord timer w = some q := by
  unfold Inst.performWord
  cases decode w with
  | ok i => exact Inst.perform_isSome h timer i
  | error _ => exact ⟨_, rfl⟩

theorem Inst.performWord_txByte {p : Inst} (h : p.cfg.txPresent = true) (timer : Nat) (b : Byte) :
    p.performWord timer (encode (.txByte b)) = some (p.startFrame timer b) := by
  simp [Inst.performWord, decode_encode, Inst.perform, h]

/-- A reachable domain steps: its ring indices name existing slots (R61), and nothing else stops a tick (R216). -/
theorem State.Inv.exists_step {s : State} (h : s.Inv) : ∃ t, step s = .next t := by
  have hinv := State.inv_hostPhase h
  have hpush : s.hostPhase.pushOutOfRange = false := (any_eq_false_iff_getElem? _ _).2 fun k p hp => by
    rw [decide_eq_true (State.Inv.ringSound hinv hp).1, Bool.not_true, Bool.and_false]
  cases hsel : s.hostPhase.commandSelect s.hostPhase.captureSelect with
  | none => exact ⟨_, step_of_select_none h.1 hpush hsel⟩
  | some k =>
    obtain ⟨p, w, hp, -, -, hw⟩ := State.command_of_select hsel
    have hk : s.TakesWord k w := ⟨hsel, hw⟩
    obtain ⟨-, -, hrb, -⟩ := hk.enginesOf_frame hp
    obtain ⟨-, hr, -⟩ := State.Inv.ringSound hinv hp
    obtain ⟨q, hq⟩ := Inst.performWord_isSome (p := s.hostPhase.executing k p)
      (by rwa [State.executing_cfg, State.executing, hrb]) s.timer w
    exact ⟨_, by rw [step_of_takesWord h.1 hpush hk, hk.execute_eq hp, hq]⟩

/-- The next tick of a reachable domain, for one of its blocks. -/
theorem State.Inv.exists_step_block {s : State} (h : s.Inv) {k : Nat} {p : Inst} (hp : s.insts[k]? = some p) :
    ∃ t q, step s = .next t ∧ t.insts[k]? = some q ∧ t.Inv ∧ q.cfg = p.cfg := by
  obtain ⟨t, ht⟩ := h.exists_step
  obtain ⟨-, -, -, hlen, -⟩ := step_domain ht
  have hk : k < t.insts.length := hlen ▸ (List.getElem?_eq_some_iff.1 hp).1
  have hq := List.getElem?_eq_getElem hk
  exact ⟨t, _, ht, hq, stepKeepsInvariant s t h ht, (step_block_rx ht (State.hostPhase_of_block hp) hq).2⟩

/-- A run begins with a step. -/
theorem ticks_succ_iff {n : Nat} {s u : State} : ticks (n + 1) s = .next u ↔ ∃ t, step s = .next t ∧ ticks n t = .next u := by
  rw [ticks]
  cases step s <;> simp

/-- A run ends with a step. -/
theorem ticks_succ_last_iff {n : Nat} {s u : State} :
    ticks (n + 1) s = .next u ↔ ∃ t, ticks n s = .next t ∧ step t = .next u := by
  induction n generalizing s with
  | zero =>
    rw [ticks_succ_iff]
    simp [ticks]
  | succ n ih =>
    rw [ticks_succ_iff]
    simp only [ih, ticks_succ_iff (n := n)]
    exact ⟨fun ⟨r, hr, t, ht, hu⟩ => ⟨t, ⟨r, hr, ht⟩, hu⟩, fun ⟨t, ⟨r, hr, ht⟩, hu⟩ => ⟨r, hr, t, ht, hu⟩⟩

/-! ### The ticks of a frame -/

/-- In the domain `t` its block `q` is in tick `n` of a frame of the byte `b`, counted from the acceptance of TX_BYTE. -/
structure State.Sends (t : State) (q : Inst) (b : Byte) (n : Nat) : Prop where
  inv : t.Inv
  busy : q.tx.busy = true
  byte_eq : q.tx.byte = b
  elapsed_eq : elapsed t.cfg.timerW t.timer q.tx.start = n

section frame
variable {t : State} {q : Inst} {k n : Nat} {b : Byte}

/-- The cell on the line in tick `n` of a frame (R104): each lasts a bit period. -/
theorem State.Sends.tx_of_cell (h : t.Sends q b n) (hq : t.insts[k]? = some q) {j : Nat} (hlo : 1 + j * q.cfg.bp ≤ n)
    (hhi : n ≤ (j + 1) * q.cfg.bp) :
    q.tx.cell = j ∧ q.tx.line = cell b j ∧ q.tx.deadline = (j + 1) * q.cfg.bp ∧ t.gie = false := by
  obtain ⟨-, -, hok, -⟩ := (State.inv_iff t).1 h.inv
  obtain ⟨⟨-, -, -, hsending, -⟩, -, -, hgie, -⟩ := hok k q hq
  obtain ⟨-, -, hline, hdeadline, hlow, hhigh⟩ := hsending h.busy
  rw [h.elapsed_eq] at hlow hhigh
  rw [hdeadline] at hhigh
  have hle : q.tx.cell < j + 1 := Nat.lt_of_mul_lt_mul_right (hlow.trans_le hhi)
  have hge : j < q.tx.cell + 1 := Nat.lt_of_mul_lt_mul_right (a := q.cfg.bp) (by omega)
  obtain rfl : q.tx.cell = j := by omega
  exact ⟨rfl, h.byte_eq ▸ hline, hdeadline, hgie h.busy⟩

/-- The frame goes on for ten bit periods: until then a tick is the next tick of the frame (R104, R106). -/
theorem State.Sends.step_of_lt (h : t.Sends q b n) (hq : t.insts[k]? = some q) (hn : n < 10 * q.cfg.bp) :
    ∃ u r, step t = .next u ∧ u.insts[k]? = some r ∧ r.cfg = q.cfg ∧ u.Sends r b (n + 1) := by
  obtain ⟨u, r, hu, hr, hinv, hcfg⟩ := h.inv.exists_step_block hq
  obtain ⟨hv, ht, hok, -⟩ := (State.inv_iff t).1 h.inv
  obtain ⟨⟨-, -, -, hsending, -⟩, -⟩ := hok k q hq
  obtain ⟨-, -, -, hdeadline, -⟩ := hsending h.busy
  obtain ⟨hwait, hnext, -⟩ := sequencerStep t u k q r hu hq hr h.busy
  have hkept : r.tx.busy = true ∧ r.tx.byte = b ∧ r.tx.start = q.tx.start := by
    rcases Nat.lt_or_ge (elapsed t.cfg.timerW t.timer q.tx.start) q.tx.deadline with hlt | hge
    · rw [hwait hlt]
      exact ⟨h.busy, h.byte_eq, rfl⟩
    · have hcell : q.tx.cell < 9 := by
        rw [h.elapsed_eq] at hge
        exact Nat.lt_of_succ_lt_succ (Nat.lt_of_mul_lt_mul_right (hdeadline ▸ hge.trans_lt hn))
      rw [hnext hge hcell]
      exact ⟨h.busy, h.byte_eq, rfl⟩
  obtain ⟨hbusy, hbyte, hstart⟩ := hkept
  obtain ⟨-, hframe, -⟩ := (InstConfig.valid_iff _ _).1 (State.cfg_valid_of_configValid hv hq)
  obtain ⟨hdomain, htimer, -⟩ := step_domain hu
  refine ⟨u, r, hu, hr, hcfg, hinv, hbusy, hbyte, ?_⟩
  rw [hdomain, htimer, hstart, elapsed_succ _ _ _ ht (by rw [h.elapsed_eq]; omega), h.elapsed_eq]

/-- The tick after ten bit periods ends the frame (R104). -/
theorem State.Sends.step_of_last (h : t.Sends q b n) (hq : t.insts[k]? = some q) (hn : n = 10 * q.cfg.bp) :
    ∃ u r, step t = .next u ∧ u.insts[k]? = some r ∧
      r.tx.busy = false ∧ u.gie = true ∧ r.port.resp = some ⟨.ok, 0⟩ ∧ r.tx.line = true := by
  obtain ⟨u, r, hu, hr, -⟩ := h.inv.exists_step_block hq
  obtain ⟨hbp, -⟩ := (InstConfig.valid_iff _ _).1 (State.cfg_valid_of_configValid h.inv.1 hq)
  obtain ⟨hcell, hline, hdeadline, -⟩ := h.tx_of_cell hq (j := 9) (by omega) (by omega)
  obtain ⟨-, -, hlast⟩ := sequencerStep t u k q r hu hq hr h.busy
  obtain ⟨htx, hgie, hresp⟩ := hlast (by rw [h.elapsed_eq, hdeadline]; omega) (by omega)
  exact ⟨u, r, hu, hr, by rw [htx], hgie, hresp, by rw [htx]; exact hline⟩

/-- The tick after the acceptance of TX_BYTE is tick 1 of its frame (R102). -/
theorem State.Accepts.sends {s : State} {p : Inst} (hs : s.Inv) (hp : s.insts[k]? = some p) (hpin : p.cfg.txPresent = true)
    (h : s.Accepts k (.txByte b)) :
    ∃ u r, step s = .next u ∧ u.insts[k]? = some r ∧ r.cfg = p.cfg ∧ u.Sends r b 1 := by
  obtain ⟨u, r, hu, hr, hinv, hcfg⟩ := hs.exists_step_block hp
  have hk : s.TakesWord k (encode (.txByte b)) := h
  rcases step_block hu (State.hostPhase_of_block hp) hr with ⟨hno, -⟩ | ⟨w, hw, hperf⟩
  · exact absurd hk (hno _)
  · cases hk.2.symm.trans hw.2
    rw [Inst.performWord_txByte (by rwa [State.executing_cfg]), Option.some_inj] at hperf
    obtain ⟨hbp, hframe, -⟩ := (InstConfig.valid_iff _ _).1 (State.cfg_valid_of_configValid hs.1 hp)
    obtain ⟨hdomain, htimer, -⟩ := step_domain hu
    refine ⟨u, r, hu, hr, hcfg, hinv, hperf ▸ rfl, hperf ▸ rfl, ?_⟩
    rw [hdomain, htimer, ← hperf, Inst.startFrame_tx]
    exact elapsed_tick_of_start hs.2.1 (by omega)

end frame

/-- In each of the `10 * BP` ticks after the acceptance of TX_BYTE the frame is sent (R104). -/
theorem State.Accepts.sends_after {s : State} {k : Nat} {p : Inst} {b : Byte} (hs : s.Inv) (hp : s.insts[k]? = some p)
    (hpin : p.cfg.txPresent = true) (h : s.Accepts k (.txByte b)) {n : Nat} (h1 : 1 ≤ n) (hn : n ≤ 10 * p.cfg.bp) :
    After n s k fun t q => q.cfg = p.cfg ∧ t.Sends q b n := by
  induction n, h1 using Nat.le_induction with
  | base =>
    obtain ⟨u, r, hu, hr, hsent⟩ := State.Accepts.sends hs hp hpin h
    exact ⟨u, r, ticks_succ_last_iff.2 ⟨s, rfl, hu⟩, hr, hsent⟩
  | succ n _ ih =>
    obtain ⟨t, q, ht, hq, hcfg, hsent⟩ := ih (by omega)
    obtain ⟨u, r, hu, hr, hcfg', hsent'⟩ := hsent.step_of_lt hq (by rw [hcfg]; omega)
    exact ⟨u, r, ticks_succ_last_iff.2 ⟨t, ht, hu⟩, hr, hcfg'.trans hcfg, hsent'⟩

/-! ### The idle line -/

/-- Only TX_BYTE writes the registers of an idle transmit engine (R110). -/
theorem step_tx_of_idle {s t : State} {k : Nat} {p q : Inst} (h : step s = .next t) (hp : s.hostPhase.insts[k]? = some p)
    (hq : t.insts[k]? = some q) (hidle : p.tx.busy = false) (hno : ∀ c, ¬s.Accepts k (.txByte c)) : q.tx = p.tx := by
  rcases step_block h hp hq with ⟨-, rfl⟩ | ⟨w, hw, hperf⟩
  · rw [State.enginesOf, Inst.engines_tx, p.txStep_of_idle _ _ hidle]
  · rcases Inst.performWord_cases hperf with ⟨c, hd, -, -⟩ | ⟨st, v, r, rfl, -⟩
    · exact absurd ⟨hw.1, by rw [hw.2, encode_of_decode hd]⟩ (hno c)
    · exact (s.hostPhase.executing_of_idle k hidle).1

/-- A run keeps the registers of a transmit engine that is idle after `n` ticks until it accepts a TX_BYTE (R104). -/
theorem ticks_tx_of_idle {s u : State} {k n m : Nat} {p q : Inst} (hn : ticks n s = .next u) (hp : u.insts[k]? = some p)
    (hidle : p.tx.busy = false) (hle : n ≤ m) {t : State} (hm : ticks m s = .next t) (hq : t.insts[k]? = some q)
    (hno : ∀ (i : Nat) (r : State) (c : Byte), n ≤ i → i < m → ticks i s = .next r → ¬r.Accepts k (.txByte c)) :
    q.tx = p.tx := by
  induction m, hle using Nat.le_induction generalizing t q with
  | base =>
    cases hn.symm.trans hm
    cases hp.symm.trans hq
    rfl
  | succ m hle ih =>
    obtain ⟨r, hr, ht⟩ := ticks_succ_last_iff.1 hm
    obtain ⟨q', hq'⟩ := step_block_exists ht hq
    obtain ⟨q₀, hq₀, rfl⟩ := State.hostPhase_block hq'
    have hkept := ih hr hq₀ fun i v c hni him => hno i v c hni (by omega)
    have hstep := step_tx_of_idle ht hq' hq (by rw [Inst.hostPhase_tx, hkept, hidle]) fun c => hno m r c hle (by omega) hr
    exact hstep.trans hkept

/-- Settles O42: the invariant shows the cells of the frame's ticks, the sequencer's step ends it, and an idle transmit engine
keeps its line. -/
theorem frameTiming : Obligations.FrameTiming := by
  intro s k p b hs hp hpin hacc
  have hsends := fun {n} => State.Accepts.sends_after hs hp hpin hacc (n := n)
  obtain ⟨hbp, -⟩ := (InstConfig.valid_iff _ _).1 (State.cfg_valid_of_configValid hs.1 hp)
  have hend : After (10 * p.cfg.bp + 1) s k fun t q =>
      q.tx.busy = false ∧ t.gie = true ∧ q.port.resp = some ⟨.ok, 0⟩ ∧ q.tx.line = true := by
    obtain ⟨t, q, ht, hq, hcfg, hsent⟩ := hsends (n := 10 * p.cfg.bp) (by omega) le_rfl
    obtain ⟨u, r, hu, hr, hlast⟩ := hsent.step_of_last hq (by rw [hcfg])
    exact ⟨u, r, ticks_succ_last_iff.2 ⟨t, ht, hu⟩, hr, hlast⟩
  refine ⟨fun j n hj hlo hhi => ?_, hend, fun m t q hm ht hq hno => ?_⟩
  · obtain ⟨t, q, ht, hq, hcfg, hsent⟩ := hsends (by omega) (hhi.trans (Nat.mul_le_mul_right _ (by omega)))
    rw [← hcfg] at hlo hhi
    obtain ⟨-, hline, -, hgie⟩ := hsent.tx_of_cell hq hlo hhi
    exact ⟨t, q, ht, hq, hline, hsent.busy, hgie⟩
  · obtain ⟨u, r, hu, hr, hidle, -, -, hline⟩ := hend
    rw [ticks_tx_of_idle hu hr hidle hm ht hq hno, hline]

end Sys2Proof.Machine
end

section
/-! PROOFS, family 41_receive.md: one tick of the receive engine: the edge detector and its latch (R120, R121), the start of a
capture (R123), the sample (R124), the stop and its push (R125, R150), and the block without a receive pin (R131). -/
namespace Sys2Proof.Machine

/-! ### The capture step -/

section capturing
variable {W timer : Nat} {pin : Bool} {p : Inst}

theorem Inst.sampleDue_iff :
    p.sampleDue W timer = true ↔ p.rx.busy = true ∧ p.rx.deadline ≤ elapsed W timer p.rx.start ∧ p.rx.count < 8 := by
  simp [Inst.sampleDue, Inst.rxDue, deadlineMet, and_assoc]

theorem Inst.stopDue_iff :
    p.stopDue W timer = true ↔ p.rx.busy = true ∧ p.rx.deadline ≤ elapsed W timer p.rx.start ∧ p.rx.count = 8 := by
  simp [Inst.stopDue, Inst.rxDue, deadlineMet, and_assoc]

theorem Inst.captureStep_of_waiting (h : elapsed W timer p.rx.start < p.rx.deadline) : p.captureStep W timer pin = p := by
  have hwait := Nat.not_le.2 h
  rw [Inst.captureStep, if_neg fun hs => hwait (Inst.sampleDue_iff.1 hs).2.1, if_neg fun hs => hwait (Inst.stopDue_iff.1 hs).2.1]

theorem Inst.captureStep_of_sample (hb : p.rx.busy = true) (h : p.rx.deadline ≤ elapsed W timer p.rx.start)
    (hc : p.rx.count < 8) : p.captureStep W timer pin = p.sample W pin :=
  if_pos (Inst.sampleDue_iff.2 ⟨hb, h, hc⟩)

theorem Inst.captureStep_of_stop (hb : p.rx.busy = true) (h : p.rx.deadline ≤ elapsed W timer p.rx.start)
    (hc : p.rx.count = 8) : p.captureStep W timer pin = p.captureStop := by
  rw [Inst.captureStep, if_neg fun hs => (Inst.sampleDue_iff.1 hs).2.2.ne hc, if_pos (Inst.stopDue_iff.2 ⟨hb, h, hc⟩)]

/-- Only the stop step touches the ring (R158). -/
theorem Inst.captureStep_rb_of_no_stop (h : p.stopDue W timer = false) : (p.captureStep W timer pin).rb = p.rb := by
  rcases p.captureStep_cases W timer pin with ⟨-, -, heq⟩ | ⟨-, -, heq⟩ | ⟨-, hstop, -⟩
  · rw [heq]
  · rw [heq, Inst.sample_rb]
  · cases h.symm.trans hstop

end capturing

/-! ### The receive engine in a tick -/

section tick
variable {s t : State} {k : Nat} {p q : Inst}

/-- The edge detector's history and the edge latch after a tick, whatever else the tick does (R120, R121). -/
theorem step_edgeDetector (h : step s = .next t) (hp : s.insts[k]? = some p) (hq : t.insts[k]? = some q) :
    q.rx.prev = (if p.cfg.rxPresent then p.pinLevel s.dom s.tick k else p.rx.prev) ∧
      q.rx.edgePending =
        (p.edgeSeen (p.pinLevel s.dom s.tick k) || p.rx.edgePending && !p.stopDue s.cfg.timerW s.timer) := by
  rw [(step_block_rx h (State.hostPhase_of_block hp) hq).1, State.enginesOf, Inst.engines_rx]
  exact ⟨rfl, rfl⟩

/-- A tick without a stop step leaves the ring's write index and slots alone (R158). -/
theorem step_ring_of_no_stop (h : step s = .next t) (hp : s.insts[k]? = some p) (hq : t.insts[k]? = some q)
    (hno : p.stopDue s.cfg.timerW s.timer = false) : q.rb.w = p.rb.w ∧ q.rb.mem = p.rb.mem := by
  have hrb : (s.hostPhase.enginesOf k (p.hostPhase (p.hostMove s.dom s.tick k))).rb = p.rb := by
    rw [State.enginesOf, Inst.engines_rb]
    exact Inst.captureStep_rb_of_no_stop hno
  rcases step_block h (State.hostPhase_of_block hp) hq with ⟨-, rfl⟩ | ⟨w, -, hperf⟩
  · rw [hrb]
    exact ⟨rfl, rfl⟩
  · obtain ⟨-, -, -, -, hw, hmem⟩ := Inst.performWord_frame hperf
    rw [hw, hmem, State.executing, hrb]
    exact ⟨rfl, rfl⟩

/-- While a block captures, no capture starts in its domain (R46). -/
theorem State.captureSelect_of_capturing (hp : s.insts[k]? = some p) (hb : p.rx.busy = true) : s.captureSelect = none := by
  have hactive : s.rxActive = true := List.any_eq_true.2 ⟨p, List.mem_of_getElem? hp, hb⟩
  rw [State.captureSelect, if_pos hactive]

/-- A tick of a capturing block is its capture step: its domain accepts no command and starts no capture (R44, R46). -/
theorem step_of_capturing (h : step s = .next t) (hp : s.hostPhase.insts[k]? = some p) (hq : t.insts[k]? = some q)
    (hb : p.rx.busy = true) :
    q.rx = { (p.captureStep s.cfg.timerW s.timer (p.pinLevel s.dom s.tick k)).rx with
        prev := q.rx.prev, edgePending := q.rx.edgePending } ∧
      q.rb = (p.captureStep s.cfg.timerW s.timer (p.pinLevel s.dom s.tick k)).rb := by
  rcases step_block h hp hq with ⟨-, rfl⟩ | ⟨w, hw, -⟩
  · have hgo := State.captureSelect_of_capturing hp hb
    rw [State.enginesOf, hgo, Inst.engines_rx, Inst.engines_rb]
    exact ⟨rfl, rfl⟩
  · simp [(hw.idle.2 k p hp).2] at hb

/-- A tick that starts a block's capture does that and nothing else to its receive engine and ring: the domain accepts no command
(R45), and an idle engine takes no capture step. -/
theorem step_of_startsCapture (h : step s = .next t) (hk : s.StartsCapture k) (hp : s.hostPhase.insts[k]? = some p)
    (hq : t.insts[k]? = some q) :
    q.rx = { (p.captureStart s.timer).rx with prev := q.rx.prev, edgePending := q.rx.edgePending } ∧ q.rb = p.rb := by
  have hidle := (captureSelection.1 s.hostPhase k hk).2 p (List.mem_of_getElem? hp)
  rcases step_block h hp hq with ⟨-, rfl⟩ | ⟨w, hw, -⟩
  · rw [State.enginesOf, hk, Inst.engines_rx, Inst.engines_rb, p.captureStep_of_idle _ _ _ hidle, beq_self_eq_true]
    exact ⟨rfl, rfl⟩
  · cases hw.idle.1.symm.trans hk

/-- What the invariant says of a block without a receive pin (R131). -/
theorem State.Inv.quiet_of_no_pin (hs : s.Inv) (hp : s.insts[k]? = some p) (hno : p.cfg.rxPresent = false) :
    p.rx.busy = false ∧ p.rx.edgePending = false ∧ p.rb.w = 0 ∧ p.rb.r = 0 := by
  obtain ⟨-, -, hok, -⟩ := (State.inv_iff s).1 hs
  obtain ⟨-, ⟨-, -, -, hbusy, hpend⟩, ⟨-, -, -, -, hempty⟩, -⟩ := hok k p hp
  have hpin : ¬p.cfg.rxPresent = true := by simp [hno]
  exact ⟨Bool.eq_false_iff.2 fun hb => hpin (hbusy hb).1, Bool.eq_false_iff.2 (mt hpend hpin), hempty hno⟩

end tick

/-- Settles O26: a step's edge detector reads the level of its tick and the old history, and only a stop step clears the latch. -/
theorem edgeDetectorAndLatch : Obligations.EdgeDetectorAndLatch := by
  intro s t k p q h hp hq
  obtain ⟨hprev, hlatch⟩ := step_edgeDetector h hp hq
  refine ⟨fun hpin => by rw [hprev, if_pos hpin], fun hpin => by rw [hprev, hpin]; rfl, ?_⟩
  rw [hlatch, ← Inst.stopDue_iff]
  simp [Inst.edgeSeen, and_assoc]

/-- Settles O28: the tick is `Inst.captureStart`, and the latch that made the block ready is kept by an idle engine. -/
theorem captureStartStep : Obligations.CaptureStartStep := by
  intro s t k p q h hk hp hq
  obtain ⟨hrx, hrb⟩ := step_of_startsCapture h hk (State.hostPhase_of_block hp) hq
  obtain ⟨⟨r, hr, -, hidle, hpend, -⟩, -⟩ := captureSelection.1 s.hostPhase k hk
  have hlatch := step_edgePending_of_idle h hr hq hidle hpend
  rw [hrx]
  exact ⟨rfl, rfl, rfl, rfl, rfl, hlatch, hrb⟩

/-- Settles O29: the tick is `Inst.captureStep`, which samples or waits, and a sample sets one bit. -/
theorem sampleStep : Obligations.SampleStep := by
  intro s t k p q h hp hq hb hc
  obtain ⟨hrx, hrb⟩ := step_of_capturing h (State.hostPhase_of_block hp) hq hb
  refine ⟨fun hmet => ?_, fun hwait => ?_⟩
  · rw [Inst.captureStep_of_sample (p := p.hostPhase _) hb hmet hc] at hrx hrb
    rw [hrx]
    refine ⟨?_, fun j hj hne => ?_, rfl, rfl, hb, rfl, hrb⟩
    · exact (getLsbD_setBit _ _ _ _ hc).trans (if_pos rfl)
    · exact (getLsbD_setBit _ _ _ _ hj).trans (if_neg hne)
  · rw [Inst.captureStep_of_waiting (p := p.hostPhase _) hwait] at hrx hrb
    exact ⟨hrx, hrb⟩

/-- Settles O30: the tick is `Inst.captureStop`, whose push writes one slot; a slot that does not exist stops the block phase. -/
theorem stopStepPushes : Obligations.StopStepPushes := by
  intro s k p hv hp hb hc hmet
  refine ⟨fun hout => ?_, fun t q hw hwf h hq => ?_⟩
  · have hpush : s.hostPhase.pushOutOfRange = true := by
      refine List.any_eq_true.2 ⟨_, List.mem_of_getElem? (State.hostPhase_of_block hp), ?_⟩
      exact Bool.and_eq_true_iff.2 ⟨Inst.stopDue_iff.2 ⟨hb, hmet, hc⟩, congrArg not (decide_eq_false (Nat.not_lt.2 hout))⟩
    rw [step, if_pos hv, State.blockPhase, if_pos hpush]
  · obtain ⟨hrx, hrb⟩ := step_of_capturing h (State.hostPhase_of_block hp) hq hb
    rw [Inst.captureStep_of_stop (p := p.hostPhase _) hb hmet hc] at hrx hrb
    rw [Inst.captureStop_rx] at hrx
    rw [Inst.captureStop_rb, Inst.push_of_lt (p.hostPhase _) _ hw] at hrb
    rw [hrx, hrb]
    exact ⟨rfl, rfl, rfl, rfl, fun a => Memory.read_write _ hwf _ _ _⟩

/-- Settles O41: the invariant, which the step keeps, says all but the slots, and these only a stop step writes. -/
theorem noReceivePinNeverReceives : Obligations.NoReceivePinNeverReceives := by
  intro s k p hs hp hno
  refine ⟨fun t q h hq => ?_, fun hsel => ?_⟩
  · obtain ⟨hbusy, -, -, -⟩ := hs.quiet_of_no_pin hp hno
    obtain ⟨-, hcfg⟩ := step_block_rx h (State.hostPhase_of_block hp) hq
    obtain ⟨hbusy', hpend, hw, hr⟩ := (stepKeepsInvariant s t hs h).quiet_of_no_pin hq (by rw [hcfg, Inst.hostPhase_cfg, hno])
    obtain ⟨-, hmem⟩ := step_ring_of_no_stop h hp hq (p.stopDue_of_idle _ _ hbusy)
    exact ⟨hpend, hbusy', hw, hr, fun a => by rw [hmem]⟩
  · subst hsel
    obtain ⟨-, -, hw, hr⟩ := hs.quiet_of_no_pin hp hno
    have havail : p.avail = 0 := by simp [Inst.avail, hw, hr]
    have h := commandGives_of_perform (i := .rbAvail) hp rfl
    rwa [havail] at h

end Sys2Proof.Machine
end

section
/-! PROOFS, family 41_receive.md: the schedule of a capture (R126), tick by tick. The elapsed ticks of a capturing block number
the ticks of its capture, and the invariant says how many samples it has taken in each. -/
namespace Sys2Proof.Machine

/-! ### The receive pin's levels along a run -/

/-- The level of this tick is the first of the levels to come. -/
theorem Inst.pinLevel_eq_pinAt (dom tick k : Nat) (p : Inst) : p.pinLevel dom tick k = p.pinAt dom tick k 0 := by
  unfold Inst.pinLevel Inst.pinAt
  cases p.env.rxIn <;> rfl

/-- A tick uses up one level of each receive pin, and leaves the domain its number (R47). -/
theorem step_rxIn {s t : State} {k : Nat} {p q : Inst} (h : step s = .next t) (hp : s.insts[k]? = some p)
    (hq : t.insts[k]? = some q) : t.dom = s.dom ∧ q.env.rxIn = p.env.rxIn.tail := by
  have hdom : t.dom = s.dom := by
    obtain ⟨-, -, ⟨-, rfl⟩ | ⟨_, _, _, _, -, -, -, rfl⟩⟩ := step_next h <;> rfl
  refine ⟨hdom, ?_⟩
  rcases step_block h (State.hostPhase_of_block hp) hq with ⟨-, rfl⟩ | ⟨w, -, hperf⟩
  · rw [State.enginesOf, Inst.engines_env, Inst.hostPhase_env]
  · obtain ⟨-, -, henv, -⟩ := Inst.performWord_frame hperf
    rw [henv, State.executing, State.enginesOf, Inst.engines_env, Inst.hostPhase_env]

/-- The levels to come after a tick are those to come before it, but for the first. -/
theorem step_pinAt {s t : State} {k : Nat} {p q : Inst} (h : step s = .next t) (hp : s.insts[k]? = some p)
    (hq : t.insts[k]? = some q) (m : Nat) : q.pinAt t.dom t.tick k m = p.pinAt s.dom s.tick k (m + 1) := by
  obtain ⟨hdom, hlevels⟩ := step_rxIn h hp hq
  obtain ⟨-, -, htick, -⟩ := step_domain h
  rw [Inst.pinAt, Inst.pinAt, hdom, htick, hlevels, List.getElem?_tail, Nat.add_assoc, Nat.add_comm 1 m]

/-- The levels to come after a run are those to come before it, but for those of the run's ticks. -/
theorem ticks_pinAt {n : Nat} {s t : State} {k : Nat} {p q : Inst} (h : ticks n s = .next t) (hp : s.insts[k]? = some p)
    (hq : t.insts[k]? = some q) (m : Nat) : q.pinAt t.dom t.tick k m = p.pinAt s.dom s.tick k (m + n) := by
  induction n generalizing s p with
  | zero =>
    cases h
    cases hp.symm.trans hq
    rfl
  | succ n ih =>
    obtain ⟨u, hu, ht⟩ := ticks_succ_iff.1 h
    obtain ⟨-, -, -, hlen, -⟩ := step_domain hu
    have hr := List.getElem?_eq_getElem (l := u.insts) (hlen ▸ (List.getElem?_eq_some_iff.1 hp).1)
    rw [ih ht hr, step_pinAt hu hp hr, Nat.add_assoc]

/-! ### The ticks of a capture -/

/-- In the domain `t` its block `q` is in tick `n` of a capture, counted from the tick that started it, and the samples taken so
far are the levels `level` of their ticks (R126). -/
structure State.Captures (t : State) (q : Inst) (level : Nat → Bool) (n : Nat) : Prop where
  inv : t.Inv
  busy : q.rx.busy = true
  elapsed_eq : elapsed t.cfg.timerW t.timer q.rx.start = n
  bits : ∀ j < q.rx.count, q.rx.shift.getLsbD j = level (q.cfg.off + j * q.cfg.bp)

section capture
variable {t : State} {q : Inst} {k n : Nat} {level : Nat → Bool}

/-- Which sample a capture waits for in its tick `n` (R124): its tick has not passed. -/
theorem State.Captures.waits (h : t.Captures q level n) (hq : t.insts[k]? = some q) :
    q.rx.count ≤ 8 ∧ q.rx.deadline = q.cfg.off + q.rx.count * q.cfg.bp ∧ n ≤ q.cfg.off + q.rx.count * q.cfg.bp := by
  obtain ⟨-, -, hok, -⟩ := (State.inv_iff t).1 h.inv
  obtain ⟨-, ⟨hcount, -, -, hcapturing, -⟩, -⟩ := hok k q hq
  obtain ⟨-, -, hdeadline, -, hhigh⟩ := hcapturing h.busy
  exact ⟨hcount, hdeadline, by rwa [h.elapsed_eq, hdeadline] at hhigh⟩

/-- After the tick of sample `j` its bit is taken (R126). -/
theorem State.Captures.bit_of_lt (h : t.Captures q level n) (hq : t.insts[k]? = some q) {j : Nat}
    (hj : q.cfg.off + j * q.cfg.bp < n) : q.rx.shift.getLsbD j = level (q.cfg.off + j * q.cfg.bp) := by
  obtain ⟨-, -, hhigh⟩ := h.waits hq
  exact h.bits j (Nat.lt_of_mul_lt_mul_right (a := q.cfg.bp) (by omega))

/-- The capture goes on until its stop is due: until then a tick is the next tick of the capture, and samples the pin's level if a
sample is due in it (R124). -/
theorem State.Captures.step_of_lt (h : t.Captures q level n) (hq : t.insts[k]? = some q)
    (hlevel : q.pinLevel t.dom t.tick k = level n) (hn : n < q.cfg.off + 8 * q.cfg.bp) :
    ∃ u r, step t = .next u ∧ u.insts[k]? = some r ∧ r.cfg = q.cfg ∧ r.rb = q.rb ∧ u.Captures r level (n + 1) := by
  obtain ⟨u, r, hu, hr, hinv, hcfg⟩ := h.inv.exists_step_block hq
  obtain ⟨hcount, hdeadline, hhigh⟩ := h.waits hq
  have hkept : r.rb = q.rb ∧ r.rx.busy = true ∧ r.rx.start = q.rx.start ∧
      ∀ j < r.rx.count, r.rx.shift.getLsbD j = level (q.cfg.off + j * q.cfg.bp) := by
    rcases Nat.lt_or_ge n q.rx.deadline with hlt | hge
    · obtain ⟨hrx, hrb⟩ := step_of_capturing hu (State.hostPhase_of_block hq) hr h.busy
      rw [Inst.captureStep_of_waiting (p := q.hostPhase _) (by rwa [← h.elapsed_eq] at hlt)] at hrx hrb
      rw [hrx]
      exact ⟨hrb, h.busy, rfl, h.bits⟩
    · have hdue : n = q.cfg.off + q.rx.count * q.cfg.bp := Nat.le_antisymm hhigh (hdeadline ▸ hge)
      have hlt : q.rx.count < 8 := Nat.lt_of_mul_lt_mul_right (a := q.cfg.bp) (by omega)
      obtain ⟨hsample, -⟩ := sampleStep t u k q r hu hq hr h.busy hlt
      obtain ⟨hbit, hothers, hnext, -, hbusy, hstart, hrb⟩ := hsample (by rwa [h.elapsed_eq])
      refine ⟨hrb, hbusy, hstart, fun j hj => ?_⟩
      rcases Nat.lt_succ_iff_lt_or_eq.1 (hnext ▸ hj) with hj | rfl
      · rw [hothers j (hj.trans hlt) hj.ne, h.bits j hj]
      · rw [hbit, hlevel, hdue]
  obtain ⟨hrb, hbusy, hstart, hbits⟩ := hkept
  obtain ⟨-, -, -, hframe, -⟩ := (InstConfig.valid_iff _ _).1 (State.cfg_valid_of_configValid h.inv.1 hq)
  obtain ⟨hdomain, htimer, -⟩ := step_domain hu
  refine ⟨u, r, hu, hr, hcfg, hrb, hinv, hbusy, ?_, hcfg ▸ hbits⟩
  rw [hdomain, htimer, hstart, elapsed_succ _ _ _ h.inv.2.1 (by rw [h.elapsed_eq]; omega), h.elapsed_eq]

/-- The tick of the stop finishes the capture and pushes the eight sampled bits (R125, R126). -/
theorem State.Captures.step_of_last (h : t.Captures q level n) (hq : t.insts[k]? = some q)
    (hn : n = q.cfg.off + 8 * q.cfg.bp) :
    ∃ u r, step t = .next u ∧ u.insts[k]? = some r ∧
      (∀ j < 8, r.rx.shift.getLsbD j = level (q.cfg.off + j * q.cfg.bp)) ∧
      r.rx.busy = false ∧ r.rb.w = (q.rb.w + 1) % q.cfg.cap ∧ r.rb.r = q.rb.r ∧
        ∀ a, Memory.read r.rb.mem a = if a = q.rb.w then r.rx.shift else Memory.read q.rb.mem a := by
  obtain ⟨u, r, hu, hr, -⟩ := h.inv.exists_step_block hq
  obtain ⟨hcount, hdeadline, hhigh⟩ := h.waits hq
  obtain ⟨hbp, -⟩ := (InstConfig.valid_iff _ _).1 (State.cfg_valid_of_configValid h.inv.1 hq)
  have hall : q.rx.count = 8 := by
    have hge : 8 ≤ q.rx.count := Nat.le_of_mul_le_mul_right (show 8 * q.cfg.bp ≤ q.rx.count * q.cfg.bp by omega) (by omega)
    omega
  obtain ⟨-, hstop⟩ := stopStepPushes t k q h.inv.1 hq h.busy hall (by rw [h.elapsed_eq, hdeadline, hall, hn])
  obtain ⟨hw, -, hwf⟩ := State.Inv.ringSound h.inv hq
  obtain ⟨hidle, hshift, hring, hread, hmem⟩ := hstop u r hw hwf hu hr
  rw [← hshift] at hmem
  exact ⟨u, r, hu, hr, fun j hj => by rw [hshift, h.bits j (hall ▸ hj)], hidle, hring, hread, hmem⟩

/-- The tick after the start of a capture is tick 1 of the capture (R123). -/
theorem State.StartsCapture.captures (ht : t.Inv) (hq : t.insts[k]? = some q) (h : t.StartsCapture k) (level : Nat → Bool) :
    ∃ u r, step t = .next u ∧ u.insts[k]? = some r ∧ r.cfg = q.cfg ∧ r.rb = q.rb ∧ u.Captures r level 1 := by
  obtain ⟨u, r, hu, hr, hinv, hcfg⟩ := ht.exists_step_block hq
  obtain ⟨hbusy, hstart, -, hcount, -, -, hrb⟩ := captureStartStep t u k q r hu h hq hr
  obtain ⟨hbp, hframe, -⟩ := (InstConfig.valid_iff _ _).1 (State.cfg_valid_of_configValid ht.1 hq)
  obtain ⟨hdomain, htimer, -⟩ := step_domain hu
  refine ⟨u, r, hu, hr, hcfg, hrb, hinv, hbusy, ?_, by simp [hcount]⟩
  rw [hdomain, htimer, hstart]
  exact elapsed_tick_of_start ht.2.1 (by omega)

end capture

/-- In each of the `OFF + 8*BP` ticks after its start a capture goes on, with the samples of the pin's levels in their ticks, and
leaves the ring alone (R126). -/
theorem State.StartsCapture.captures_after {s : State} {k : Nat} {p : Inst} (hs : s.Inv) (hp : s.insts[k]? = some p)
    (h : s.StartsCapture k) {n : Nat} (h1 : 1 ≤ n) (hn : n ≤ p.cfg.off + 8 * p.cfg.bp) :
    After n s k fun t q => q.cfg = p.cfg ∧ q.rb = p.rb ∧ t.Captures q (p.pinAt s.dom s.tick k) n := by
  induction n, h1 using Nat.le_induction with
  | base =>
    obtain ⟨u, r, hu, hr, hcapture⟩ := State.StartsCapture.captures hs hp h (p.pinAt s.dom s.tick k)
    exact ⟨u, r, ticks_succ_last_iff.2 ⟨s, rfl, hu⟩, hr, hcapture⟩
  | succ n _ ih =>
    obtain ⟨t, q, ht, hq, hcfg, hrb, hcapture⟩ := ih (by omega)
    have hlevel : q.pinLevel t.dom t.tick k = p.pinAt s.dom s.tick k n := by
      rw [Inst.pinLevel_eq_pinAt, ticks_pinAt ht hp hq, Nat.zero_add]
    obtain ⟨u, r, hu, hr, hcfg', hrb', hcapture'⟩ := hcapture.step_of_lt hq hlevel (by rw [hcfg]; omega)
    exact ⟨u, r, ticks_succ_last_iff.2 ⟨t, ht, hu⟩, hr, hcfg'.trans hcfg, hrb'.trans hrb, hcapture'⟩

/-- Settles O43: the invariant shows the samples taken in each tick of the capture, and its last tick is the stop step. -/
theorem captureSchedule : Obligations.CaptureSchedule := by
  intro s k p hs hp hk
  have hcaptures := fun {n} => State.StartsCapture.captures_after hs hp hk (n := n)
  obtain ⟨hbp, -⟩ := (InstConfig.valid_iff _ _).1 (State.cfg_valid_of_configValid hs.1 hp)
  have hend : After (p.cfg.off + 8 * p.cfg.bp + 1) s k fun _ q =>
      (∀ j < 8, q.rx.shift.getLsbD j = p.pinAt s.dom s.tick k (p.cfg.off + j * p.cfg.bp)) ∧
      q.rx.busy = false ∧ q.rb.w = (p.rb.w + 1) % p.cfg.cap ∧ q.rb.r = p.rb.r ∧
        ∀ a, Memory.read q.rb.mem a = if a = p.rb.w then q.rx.shift else Memory.read p.rb.mem a := by
    obtain ⟨t, q, ht, hq, hcfg, hrb, hcapture⟩ := hcaptures (n := p.cfg.off + 8 * p.cfg.bp) (by omega) le_rfl
    obtain ⟨u, r, hu, hr, hlast⟩ := hcapture.step_of_last hq (by rw [hcfg])
    rw [hcfg, hrb] at hlast
    exact ⟨u, r, ticks_succ_last_iff.2 ⟨t, ht, hu⟩, hr, hlast⟩
  refine ⟨fun m hlo hhi => ?_, fun j m hj hlo hhi => ?_, ?_⟩
  · obtain ⟨t, q, ht, hq, -, hrb, hcapture⟩ := hcaptures hlo hhi
    exact ⟨t, q, ht, hq, hcapture.busy, hrb⟩
  · rcases Nat.lt_or_eq_of_le hhi with hlt | rfl
    · obtain ⟨t, q, ht, hq, hcfg, -, hcapture⟩ := hcaptures (n := m) (by omega) (by omega)
      rw [← hcfg] at hlo ⊢
      exact ⟨t, q, ht, hq, hcapture.bit_of_lt hq (by omega)⟩
    · obtain ⟨u, r, hu, hr, hbits, -⟩ := hend
      exact ⟨u, r, hu, hr, hbits j hj⟩
  · obtain ⟨u, r, hu, hr, -, hlast⟩ := hend
    exact ⟨u, r, hu, hr, hlast⟩

end Sys2Proof.Machine
end

section
/-! PROOFS, family 41_receive.md: the setting of the round trip (R135): the inputs that a tick of a system sets in each domain
(R47, R180), and that a system of reachable domains steps, each domain by its own step. -/
namespace Sys2Proof.Machine

/-! ### The inputs of a domain -/

/-- A domain with the surroundings of its blocks replaced. -/
def State.withEnv (s : State) (f : Nat → Inst → Env) : State :=
  { s with insts := s.insts.mapIdx fun k p => { p with env := f k p } }

theorem State.getElem?_withEnv {s : State} {k : Nat} {p : Inst} (hp : s.insts[k]? = some p) (f : Nat → Inst → Env) :
    (s.withEnv f).insts[k]? = some { p with env := f k p } := by
  rw [State.withEnv, List.getElem?_mapIdx, hp, Option.map_some]

/-- The invariant does not speak of the surroundings. -/
theorem State.inv_withEnv {s : State} (h : s.Inv) (f : Nat → Inst → Env) : (s.withEnv f).Inv := by
  have hback : ∀ {k : Nat} {q : Inst}, (s.withEnv f).insts[k]? = some q →
      ∃ p, s.insts[k]? = some p ∧ q = { p with env := f k p } := fun hq => by
    rw [State.withEnv, List.getElem?_mapIdx, Option.map_eq_some_iff] at hq
    obtain ⟨p, hp, rfl⟩ := hq
    exact ⟨p, hp, rfl⟩
  rw [State.inv_iff] at h ⊢
  obtain ⟨hv, ht, hok, hone⟩ := h
  refine ⟨?_, ht, fun k q hq => ?_, fun i j p q hp hq hbp hbq => ?_⟩
  · refine (State.configValid_of_blocks (s := s) (t := s.withEnv f) rfl (by simp [State.withEnv]) fun k p q hp hq => ?_).trans hv
    obtain ⟨p', hp', rfl⟩ := hback hq
    cases hp.symm.trans hp'
    rfl
  · obtain ⟨p, hp, rfl⟩ := hback hq
    exact hok k p hp
  · obtain ⟨p', hp', rfl⟩ := hback hp
    obtain ⟨q', hq', rfl⟩ := hback hq
    exact hone i j p' q' hp' hq' hbp hbq

/-- The surroundings of a block with its inputs of this tick: the level of its wire and the move of its agent, if it has them. -/
def System.inputs (y : System) (d : Nat) (n : Node) (k : Nat) (p : Inst) : Env where
  delivered := p.env.delivered
  rxIn := ((y.wireLevel ⟨d, k⟩).map (· :: p.env.rxIn.tail)).getD p.env.rxIn
  hostIn := (n.agent.map fun a => a.move (y.wired d n.state) k :: p.env.hostIn.tail).getD p.env.hostIn

/-- The preparation of a domain's tick sets its inputs and nothing else (R47, R180). -/
theorem System.prepared_eq (y : System) (d : Nat) (n : Node) : y.prepared d n = n.state.withEnv (y.inputs d n) := by
  have hpin : ∀ (k : Nat) (p : Inst), p.withPin (y.wireLevel ⟨d, k⟩) =
      { p with env.rxIn := ((y.wireLevel ⟨d, k⟩).map (· :: p.env.rxIn.tail)).getD p.env.rxIn } := fun k p => by
    cases y.wireLevel ⟨d, k⟩ <;> rfl
  rw [System.prepared]
  cases hagent : n.agent with
  | none => simp only [System.wired, hpin, State.withEnv, System.inputs, hagent, Option.map_none, Option.getD_none]
  | some a =>
    simp only [HostAgent.drive, System.wired, hpin, State.withEnv, System.inputs, hagent, Option.map_some, Option.getD_some,
      List.mapIdx_mapIdx, Function.comp_def]

/-- A wired pin's level of the tick is the wire's (R47). -/
theorem System.pinLevel_prepared {y : System} {d k : Nat} {l : Bool} (hl : y.wireLevel ⟨d, k⟩ = some l) (n : Node) (p : Inst)
    (dom tick : Nat) : ({ p with env := y.inputs d n k p } : Inst).pinLevel dom tick k = l := by
  rw [Inst.pinLevel, System.inputs, hl]
  rfl

theorem System.prepared_getElem? (y : System) (d : Nat) {m : Node} {k : Nat} {q : Inst} (hq : m.state.insts[k]? = some q) :
    (y.prepared d m).insts[k]? = some { q with env := y.inputs d m k q } := by
  rw [System.prepared_eq, State.getElem?_withEnv hq]

theorem System.prepared_gie (y : System) (d : Nat) (m : Node) : (y.prepared d m).gie = m.state.gie := by
  rw [System.prepared_eq]
  rfl

theorem System.prepared_of_alone (y : System) (d : Nat) {m : Node} {q : Inst} (hone : m.state.insts = [q]) :
    (y.prepared d m).insts = [{ q with env := y.inputs d m 0 q }] := by
  rw [System.prepared_eq, State.withEnv, hone]
  rfl

/-! ### A tick of a system -/

theorem System.stepNode_of_step {y : System} {d : Nat} {n : Node} {t : State} (h : Machine.step (y.prepared d n) = .next t) :
    y.stepNode d n = .next { state := t, agent := n.agent.map fun a => a.next n.state } := by
  rw [System.stepNode, h]

theorem System.stepFrom_of_stepNode {y : System} {d : Nat} {ns : List Node}
    (h : ∀ (j : Nat) (n : Node), ns[j]? = some n → ∃ n', y.stepNode (d + j) n = .next n') :
    ∃ ns', y.stepFrom d ns = .next ns' := by
  induction ns generalizing d with
  | nil => exact ⟨[], rfl⟩
  | cons n ns ih =>
    obtain ⟨n', hn'⟩ := h 0 n rfl
    obtain ⟨ns', hns'⟩ := ih (d := d + 1) fun j m hm => by
      rw [Nat.add_assoc, Nat.add_comm 1 j]
      exact h (j + 1) m hm
    exact ⟨n' :: ns', by rw [System.stepFrom, show y.stepNode d n = .next n' from hn', hns']⟩

theorem System.length_stepFrom {y : System} {d : Nat} {ns ns' : List Node} (h : y.stepFrom d ns = .next ns') :
    ns'.length = ns.length := by
  induction ns generalizing d ns' with
  | nil =>
    cases h
    rfl
  | cons n ns ih =>
    unfold System.stepFrom at h
    split at h
    · split at h
      · next hns =>
        cases h
        rw [List.length_cons, List.length_cons, ih hns]
      · cases h
      · cases h
    · cases h
    · cases h

/-- A tick of a system is a tick of its domains, and leaves the wires (R47). -/
theorem System.step_stepFrom {y z : System} (h : y.step = .next z) :
    y.stepFrom 0 y.nodes = .next z.nodes ∧ z.wires = y.wires := by
  unfold System.step at h
  split at h
  · next hns =>
    cases h
    exact ⟨hns, rfl⟩
  · cases h
  · cases h

/-- Each domain of a system makes its own step, with its inputs set. -/
theorem System.step_getElem? {y z : System} (h : y.step = .next z) {d : Nat} {n : Node} (hn : y.nodes[d]? = some n) :
    ∃ n', z.nodes[d]? = some n' ∧ Machine.step (y.prepared d n) = .next n'.state ∧ (n.agent = none → n'.agent = none) := by
  obtain ⟨hnodes, -⟩ := System.step_stepFrom h
  have hn' := List.getElem?_eq_getElem (l := z.nodes)
    ((System.length_stepFrom hnodes).symm ▸ (List.getElem?_eq_some_iff.1 hn).1)
  have hstep := System.step_node h hn hn'
  refine ⟨_, hn', hstep, fun hagent => ?_⟩
  have hnode := System.stepFrom_getElem? hnodes hn hn'
  rw [Nat.zero_add, System.stepNode_of_step hstep, hagent] at hnode
  exact congrArg Node.agent (Host.Outcome.next.inj hnode).symm

/-- The domains of a system are reachable: each meets the invariant. -/
abbrev System.Inv (y : System) : Prop := ∀ n ∈ y.nodes, n.state.Inv

theorem System.Inv.prepared {y : System} (h : y.Inv) {d : Nat} {n : Node} (hn : y.nodes[d]? = some n) :
    (y.prepared d n).Inv := by
  rw [System.prepared_eq]
  exact State.inv_withEnv (h n (List.mem_of_getElem? hn)) _

/-- A system of reachable domains steps (R216). -/
theorem System.Inv.exists_step {y : System} (h : y.Inv) : ∃ z, y.step = .next z := by
  obtain ⟨ns, hns⟩ := System.stepFrom_of_stepNode (y := y) (d := 0) (ns := y.nodes) fun d n hn => by
    obtain ⟨t, ht⟩ := (h.prepared hn).exists_step
    rw [Nat.zero_add]
    exact ⟨_, System.stepNode_of_step ht⟩
  exact ⟨_, by rw [System.step, hns]⟩

theorem System.Inv.step {y z : System} (h : y.Inv) (hz : y.step = .next z) : z.Inv := by
  intro n' hn'
  obtain ⟨d, hd⟩ := List.mem_iff_getElem?.1 hn'
  have hlen := System.length_stepFrom (System.step_stepFrom hz).1
  have hn := List.getElem?_eq_getElem (l := y.nodes) (hlen ▸ (List.getElem?_eq_some_iff.1 hd).1)
  exact stepKeepsInvariant _ _ (h.prepared hn) (System.step_node hz hn hd)

/-- A run of a system ends with a step. -/
theorem System.run_succ_last {n : Nat} {y z w : System} (h : System.run n y = .next z) (hw : z.step = .next w) :
    System.run (n + 1) y = .next w := by
  induction n generalizing y with
  | zero =>
    cases h
    simp [System.run, hw]
  | succ n ih =>
    rw [System.run] at h ⊢
    split at h
    · exact ih h
    · cases h
    · cases h

end Sys2Proof.Machine
end

section
/-! PROOFS, family 41_receive.md: the round trip of one frame between two domains (R135, R9). The receiving domain waits for two
ticks, which bring the line's fall into its edge latch, and captures from the frame's second tick on; a round-trip-capable offset
puts sample `j` into the frame's cell `j + 1`. -/
namespace Sys2Proof

theorem InstConfig.roundTrip_iff (W : Nat) (c : InstConfig) :
    c.roundTrip W = true ↔ c.valid W = true ∧ c.bp - 1 ≤ c.off ∧ c.off ≤ 2 * c.bp - 2 := by
  simp [InstConfig.roundTrip, and_assoc]

end Sys2Proof

namespace Sys2Proof.Machine

/-! ### The sending domain -/

/-- The level on the line in tick `n` of a frame (R104). -/
theorem State.Sends.line_eq {t : State} {q : Inst} {k n : Nat} {b : Byte} (h : t.Sends q b n) (hq : t.insts[k]? = some q)
    (h1 : 1 ≤ n) : q.tx.line = cell b ((n - 1) / q.cfg.bp) := by
  obtain ⟨hbp, -⟩ := (InstConfig.valid_iff _ _).1 (State.cfg_valid_of_configValid h.inv.1 hq)
  have hlo := Nat.div_mul_le_self (n - 1) q.cfg.bp
  have hhi := Nat.lt_mul_of_div_lt (Nat.lt_succ_self ((n - 1) / q.cfg.bp)) (show 0 < q.cfg.bp by omega)
  rw [Nat.succ_eq_add_one] at hhi
  obtain ⟨-, hline, -, -⟩ := h.tx_of_cell hq (j := (n - 1) / q.cfg.bp) (by omega) (by omega)
  exact hline

/-- The only wire of a system carries the level of the transmit pin it begins at (R47). -/
theorem System.wireLevel_of_wire {y : System} {p p' : Pin} (hw : y.wires = [{ source := p, sink := p' }]) {m : Node} {r : Inst}
    (hm : y.nodes[p.dom]? = some m) (hr : m.state.insts[p.inst]? = some r) (hpin : r.cfg.txPresent = true) :
    y.wireLevel p' = some r.tx.line := by
  simp [System.wireLevel, hw, System.txLevel, hm, hr, Inst.txPin, hpin]

/-- The system's only wire goes from block `k` of the domain `a` to block 0 of the domain `b`, and block `k`, whose bit period is
`bp`, is in tick `n` of a frame of the byte `v`. -/
structure System.Sends (y : System) (a b k bp : Nat) (v : Byte) (n : Nat) : Prop where
  inv : y.Inv
  wires : y.wires = [{ source := ⟨a, k⟩, sink := ⟨b, 0⟩ }]
  sends : ∃ m r, y.nodes[a]? = some m ∧ m.state.insts[k]? = some r ∧ r.cfg.bp = bp ∧ m.state.Sends r v n

section sending
variable {y z : System} {a b k bp n : Nat} {v : Byte}

/-- What the receiving pin shows in tick `n` of the frame (R47, R104). -/
theorem System.Sends.wireLevel (h : y.Sends a b k bp v n) (h1 : 1 ≤ n) :
    y.wireLevel ⟨b, 0⟩ = some (cell v ((n - 1) / bp)) := by
  obtain ⟨m, r, hm, hr, rfl, hsends⟩ := h.sends
  obtain ⟨-, -, hok, -⟩ := (State.inv_iff _).1 hsends.inv
  obtain ⟨⟨-, -, -, hsending, -⟩, -⟩ := hok k r hr
  obtain ⟨hpin, -⟩ := hsending hsends.busy
  rw [System.wireLevel_of_wire h.wires hm hr hpin, hsends.line_eq hr h1]

theorem System.Sends.step (h : y.Sends a b k bp v n) (hn : n < 10 * bp) (hz : y.step = .next z) :
    z.Sends a b k bp v (n + 1) := by
  obtain ⟨m, r, hm, hr, rfl, hsends⟩ := h.sends
  obtain ⟨m', hm', hstep, -⟩ := System.step_getElem? hz hm
  have hsends' : (y.prepared a m).Sends { r with env := y.inputs a m k r } v n :=
    ⟨h.inv.prepared hm, hsends.busy, hsends.byte_eq, by rw [System.prepared_eq]; exact hsends.elapsed_eq⟩
  obtain ⟨u, r', hu, hru, hcfg, hnext⟩ := hsends'.step_of_lt (y.prepared_getElem? a hr) hn
  cases hstep.symm.trans hu
  exact ⟨h.inv.step hz, (System.step_stepFrom hz).2.trans h.wires, m', r', hm', hru, by rw [hcfg], hnext⟩

/-- The tick that accepts TX_BYTE: the line is high in it, and the next tick is tick 1 of the frame (R102, R104). -/
theorem System.sends_of_accepts (h : y.Inv) (hw : y.wires = [{ source := ⟨a, k⟩, sink := ⟨b, 0⟩ }]) {m : Node} {p : Inst}
    (hm : y.nodes[a]? = some m) (hp : m.state.insts[k]? = some p) (hpin : p.cfg.txPresent = true)
    (hacc : (y.prepared a m).Accepts k (.txByte v)) (hz : y.step = .next z) :
    y.wireLevel ⟨b, 0⟩ = some true ∧ z.Sends a b k p.cfg.bp v 1 := by
  obtain ⟨m', hm', hstep, -⟩ := System.step_getElem? hz hm
  have hp' := y.prepared_getElem? a hp
  constructor
  · have htaken : (y.prepared a m).TakesWord k (encode (.txByte v)) := hacc
    obtain ⟨hidle, -⟩ := htaken.idle.2 k _ (State.hostPhase_of_block hp')
    obtain ⟨-, -, hok, -⟩ := (State.inv_iff _).1 (h m (List.mem_of_getElem? hm))
    obtain ⟨⟨-, -, -, -, hline⟩, -⟩ := hok k p hp
    rw [System.wireLevel_of_wire hw hm hp hpin, hline hidle]
  · obtain ⟨u, r, hu, hr, hcfg, hsends⟩ := State.Accepts.sends (h.prepared hm) hp' hpin hacc
    cases hstep.symm.trans hu
    exact ⟨h.step hz, (System.step_stepFrom hz).2.trans hw, m', r, hm', hr, by rw [hcfg], hsends⟩

end sending

/-! ### The receiving domain -/

theorem State.hostPhase_of_alone {s : State} {p : Inst} (hone : s.insts = [p]) :
    s.hostPhase.insts = [p.hostPhase (p.hostMove s.dom s.tick 0)] := by simp [hone]

/-- A tick of a domain whose only block is idle, with nothing latched and no command placed, moves the edge detector only. -/
theorem step_of_undisturbed {s t : State} {p : Inst} (h : step s = .next t) (hone : s.insts = [p]) (htx : p.tx.busy = false)
    (hrx : p.rx.busy = false) (hlatch : p.rx.edgePending = false) (hcmd : p.port.cmd = none)
    (hmove : p.hostMove s.dom s.tick 0 = HostMove.idle) :
    t.gie = s.gie ∧
      t.insts =
        [{ (p.hostPhase HostMove.idle).latchEdge (p.pinLevel s.dom s.tick 0) false with env.rxIn := p.env.rxIn.tail }] := by
  have hinsts : s.hostPhase.insts = [p.hostPhase HostMove.idle] := by rw [State.hostPhase_of_alone hone, hmove]
  have honly : ∀ {j : Nat} {r : Inst}, s.hostPhase.insts[j]? = some r → r = p.hostPhase HostMove.idle := fun hr => by
    rw [hinsts] at hr
    exact List.mem_singleton.1 (List.mem_of_getElem? hr)
  obtain ⟨-, -, ⟨-, rfl⟩ | ⟨k, w, -, -, hk, -, -, -⟩⟩ := step_next h
  · have hgo : s.hostPhase.captureSelect = none := Option.eq_none_iff_forall_ne_some.2 fun j hj => by
      obtain ⟨⟨r, hr, -, -, hpend, -⟩, -⟩ := captureSelection.1 _ j hj
      rw [honly hr, Inst.hostPhase_rx, hlatch] at hpend
      cases hpend
    rw [State.afterEngines, hgo]
    refine ⟨State.engines_gie_of_idle (fun j r hr => ?_) none, ?_⟩
    · rw [honly hr, Inst.hostPhase_tx, htx]
    · rw [State.advance_insts, State.engines_insts, hinsts]
      exact congrArg (fun q => [q]) (Inst.engines_of_idle _ _ _ (p.hostPhase HostMove.idle) htx hrx)
  · obtain ⟨r, hr, hw, -⟩ := hk.slots
    rw [honly hr, Inst.hostPhase_port, hcmd] at hw
    cases hw

/-- The only block of a domain is the only candidate where it is ready, so its capture starts (R46). -/
theorem State.startsCapture_of_alone {s : State} {p : Inst} (hone : s.insts = [p]) (hpin : p.cfg.rxPresent = true)
    (hidle : p.rx.busy = false) (hpend : p.rx.edgePending = true) (hgie : s.gie = true) : s.StartsCapture 0 := by
  have hinsts := State.hostPhase_of_alone hone
  have hquiet : s.hostPhase.rxActive = false := by
    rw [State.rxActive, hinsts]
    simp [hidle]
  have hready : s.hostPhase.indices (·.ready s.hostPhase.gie) = [0] := by
    rw [State.indices, hinsts]
    simp [Inst.ready, hpin, hidle, hpend, hgie]
  rw [State.StartsCapture, State.captureSelect, hquiet, hready]
  rfl

/-- A domain that waits for a frame on its only block `q`, which has a receive pin: nothing of it is busy or about to be, and
interrupts are enabled. -/
structure Node.Listens (m : Node) (q : Inst) : Prop where
  inv : m.state.Inv
  agent : m.agent = none
  alone : m.state.insts = [q]
  pin : q.cfg.rxPresent = true
  gie : m.state.gie = true
  idle : q.rx.busy = false
  cmd : q.port.cmd = none

section listening
variable {y z : System} {d : Nat} {m : Node} {q : Inst}

/-- A tick in which the host of a listening domain waits: the edge detector sees the wire's level (R120, R121). -/
theorem Node.Listens.step {l : Bool} {moves : List HostMove} (h : m.Listens q) (hm : y.nodes[d]? = some m)
    (hl : y.wireLevel ⟨d, 0⟩ = some l) (hlatch : q.rx.edgePending = false) (hhost : q.env.hostIn = HostMove.idle :: moves)
    (hz : y.step = .next z) (hinv : z.Inv) :
    ∃ m' q', z.nodes[d]? = some m' ∧ m'.Listens q' ∧ q'.cfg = q.cfg ∧ q'.rb = q.rb ∧ q'.env.hostIn = moves ∧
      q'.rx.prev = l ∧ q'.rx.edgePending = (q.rx.prev && !l) := by
  obtain ⟨m', hm', hstep, hagent⟩ := System.step_getElem? hz hm
  have hhost' : (y.inputs d m 0 q).hostIn = HostMove.idle :: moves := by rw [System.inputs, h.agent]; exact hhost
  have htx : q.tx.busy = false := by
    obtain ⟨-, -, hok, -⟩ := (State.inv_iff _).1 h.inv
    obtain ⟨-, -, -, hoff, -⟩ := hok 0 q (by rw [h.alone]; rfl)
    exact Bool.eq_false_iff.2 fun hb => Bool.false_ne_true ((hoff hb).symm.trans h.gie)
  obtain ⟨hgie, hinsts⟩ := step_of_undisturbed hstep (y.prepared_of_alone d h.alone) htx h.idle hlatch h.cmd
    (by rw [Inst.hostMove, hhost'])
  rw [System.pinLevel_prepared hl] at hinsts
  rw [System.prepared_gie] at hgie
  refine ⟨m', _, hm', ⟨hinv m' (List.mem_of_getElem? hm'), hagent h.agent, hinsts, h.pin, hgie.trans h.gie, h.idle, ?_⟩,
    rfl, rfl, ?_, if_pos h.pin, ?_⟩
  · rw [Inst.latchEdge_port, Inst.hostPhase_port, h.cmd]
    rfl
  · simp [hhost']
  · simp [Inst.edgeSeen, h.pin, hlatch]

/-- A listening domain with an edge latched starts its capture (R46). -/
theorem Node.Listens.captures (h : m.Listens q) (hm : y.nodes[d]? = some m) (hlatch : q.rx.edgePending = true)
    (hz : y.step = .next z) (hy : y.Inv) (level : Nat → Bool) :
    ∃ m' r, z.nodes[d]? = some m' ∧ m'.state.insts[0]? = some r ∧ r.cfg = q.cfg ∧ r.rb = q.rb ∧
      m'.state.Captures r level 1 := by
  obtain ⟨m', hm', hstep, -⟩ := System.step_getElem? hz hm
  have hone := y.prepared_of_alone d h.alone
  have hstart := State.startsCapture_of_alone hone h.pin h.idle hlatch ((y.prepared_gie d m).trans h.gie)
  obtain ⟨u, r, hu, hr, hcfg, hrb, hcaptures⟩ := State.StartsCapture.captures (hy.prepared hm) (by rw [hone]; rfl) hstart level
  cases hstep.symm.trans hu
  exact ⟨m', r, hm', hr, hcfg, hrb, hcaptures⟩

end listening

/-- Block 0 of the domain `d` of a system, with the configuration and the ring of `p`, is in tick `n` of a capture of the levels
`level`. -/
def System.Captures (y : System) (d : Nat) (p : Inst) (level : Nat → Bool) (n : Nat) : Prop :=
  ∃ m q, y.nodes[d]? = some m ∧ m.state.insts[0]? = some q ∧ q.cfg = p.cfg ∧ q.rb = p.rb ∧ m.state.Captures q level n

section capturing
variable {y z : System} {d n : Nat} {p : Inst} {level : Nat → Bool}

/-- The tick's inputs do not disturb a capture. -/
theorem State.Captures.prepared {m : Node} {q : Inst} (h : m.state.Captures q level n) (hm : y.nodes[d]? = some m)
    (hy : y.Inv) : (y.prepared d m).Captures { q with env := y.inputs d m 0 q } level n :=
  ⟨hy.prepared hm, h.busy, by rw [System.prepared_eq]; exact h.elapsed_eq, h.bits⟩

/-- A capture of the wire's levels goes on until its stop is due (R126). -/
theorem System.Captures.step (h : y.Captures d p level n) (hl : y.wireLevel ⟨d, 0⟩ = some (level n))
    (hn : n < p.cfg.off + 8 * p.cfg.bp) (hz : y.step = .next z) (hy : y.Inv) : z.Captures d p level (n + 1) := by
  obtain ⟨m, q, hm, hq, hcfg, hrb, hcapture⟩ := h
  obtain ⟨m', hm', hstep, -⟩ := System.step_getElem? hz hm
  obtain ⟨u, r, hu, hr, hcfg', hrb', hnext⟩ := (hcapture.prepared hm hy).step_of_lt (y.prepared_getElem? d hq)
    (System.pinLevel_prepared hl ..) (by rwa [hcfg])
  cases hstep.symm.trans hu
  exact ⟨m', r, hm', hr, hcfg'.trans hcfg, hrb'.trans hrb, hnext⟩

/-- The tick of the stop pushes the byte whose bits are the levels of the sampling ticks (R125, R126). -/
theorem System.Captures.step_of_last (h : y.Captures d p level n) (hn : n = p.cfg.off + 8 * p.cfg.bp) {v : Byte}
    (hv : ∀ j < 8, level (p.cfg.off + j * p.cfg.bp) = v.getLsbD j) (hz : y.step = .next z) (hy : y.Inv) :
    ∃ m r, z.nodes[d]? = some m ∧ m.state.insts[0]? = some r ∧ r.rb.w = (p.rb.w + 1) % p.cfg.cap ∧
      Memory.read r.rb.mem p.rb.w = v := by
  obtain ⟨m, q, hm, hq, hcfg, hrb, hcapture⟩ := h
  obtain ⟨m', hm', hstep, -⟩ := System.step_getElem? hz hm
  obtain ⟨u, r, hu, hr, hbits, -, hw, -, hmem⟩ := (hcapture.prepared hm hy).step_of_last (y.prepared_getElem? d hq)
    (by rw [hcfg, hn])
  simp only [hcfg, hrb] at hbits hw hmem
  cases hstep.symm.trans hu
  refine ⟨m', r, hm', hr, hw, ?_⟩
  rw [hmem, if_pos rfl]
  exact BitVec.eq_of_getLsbD_eq fun j hj => by rw [hbits j hj, hv j hj]

end capturing

/-! ### The round trip -/

/-- The tick of sample `j` of a capture that starts in tick 2 of a frame shows the frame's cell `j + 1`, if the offset is
round-trip capable (R9). -/
theorem cell_of_sample {bp off : Nat} (hlo : bp - 1 ≤ off) (hhi : off ≤ 2 * bp - 2) (hbp : 2 ≤ bp) (v : Byte) {j : Nat}
    (hj : j < 8) : cell v ((off + j * bp + 1) / bp) = v.getLsbD j := by
  have hcell : (off + j * bp + 1) / bp = j + 1 := Nat.div_eq_of_lt_le (by rw [Nat.succ_mul]; omega) (by
    rw [Nat.succ_mul, Nat.succ_mul]
    omega)
  rw [hcell, cell_data v hj]

/-- The ring of block 0 of the domain `d` of a system. -/
def System.HasRing (y : System) (d : Nat) (rb : Ring) : Prop :=
  ∃ m q, y.nodes[d]? = some m ∧ m.state.insts[0]? = some q ∧ q.rb = rb

theorem System.Captures.hasRing {y : System} {d n : Nat} {p : Inst} {level : Nat → Bool} (h : y.Captures d p level n) :
    y.HasRing d p.rb := by
  obtain ⟨m, q, hm, hq, -, hrb, -⟩ := h
  exact ⟨m, q, hm, hq, hrb⟩

theorem Node.Listens.hasRing {y : System} {d : Nat} {m : Node} {q : Inst} (h : m.Listens q) (hm : y.nodes[d]? = some m) :
    y.HasRing d q.rb :=
  ⟨m, q, hm, by rw [h.alone]; rfl, rfl⟩

/-- The frame of the byte `v` is in its tick `n + 2`, and block 0 of the domain `b`, with the configuration and the ring of `p`, in
tick `n` of its capture. -/
def System.Relays (y : System) (a b k : Nat) (p : Inst) (v : Byte) (n : Nat) : Prop :=
  y.Sends a b k p.cfg.bp v (n + 2) ∧ y.Captures b p (fun i => cell v ((i + 1) / p.cfg.bp)) n

section roundTrip
variable {y : System} {a b k : Nat} {p : Inst} {v : Byte}

/-- The first three ticks of a round trip: the line is high in the first and falls in the second, which the receiver's latch holds
in the third, so that its capture starts (R102, R120, R121, R46). -/
theorem System.relays_of_accepts {nA nB : Node} {pA : Inst} {moves : List HostMove} (hy : y.Inv)
    (hwires : y.wires = [{ source := ⟨a, k⟩, sink := ⟨b, 0⟩ }]) (hA : y.nodes[a]? = some nA)
    (hpA : nA.state.insts[k]? = some pA) (htx : pA.cfg.txPresent = true) (hacc : (y.prepared a nA).Accepts k (.txByte v))
    (hB : y.nodes[b]? = some nB) (hlistens : nB.Listens p) (hbp : p.cfg.bp = pA.cfg.bp) (hbp2 : 2 ≤ p.cfg.bp)
    (hlatch : p.rx.edgePending = false) (hhost : p.env.hostIn = HostMove.idle :: HostMove.idle :: moves) :
    (∀ m < 3, ∃ z, System.run m y = .next z ∧ z.HasRing b p.rb) ∧
      ∃ z, System.run 3 y = .next z ∧ z.Relays a b k p v 1 := by
  obtain ⟨y₁, h₁⟩ := hy.exists_step
  obtain ⟨hhigh, hsends₁⟩ := System.sends_of_accepts hy hwires hA hpA htx hacc h₁
  rw [← hbp] at hsends₁
  obtain ⟨n₁, q₁, hn₁, hlistens₁, hcfg₁, hrb₁, hhost₁, hprev₁, hlatch₁⟩ := hlistens.step hB hhigh hlatch hhost h₁ hsends₁.inv
  rw [Bool.not_true, Bool.and_false] at hlatch₁
  obtain ⟨y₂, h₂⟩ := hsends₁.inv.exists_step
  have hsends₂ := hsends₁.step (by omega) h₂
  have hlow := hsends₁.wireLevel le_rfl
  rw [Nat.sub_self, Nat.zero_div, cell_zero] at hlow
  obtain ⟨n₂, q₂, hn₂, hlistens₂, hcfg₂, hrb₂, -, -, hlatch₂⟩ := hlistens₁.step hn₁ hlow hlatch₁ hhost₁ h₂ hsends₂.inv
  rw [hprev₁, Bool.not_false, Bool.and_true] at hlatch₂
  obtain ⟨y₃, h₃⟩ := hsends₂.inv.exists_step
  have hsends₃ := hsends₂.step (by omega) h₃
  obtain ⟨n₃, q₃, hn₃, hq₃, hcfg₃, hrb₃, hcaptures₃⟩ := hlistens₂.captures hn₂ hlatch₂ h₃ hsends₂.inv _
  have hrun₁ : System.run 1 y = .next y₁ := System.run_succ_last (n := 0) rfl h₁
  have hrun₂ := System.run_succ_last hrun₁ h₂
  refine ⟨fun m hm => ?_, y₃, System.run_succ_last hrun₂ h₃, hsends₃, n₃, q₃, hn₃, hq₃, (hcfg₃.trans hcfg₂).trans hcfg₁,
    (hrb₃.trans hrb₂).trans hrb₁, hcaptures₃⟩
  match m, hm with
  | 0, _ => exact ⟨y, rfl, hlistens.hasRing hB⟩
  | 1, _ => exact ⟨y₁, hrun₁, hrb₁ ▸ hlistens₁.hasRing hn₁⟩
  | 2, _ => exact ⟨y₂, hrun₂, hrb₁ ▸ hrb₂ ▸ hlistens₂.hasRing hn₂⟩

/-- From its first tick on the capture keeps two ticks behind the frame, which lasts longer than the capture (R9). -/
theorem System.run_relays (hoff : p.cfg.off ≤ 2 * p.cfg.bp - 2) (hbp : 2 ≤ p.cfg.bp)
    (h : ∃ z, System.run 3 y = .next z ∧ z.Relays a b k p v 1) {n : Nat} (h1 : 1 ≤ n) (hn : n ≤ p.cfg.off + 8 * p.cfg.bp) :
    ∃ z, System.run (n + 2) y = .next z ∧ z.Relays a b k p v n := by
  induction n, h1 using Nat.le_induction with
  | base => exact h
  | succ n _ ih =>
    obtain ⟨z, hz, hsends, hcaptures⟩ := ih (by omega)
    obtain ⟨w, hw⟩ := hsends.inv.exists_step
    have hlevel := hsends.wireLevel (by omega)
    exact ⟨w, System.run_succ_last hz hw, hsends.step (by omega) hw, hcaptures.step hlevel (by omega) hw hsends.inv⟩

end roundTrip

/-- Settles O55: three ticks bring the fall of the line to the start of a capture, and each of its samples falls into the frame's
cell of its bit. -/
theorem roundTripOneFrame : Obligations.RoundTripOneFrame := by
  intro y a b k nA nB pA pB v rest hy _ hA hB hwires hpA htx hacc hagent hone hpin hbp hround hgie hidle hlatch hcmd hhost
  obtain ⟨hvalid, hlo, hhi⟩ := (InstConfig.roundTrip_iff _ _).1 hround
  obtain ⟨hbp2, -⟩ := (InstConfig.valid_iff _ _).1 hvalid
  have hlistens : nB.Listens pB := ⟨hy nB (List.mem_of_getElem? hB), hagent, hone, hpin, hgie, hidle, hcmd⟩
  obtain ⟨hbegin, hstart⟩ := System.relays_of_accepts hy hwires hA hpA htx hacc hB hlistens hbp hbp2 hlatch hhost
  have hrelays := fun {n} => System.run_relays hhi hbp2 hstart (n := n)
  refine ⟨fun m hm => ?_, ?_⟩
  · have hring : ∃ z, System.run m y = .next z ∧ z.HasRing b pB.rb := by
      rcases Nat.lt_or_ge m 3 with hlt | hge
      · exact hbegin m hlt
      · obtain ⟨n, rfl⟩ := Nat.exists_eq_add_of_le' (show 2 ≤ m by omega)
        obtain ⟨z, hz, -, hcaptures⟩ := hrelays (n := n) (by omega) (by omega)
        exact ⟨z, hz, hcaptures.hasRing⟩
    obtain ⟨z, hz, n, q, hn, hq, hrb⟩ := hring
    exact ⟨z, n, q, hz, hn, hq, hrb⟩
  · obtain ⟨z, hz, hsends, hcaptures⟩ := hrelays (n := pB.cfg.off + 8 * pB.cfg.bp) (by omega) le_rfl
    obtain ⟨w, hw⟩ := hsends.inv.exists_step
    obtain ⟨n, q, hn, hq, hwrite, hread⟩ :=
      hcaptures.step_of_last rfl (fun j hj => cell_of_sample hlo hhi hbp2 v hj) hw hsends.inv
    exact ⟨w, n, q, System.run_succ_last hz hw, hn, hq, hwrite, hread⟩

end Sys2Proof.Machine
end

section
/-! PROOFS, family 42_ring_buffer.md: what the ring's commands answer (R152 to R155), and who writes the ring (R158). -/
namespace Sys2Proof.Machine

/-! ### RB_POP and RB_PEEK on the executing block -/

section oldest
variable {p : Inst} (timer : Nat)

theorem Inst.ringEmpty_iff : p.ringEmpty = true ↔ p.rb.w = p.rb.r := beq_iff_eq

/-- On an empty ring RB_POP and RB_PEEK answer the sentinel (R152, R153). -/
theorem Inst.perform_oldest_of_empty (h : p.rb.w = p.rb.r) {i : Instr} (hi : i = .rbPop ∨ i = .rbPeek) :
    p.perform timer i = some (p.respond .empty 0x00) := by
  rcases hi with rfl | rfl <;> exact if_pos (Inst.ringEmpty_iff.2 h)

/-- At a slot that does not exist RB_POP and RB_PEEK stop (log entry 11). -/
theorem Inst.perform_oldest_of_out_of_range (hne : p.rb.w ≠ p.rb.r) (hr : ¬p.rb.r < p.cfg.cap) {i : Instr}
    (hi : i = .rbPop ∨ i = .rbPeek) : p.perform timer i = none := by
  have hread : p.memRead p.rb.r = none := if_neg hr
  rcases hi with rfl | rfl <;> rw [Inst.perform, if_neg (mt Inst.ringEmpty_iff.1 hne), hread, Option.map_none]

theorem Inst.perform_rbPeek_of_unread (hne : p.rb.w ≠ p.rb.r) (hr : p.rb.r < p.cfg.cap) :
    p.perform timer .rbPeek = some (p.respond .ok (Memory.read p.rb.mem p.rb.r).toNat) := by
  rw [Inst.perform, if_neg (mt Inst.ringEmpty_iff.1 hne), p.memRead_of_lt hr]
  rfl

theorem Inst.perform_rbPop_of_unread (hne : p.rb.w ≠ p.rb.r) (hr : p.rb.r < p.cfg.cap) :
    p.perform timer .rbPop =
      some { p.respond .ok (Memory.read p.rb.mem p.rb.r).toNat with rb.r := nextIndex p.cfg.cap p.rb.r } := by
  rw [Inst.perform, if_neg (mt Inst.ringEmpty_iff.1 hne), p.memRead_of_lt hr]
  rfl

/-- RB_PEEK only answers, and RB_POP right after it gives the same answer (R153). -/
theorem Inst.perform_rbPeek_rbPop (hr : p.rb.r < p.cfg.cap) :
    ∃ st v q, p.perform timer .rbPeek = some (p.respond st v) ∧ (p.respond st v).perform timer .rbPop = some q ∧
      q.port.resp = some ⟨st, v⟩ := by
  by_cases he : p.rb.w = p.rb.r
  · exact ⟨_, _, _, Inst.perform_oldest_of_empty timer he (.inr rfl),
      Inst.perform_oldest_of_empty (p := p.respond _ _) timer he (.inl rfl), rfl⟩
  · exact ⟨_, _, _, Inst.perform_rbPeek_of_unread timer he hr,
      Inst.perform_rbPop_of_unread (p := p.respond _ _) timer he hr, rfl⟩

end oldest

/-! ### The ring's commands -/

section commands
variable {s : State} {p : Inst} (hp : s.insts[s.sel]? = some p)
include hp

/-- A command that its block cannot perform stops at a ring slot (log entry 11). -/
theorem exec_of_perform_none {i : Instr} (h : p.perform s.timer i = none) : exec i s = .fault .ringSlotOutOfRange := by
  rw [exec_eq i hp, h]
  rfl

/-- Two commands, one right after the other, on one block. -/
theorem exec_exec_of_perform {i j : Instr} {q r : Inst} (hi : p.perform s.timer i = some q)
    (hj : q.perform s.timer j = some r) :
    ∃ t u, exec i s = .next t ∧ exec j t = .next u ∧ t.insts[s.sel]? = some q ∧ u.insts[s.sel]? = some r := by
  obtain ⟨t, ht, hq, -, -, -, -, htimer, hsel, -⟩ := commandGives_of_perform hp hi
  rw [← hsel] at hq ⊢
  rw [← htimer] at hj
  obtain ⟨u, hu, hr, -⟩ := commandGives_of_perform hq hj
  exact ⟨t, u, ht, hu, hq, hr⟩

end commands

/-- Settles O11: RB_POP on an empty ring, on one with an unread byte, and at a slot that does not exist. -/
theorem rbPopAnswers : Obligations.RbPopAnswers := fun s _ hp =>
  ⟨fun he => commandGives_of_perform hp (Inst.perform_oldest_of_empty s.timer he (.inl rfl)),
    fun hne hr => commandGives_of_perform hp (Inst.perform_rbPop_of_unread s.timer hne hr),
    fun hne hr => exec_of_perform_none hp (Inst.perform_oldest_of_out_of_range s.timer hne hr (.inl rfl))⟩

/-- Settles O12: RB_PEEK in the same three cases; it leaves RB_POP the ring it read. -/
theorem rbPeekAnswers : Obligations.RbPeekAnswers := by
  intro s p hp
  refine ⟨fun he => commandGives_of_perform hp (Inst.perform_oldest_of_empty s.timer he (.inr rfl)),
    fun hne hr => commandGives_of_perform hp (Inst.perform_rbPeek_of_unread s.timer hne hr),
    fun hne hr => exec_of_perform_none hp (Inst.perform_oldest_of_out_of_range s.timer hne hr (.inr rfl)), fun hr => ?_⟩
  obtain ⟨st, v, q, hpeek, hpop, hresp⟩ := Inst.perform_rbPeek_rbPop s.timer hr
  obtain ⟨t, u, ht, hu, hq, hq'⟩ := exec_exec_of_perform hp hpeek hpop
  exact ⟨t, u, _, _, ht, hu, hq, hq', hresp.symm, nofun⟩

/-- Settles O13: RB_AVAIL answers `Inst.avail`, which `avail_eq` gives without the remainder. -/
theorem rbAvailCounts : Obligations.RbAvailCounts := by
  intro s p hp
  have hgives := commandGives_of_perform (i := .rbAvail) hp rfl
  refine ⟨hgives, fun hw hle => ?_, fun hr hlt => ⟨by omega, ?_⟩⟩
  · rwa [avail_eq p hw (hle.trans_lt hw), if_pos hle] at hgives
  · rwa [avail_eq p (hlt.trans hr) hr, if_neg (Nat.not_le.2 hlt)] at hgives

/-- Settles O14: RB_CLEAR makes the indices equal, and then RB_AVAIL counts nothing. -/
theorem rbClearEmpties : Obligations.RbClearEmpties := by
  intro s p hp
  obtain ⟨t, u, ht, hu, -, hq⟩ := exec_exec_of_perform (i := .rbClear) (j := .rbAvail) hp rfl rfl
  refine ⟨commandGives_of_perform hp rfl, t, u, _, ht, hu, hq, ?_⟩
  simp [Inst.avail]

/-! ### What no command changes, and who writes the ring -/

/-- No command's meaning runs without a block (log entry 10). -/
theorem exec_of_no_block (i : Instr) {s : State} (h : s.insts[s.sel]? = none) : exec i s = .fault .noSuchInstance := by
  have hstop : ∀ f, s.withBlock f = .fault .noSuchInstance := fun f => by rw [State.withBlock, State.block_eq, h]
  cases i <;> exact hstop _

/-- A command that answers a next state was performed by its block. -/
theorem exec_next {i : Instr} {s t : State} (h : exec i s = .next t) :
    ∃ p q, s.insts[s.sel]? = some p ∧ p.perform s.timer i = some q ∧ t.insts[s.sel]? = some q ∧
      t.gie = p.gieAfter s.gie i ∧ State.SameElse s t := by
  cases hp : s.insts[s.sel]? with
  | none => cases (exec_of_no_block i hp).symm.trans h
  | some p =>
    cases hq : p.perform s.timer i with
    | none => cases (exec_of_perform_none hp hq).symm.trans h
    | some q =>
      obtain ⟨t', ht, hgives⟩ := commandGives_of_perform hp hq
      cases ht.symm.trans h
      exact ⟨p, q, rfl, hq, hgives⟩

/-- Only TX_BYTE, GIE_CLR and GIE_SET write `gie` (R32). -/
theorem Inst.gieAfter_of_ne (gie : Bool) (p : Inst) {i : Instr} (htx : ∀ b, i ≠ .txByte b) (hclr : i ≠ .gieClr)
    (hset : i ≠ .gieSet) : p.gieAfter gie i = gie := by
  cases i with
  | txByte b => exact absurd rfl (htx b)
  | gieClr => exact absurd rfl hclr
  | gieSet => exact absurd rfl hset
  | _ => rfl

section perform
variable {timer : Nat} {p q : Inst}

theorem Inst.performWord_encode (i : Instr) : p.performWord timer (encode i) = p.perform timer i := by
  rw [Inst.performWord, decode_encode]

/-- A command that moves the read index is RB_POP or RB_CLEAR (R158). -/
theorem Inst.perform_moves_r {i : Instr} (h : p.perform timer i = some q) (hr : q.rb.r ≠ p.rb.r) :
    i = .rbPop ∨ i = .rbClear := by
  cases i with
  | rbPop => exact .inl rfl
  | rbClear => exact .inr rfl
  | txByte b =>
    simp only [Inst.perform, Option.some_inj] at h
    exact absurd (by rw [← h]; split <;> rfl) hr
  | rbPeek =>
    simp only [Inst.perform] at h
    split at h
    · cases h
      exact absurd rfl hr
    · obtain ⟨b, -, rfl⟩ := Option.map_eq_some_iff.1 h
      exact absurd rfl hr
  | _ =>
    cases h
    exact absurd rfl hr

/-- A word that moves the read index is that of RB_POP or RB_CLEAR (R158). -/
theorem Inst.performWord_moves_r {w : Word} (h : p.performWord timer w = some q) (hr : q.rb.r ≠ p.rb.r) :
    w = encode .rbPop ∨ w = encode .rbClear := by
  unfold Inst.performWord at h
  split at h
  · next i hd =>
    rw [← encode_of_decode hd]
    exact (Inst.perform_moves_r h hr).imp (congrArg encode) (congrArg encode)
  · cases h
    exact absurd rfl hr

/-- A command other than TX_BYTE leaves the transmit engine alone (R110). -/
theorem Inst.perform_tx {i : Instr} (h : p.perform timer i = some q) (hi : ∀ b, i ≠ .txByte b) : q.tx = p.tx := by
  rw [← Inst.performWord_encode] at h
  rcases Inst.performWord_cases h with ⟨b, hd, -⟩ | ⟨st, v, r, rfl, -⟩
  · exact absurd (Except.ok.inj ((decode_encode i).symm.trans hd)) (hi b)
  · rfl

end perform

/-- Settles O19: the executing block is what `Inst.perform` makes of it, and no other block changes. -/
theorem commandFrame : Obligations.CommandFrame := by
  intro i s t h
  obtain ⟨p₀, q₀, hp₀, hperf, hq₀, hgie, helse⟩ := exec_next h
  have ⟨_, _, _, _, _, _, _, _, hother⟩ := helse
  refine ⟨helse, fun htx hclr hset => hgie.trans (p₀.gieAfter_of_ne s.gie htx hclr hset), fun k p q hp hq => ?_⟩
  by_cases hk : k = s.sel
  · subst hk
    cases hp₀.symm.trans hp
    cases hq₀.symm.trans hq
    obtain ⟨hcfg, hrx, henv, hcmd, hw, hmem⟩ := Inst.performWord_frame (Inst.performWord_encode i ▸ hperf)
    refine ⟨hcfg, hrx, henv, hcmd, hw, fun a => by rw [hmem], fun hpop hclear => ?_, Inst.perform_tx hperf⟩
    by_contra hr
    exact (Inst.perform_moves_r hperf hr).elim hpop hclear
  · cases hp.symm.trans ((hother k hk).symm.trans hq)
    exact ⟨rfl, rfl, rfl, rfl, rfl, fun _ => rfl, fun _ _ => rfl, fun _ => rfl⟩

/-- The engines never move the read index (R158): their only write to the ring is a push. -/
theorem Inst.engines_r (W timer : Nat) (pin start : Bool) (p : Inst) : (p.engines W timer pin start).rb.r = p.rb.r := by
  rw [Inst.engines_rb]
  rcases p.captureStep_cases W timer pin with ⟨-, -, heq⟩ | ⟨-, -, heq⟩ | ⟨-, -, heq⟩ <;> rw [heq]
  · rw [Inst.sample_rb]
  · rw [Inst.captureStop_rb, Inst.push_r]

/-- Settles O31: only the stop step pushes, and the read index is moved by the accepted word alone. -/
theorem ringWriters : Obligations.RingWriters := by
  intro s t k p q h hp hq
  refine ⟨fun hno => ?_, fun hr => ?_⟩
  · obtain ⟨hw, hmem⟩ := step_ring_of_no_stop h hp hq <| Bool.eq_false_iff.2 fun hstop => by
      obtain ⟨hbusy, hmet, hcount⟩ := Inst.stopDue_iff.1 hstop
      exact hno ⟨hbusy, hcount, hmet⟩
    exact ⟨hw, fun a => by rw [hmem]⟩
  · have hengines : (s.hostPhase.enginesOf k (p.hostPhase (p.hostMove s.dom s.tick k))).rb.r = p.rb.r := Inst.engines_r ..
    rcases step_block h (State.hostPhase_of_block hp) hq with ⟨-, rfl⟩ | ⟨w, hw, hperf⟩
    · exact absurd hengines hr
    · rcases Inst.performWord_moves_r hperf (hengines.symm ▸ hr) with rfl | rfl
      · exact .inl hw
      · exact .inr hw

end Sys2Proof.Machine
end

section
/-! PROOFS, family 42_ring_buffer.md: the ring as a queue (R151, R157, R159): what a push and RB_POP do to the unread bytes. -/
namespace Sys2Proof.Machine

/-! ### Pushes -/

/-- Settles O47: `avail_push`, whose count does not depend on the storage. -/
theorem pushChangesAvail : Obligations.PushChangesAvail := by
  intro p b hw hr
  have hcount := avail_push (p := { p with rb.mem := [] }) ⟨hw, hr, Memory.wf_nil⟩ b
  have hpush : (p.push b).avail = (({ p with rb.mem := [] } : Inst).push b).avail := by
    rw [p.push_of_lt b hw, Inst.push_of_lt { p with rb.mem := [] } b hw]
    rfl
  have hfull : p.avail = p.cfg.cap - 1 ↔ p.avail + 1 = p.cfg.cap := by omega
  rw [hpush, hcount, if_congr hfull rfl rfl]
  rfl

theorem Inst.length_unread (p : Inst) : p.unread.length = p.avail := by rw [Inst.unread, List.length_map, List.length_range]

/-- A block with the last `n mod C` of `n` bytes unread has that many unread. -/
theorem avail_of_unread_eq_drop {q : Inst} {bs : List Byte} {cap : Nat}
    (h : q.unread = bs.drop (bs.length - bs.length % cap)) : q.avail = bs.length % cap := by
  rw [← Inst.length_unread, h, List.length_drop, Nat.sub_sub_self (Nat.mod_le ..)]

section pushes
variable {p : Inst} (bs : List Byte)

theorem Inst.foldl_push_cfg : (bs.foldl Inst.push p).cfg = p.cfg :=
  List.foldlRecOn (motive := fun q => q.cfg = p.cfg) bs Inst.push rfl fun q hq b _ => (q.push_cfg b).trans hq

theorem Inst.ringSound_foldl_push (h : p.RingSound) : (bs.foldl Inst.push p).RingSound :=
  List.foldlRecOn bs Inst.push h fun _ hq b _ => Inst.ringSound_push hq b

/-- After pushes into an empty ring the unread bytes are the last ones pushed (R151): by induction on the pushes, the last of
which joins the unread bytes or hides them. -/
theorem Inst.unread_foldl_push (h : p.RingSound) (hempty : p.unread = []) :
    (bs.foldl Inst.push p).unread = bs.drop (bs.length - bs.length % p.cfg.cap) := by
  induction bs using List.reverseRecOn with
  | nil => exact hempty
  | append_singleton bs b ih =>
    have hcap : 0 < p.cfg.cap := Nat.zero_lt_of_lt h.1
    have hmod : (bs.length + 1) % p.cfg.cap =
        if bs.length % p.cfg.cap + 1 = p.cfg.cap then 0 else bs.length % p.cfg.cap + 1 := by
      rw [← nextIndex_eq (Nat.mod_lt _ hcap), nextIndex, Nat.mod_add_mod]
    rw [List.foldl_concat, Inst.unread_push (Inst.ringSound_foldl_push bs h), avail_of_unread_eq_drop ih, Inst.foldl_push_cfg, ih,
      List.length_append, List.length_singleton, hmod]
    split
    · simp
    · rw [Nat.add_sub_add_right, List.drop_append_of_le_length (Nat.sub_le ..)]

end pushes

/-- Settles O45: the unread bytes by induction on the pushes; their number is that of the bytes left. -/
theorem overflowHidesBytes : Obligations.OverflowHidesBytes := by
  intro p bs he hw hwf
  have hempty : p.unread = [] := List.eq_nil_of_length_eq_zero (by simp [Inst.length_unread, Inst.avail, he])
  have hunread := Inst.unread_foldl_push bs ⟨hw, he ▸ hw, hwf⟩ hempty
  exact ⟨avail_of_unread_eq_drop hunread, hunread⟩

/-! ### Pushes and RB_POPs -/

theorem okByte_toNat (b : Byte) : okByte (some ⟨.ok, b.toNat⟩) = [b] := by rw [okByte, BitVec.ofNat_toNat, BitVec.setWidth_eq]

/-- RB_POP takes the oldest unread byte, if there is one, and answers it (R152). -/
theorem Inst.perform_rbPop_unread {p : Inst} (h : p.RingSound) (timer : Nat) :
    ∃ q, p.perform timer .rbPop = some q ∧ q.RingSound ∧ okByte q.port.resp ++ q.unread = p.unread := by
  obtain ⟨hw, hr, hwf⟩ := h
  by_cases he : p.rb.w = p.rb.r
  · exact ⟨_, Inst.perform_oldest_of_empty timer he (.inl rfl), ⟨hw, hr, hwf⟩, rfl⟩
  · refine ⟨_, Inst.perform_rbPop_of_unread timer he hr, ⟨hw, nextIndex_lt (Nat.zero_lt_of_lt hw) _, hwf⟩, ?_⟩
    rw [Inst.unread_cons ⟨hw, hr, hwf⟩ he]
    exact congrArg (· ++ _) (okByte_toNat _)

/-- The bytes that leave a sound ring and those it holds in the end are those it held and those pushed (R157): by induction on
the operations, each of which moves one byte in at the end or out at the front. -/
theorem ringRun_fifo {ops : List RingOp} {s t : State} {p q : Inst} {out : List Byte} (hp : s.insts[s.sel]? = some p)
    (hring : p.RingSound) (hrun : ringRun ops s = some (t, out)) (hq : t.insts[t.sel]? = some q) :
    out ++ q.unread = p.unread ++ ops.flatMap RingOp.pushed := by
  induction ops generalizing s p out with
  | nil =>
    cases hrun
    cases hp.symm.trans hq
    simp
  | cons op ops ih =>
    cases op with
    | push b =>
      rw [ringRun, State.block_eq, hp] at hrun
      split at hrun
      · next hroom =>
        have hfits : ¬p.avail + 1 = p.cfg.cap := (of_decide_eq_true hroom).ne
        have hp' : (s.updBlock (·.push b)).insts[s.sel]? = some (p.push b) := by
          rw [State.getElem?_updBlock, if_pos rfl, hp, Option.map_some]
        rw [ih hp' (Inst.ringSound_push hring b) hrun, Inst.unread_push hring, if_neg hfits, List.append_assoc]
        rfl
      · cases hrun
    | pop =>
      obtain ⟨p', hperf, hring', hpopped⟩ := Inst.perform_rbPop_unread hring s.timer
      obtain ⟨u, hu, hp', -, -, -, -, -, hsel, -⟩ := commandGives_of_perform hp hperf
      rw [← hsel] at hp'
      simp only [ringRun, hu, State.block_eq, hp'] at hrun
      obtain ⟨⟨t', rest⟩, hrest, heq⟩ := Option.map_eq_some_iff.1 hrun
      cases heq
      rw [← hpopped, List.append_assoc, ih hp' hring' hrest, ← List.append_assoc]
      rfl

/-- Settles O46: `ringRun_fifo`, for the sound ring of a reachable state. -/
theorem fifoOrder : Obligations.FifoOrder := by
  intro ops s t p q out hp hok hrun hq
  obtain ⟨hw, hr, hwf, -⟩ := hok
  exact ringRun_fifo hp ⟨hw, hr, hwf⟩ hrun hq

end Sys2Proof.Machine
end

section
/-! PROOFS, family 43_platform.md: what GIE_CLR, GIE_SET and TMR_READ answer (R170 to R172). -/
namespace Sys2Proof.Machine

/-- Neither the executing block nor `gie` changes where each is replaced by itself. -/
theorem State.replaceBlock_self {s : State} {p : Inst} (h : s.block = some p) :
    s.replaceBlock s.gie (some p) = .next s := by
  have hinsts : s.insts.modify s.sel id = s.insts := List.modify_id ..
  have hself : s.updBlock id = s := by rw [State.updBlock, hinsts]
  exact congrArg _ ((State.updBlock_const h id).symm.trans hself)

/-- A command that gives every block the same answer, and `gie` the same value, changes nothing when it is repeated (R67). -/
theorem exec_repeat {i : Instr} {st : Status} {v : Nat} {b : Bool}
    (hanswer : ∀ timer (p : Inst), p.perform timer i = some (p.respond st v)) (hgie : ∀ g (p : Inst), p.gieAfter g i = b)
    {s t : State} (h : exec i s = .next t) : exec i t = .next t := by
  obtain ⟨p, q, -, hq, hblock, hg, -, -, -, -, hsel, -⟩ := exec_next h
  cases (hanswer _ p).symm.trans hq
  rw [← hsel] at hblock
  rw [exec_eq i hblock, hanswer, hgie, ← hgie s.gie p, ← hg]
  exact State.replaceBlock_self hblock

/-- Settles O15: GIE_CLR answers `(OK, 0)` and writes 0, whatever it finds. -/
theorem gieClrDisables : Obligations.GieClrDisables := fun _ _ hp =>
  ⟨commandGives_of_perform hp rfl, fun _ => exec_repeat (fun _ _ => rfl) (fun _ _ => rfl)⟩

/-- Settles O16: GIE_SET answers `(OK, 0)` and writes 1, whatever it finds. -/
theorem gieSetEnables : Obligations.GieSetEnables := fun _ _ hp =>
  ⟨commandGives_of_perform hp rfl, fun _ => exec_repeat (fun _ _ => rfl) (fun _ _ => rfl)⟩

/-- Settles O17: TMR_READ answers with the timer of the state that executes it, and writes no `gie`. -/
theorem tmrReadAnswersTimer : Obligations.TmrReadAnswersTimer := fun _ _ hp =>
  commandGives_of_perform hp rfl

end Sys2Proof.Machine
end

section
/-! PROOFS, family 44_host_sequences.md: the phases of reads and writes (R182 to R190). A proof about `Phase.answer` splits
along its branches with `fun_cases`, which numbers them in the definition's order: 1 idle; 2 and 3 the last byte of a write
and one with more to come; 4 and 5 `available()` and `flush()`; 6 a read's first TMR_READ; 7 and 8 RB_AVAIL with enough bytes
and with too few; 9 and 10 the loop's TMR_READ after the window and within it; 11 and 12 the last byte of a read and one
with more to come. -/
namespace Sys2Proof.Machine

section
variable {dc : DomainConfig} {r : Response} {ph : Phase} {i : Nat} {op : ReadOp}

/-! ### Taking the bytes of a read -/

/-- A read begins to take its bytes when RB_AVAIL counts enough of them, and goes on after each byte but the last. -/
theorem Phase.answer_eq_readTake {got : List Byte} {left : Nat} (h : (ph.answer dc r).1 = .readTake i op got left) :
    (∃ t0, ph = .readAvail i op t0 ∧ op.need ≤ r.value ∧ got = [] ∧ left = op.need) ∨
    (∃ got', ph = .readTake i op got' (left + 1) ∧ 1 ≤ left ∧ got = got' ++ [BitVec.ofNat 8 r.value]) := by
  revert h
  fun_cases Phase.answer dc r ph with
  | case7 j op' t0 henough =>
    rintro ⟨⟩
    exact .inl ⟨t0, rfl, henough, rfl, rfl⟩
  | case12 j op' got' left' hmore =>
    rintro ⟨⟩
    have hleft : left' - 1 + 1 = left' := by omega
    exact .inr ⟨got', by rw [hleft], by omega, rfl⟩
  | _ => rintro ⟨⟩

/-- Bytes are returned by the answer to the last command that takes one. -/
theorem Phase.answer_eq_bytes {bs : List Byte} (h : (ph.answer dc r).2 = some (.bytes bs)) :
    ∃ i op got left, ph = .readTake i op got left ∧ left ≤ 1 ∧ bs = got ++ [BitVec.ofNat 8 r.value] := by
  revert h
  fun_cases Phase.answer dc r ph with
  | case11 i op got left hlast =>
    rintro ⟨⟩
    exact ⟨i, op, got, left, rfl, hlast, rfl⟩
  | _ => rintro ⟨⟩

/-- The last byte of a counted read completes the number it needs. -/
theorem Phase.Counted.length_of_last {got : List Byte} {left : Nat} (h : (Phase.readTake i op got left).Counted)
    (hlast : left ≤ 1) (b : Byte) : (got ++ [b]).length = op.need := by
  obtain ⟨hleft, hsum⟩ := h
  rw [List.length_append, List.length_singleton]
  omega

/-- Every answer keeps the count: the taking starts with none of `need` bytes, and moves one byte from `left` to `got`. -/
theorem Phase.Counted.answer (h : ph.Counted) : (ph.answer dc r).1.Counted := by
  revert h
  fun_cases Phase.answer dc r ph with
  | case7 i op t0 henough => exact fun hneed => ⟨hneed, Nat.zero_add _⟩
  | case12 i op got left hmore =>
    rintro ⟨hleft, hsum⟩
    refine ⟨by omega, ?_⟩
    rw [List.length_append, List.length_singleton]
    omega
  | case6 | case8 | case10 => exact id
  | _ => exact fun _ => trivial

/-- The first phase of every call is counted: a read starts only if it needs a byte. Of the branches of `Call.start`, 8 and 9
are the reads of one byte and 11 `read_bytes` of one or more; 2, 4 and 10 return at once. -/
theorem Call.counted_of_start {c : Call} (h : c.start = .inl ph) : ph.Counted := by
  revert h
  fun_cases Call.start c with
  | case2 | case4 | case10 => rintro ⟨⟩
  | case8 | case9 => rintro ⟨⟩; exact Nat.le_refl 1
  | case11 i n => rintro ⟨⟩; exact Nat.succ_pos n
  | _ => rintro ⟨⟩; exact trivial

/-- RB_POP and RB_PEEK are commands of a read's taking phase only: every other phase's command has another word. -/
theorem Phase.taking_of_command {c : Instr} (hcmd : ph.command = some (i, encode c)) (hc : c = .rbPop ∨ c = .rbPeek) :
    ∃ op got left, ph = .readTake i op got left := by
  cases ph with
  | idle => cases hcmd
  | readTake j op got left =>
    obtain ⟨rfl, -⟩ := Prod.mk.inj (Option.some.inj hcmd)
    exact ⟨op, got, left, rfl⟩
  | _ =>
    have hword := encode_injective (congrArg Prod.snd (Option.some.inj hcmd))
    subst hword
    rcases hc with hc | hc <;> cases hc

/-! ### The read's window -/

/-- A read fails exactly at a TMR_READ of its loop that finds the window elapsed. -/
theorem Phase.answer_eq_readTimeout_iff :
    (ph.answer dc r).2 = some .readTimeout ↔
      ∃ i op t0, ph = .readClock i op t0 ∧ dc.readTimeout ≤ elapsed dc.timerW r.value t0 := by
  fun_cases Phase.answer dc r ph with
  | case9 i op t0 hover => exact iff_of_true rfl ⟨i, op, t0, rfl, hover⟩
  | case10 i op t0 hwithin =>
    refine iff_of_false nofun ?_
    rintro ⟨_, _, _, ⟨⟩, hover⟩
    exact hwithin hover
  | _ =>
    refine iff_of_false nofun ?_
    rintro ⟨_, _, _, ⟨⟩, -⟩

/-- The answer that gives a call's result ends the call. -/
theorem Phase.idle_of_result {res : CallResult} (h : (ph.answer dc r).2 = some res) : (ph.answer dc r).1 = .idle := by
  revert h
  fun_cases Phase.answer dc r ph with
  | case1 | case2 | case4 | case5 | case9 | case11 => exact fun _ => rfl
  | _ => rintro ⟨⟩

/-- A read's loop begins with the answer of the first TMR_READ as its `t0`, and goes round, `t0` kept, within the window. -/
theorem Phase.answer_eq_readAvail_iff {t0 : Nat} :
    (ph.answer dc r).1 = .readAvail i op t0 ↔
      (ph = .readStart i op ∧ t0 = r.value) ∨
      (ph = .readClock i op t0 ∧ elapsed dc.timerW r.value t0 < dc.readTimeout) := by
  constructor
  · fun_cases Phase.answer dc r ph with
    | case6 j op' => rintro ⟨⟩; exact .inl ⟨rfl, rfl⟩
    | case10 j op' t0' hwithin => rintro ⟨⟩; exact .inr ⟨rfl, Nat.lt_of_not_le hwithin⟩
    | _ => rintro ⟨⟩
  · rintro (⟨rfl, rfl⟩ | ⟨rfl, hwithin⟩)
    · rfl
    · rw [Phase.answer, if_neg (Nat.not_le_of_lt hwithin)]

/-- The loop reads the timer after RB_AVAIL counted too few bytes, `t0` kept. -/
theorem Phase.answer_eq_readClock_iff {t0 : Nat} :
    (ph.answer dc r).1 = .readClock i op t0 ↔ ph = .readAvail i op t0 ∧ r.value < op.need := by
  constructor
  · fun_cases Phase.answer dc r ph with
    | case8 j op' t0' hfew => rintro ⟨⟩; exact ⟨rfl, Nat.lt_of_not_le hfew⟩
    | _ => rintro ⟨⟩
  · rintro ⟨rfl, hfew⟩
    rw [Phase.answer, if_neg (Nat.not_le_of_lt hfew)]

/-- The first TMR_READ of a read is not repeated. -/
theorem Phase.answer_ne_readStart : (ph.answer dc r).1 ≠ .readStart i op := by
  fun_cases Phase.answer dc r ph <;> exact nofun

/-- No call begins inside a read's loop. -/
theorem Call.start_not_in_loop {c : Call} (h : c.start = .inl ph) (t0 : Nat) :
    ph ≠ .readAvail i op t0 ∧ ph ≠ .readClock i op t0 := by
  revert h
  fun_cases Call.start c <;> rintro ⟨⟩ <;> exact ⟨nofun, nofun⟩

/-- A valid window is met by some reading of the timer: the one `READ_TIMEOUT` ticks after `t0`, modulo `2^W`. -/
theorem DomainConfig.exists_window_over (hv : dc.valid = true) (t0 : Nat) :
    ∃ v, v < 2 ^ dc.timerW ∧ dc.readTimeout ≤ elapsed dc.timerW v t0 :=
  ⟨(t0 + dc.readTimeout) % 2 ^ dc.timerW, Nat.mod_lt _ (Nat.two_pow_pos _),
    (elapsed_of_add _ t0 _ (of_decide_eq_true hv)).ge⟩

/-! ### Writes -/

/-- A write of bytes begins with the first of them. -/
theorem Call.start_write {s : List Byte}
    (h : Call.start (.writeString i s) = .inl ph ∨ Call.start (.writeBytes i s) = .inl ph) :
    ∃ b rest, s = b :: rest ∧ ph = .write i b rest := by
  cases s with
  | nil => exact h.elim nofun nofun
  | cons b rest =>
    have hph : Sum.inl (.write i b rest) = (.inl ph : Phase ⊕ CallResult) := h.elim id id
    exact ⟨b, rest, rfl, (Sum.inl.inj hph).symm⟩

/-- Between calls the host issues nothing. -/
theorem phaseWords_idle (rs : List Response) : phaseWords dc rs .idle = [] := by
  induction rs with
  | nil => rfl
  | cons r rs ih => exact ih

/-- With a response to each, a write issues one TX_BYTE per byte, in order, and is then between calls. -/
theorem phaseWords_write (b : Byte) {rest : List Byte} {rs : List Response} (h : (b :: rest).length ≤ rs.length) :
    phaseWords dc rs (.write i b rest) = (b :: rest).map fun b => encode (.txByte b) := by
  induction rest generalizing b rs with
  | nil =>
    cases rs with
    | nil => cases h
    | cons r rs => exact congrArg (encode (.txByte b) :: ·) (phaseWords_idle rs)
  | cons c rest ih =>
    cases rs with
    | nil => cases h
    | cons r rs => exact congrArg (encode (.txByte b) :: ·) (ih c (Nat.le_of_succ_le_succ h))

end

/-! ### The obligations -/

/-- Settles O51: `Phase.answer` enters the taking phase with all bytes available, leaves it after the last, and keeps the
count. -/
theorem readTakesOnlyWhenAvailable : Obligations.ReadTakesOnlyWhenAvailable := by
  refine ⟨fun _ _ _ _ _ _ _ => Phase.answer_eq_readTake, fun dc r ph bs h => ?_, fun _ _ _ => Phase.Counted.answer,
    fun _ _ => Call.counted_of_start, fun ph i h => ?_⟩
  · obtain ⟨i, op, got, left, rfl, hlast, rfl⟩ := Phase.answer_eq_bytes h
    exact ⟨i, op, got, left, rfl, hlast, rfl, fun hcount => hcount.length_of_last hlast _⟩
  · rcases h with hpop | hpeek
    · exact Phase.taking_of_command hpop (.inl rfl)
    · exact Phase.taking_of_command hpeek (.inr rfl)

/-- Settles O52: only the branches of the loop's TMR_READ compare with the window, and the loop passes `t0` on. -/
theorem readTimeoutOnlyAfterWindow : Obligations.ReadTimeoutOnlyAfterWindow := by
  refine ⟨fun _ _ _ => ⟨Phase.answer_eq_readTimeout_iff, fun _ => Phase.idle_of_result⟩,
    fun _ _ _ _ _ _ => ⟨Phase.answer_eq_readAvail_iff, Phase.answer_eq_readClock_iff, Phase.answer_ne_readStart⟩,
    fun _ _ _ _ t0 h => Call.start_not_in_loop h t0, fun dc i op t0 hv => ?_⟩
  obtain ⟨v, hlt, hover⟩ := DomainConfig.exists_window_over hv t0
  exact ⟨v, hlt, Phase.answer_eq_readTimeout_iff.2 ⟨i, op, t0, rfl, hover⟩⟩

/-- Settles O53: `phaseWords_write`, from the first phase of each kind of write. -/
theorem writeIssuesBytesInOrder : Obligations.WriteIssuesBytesInOrder := by
  refine ⟨fun dc i s rs ph hlen hstart => ?_, fun dc i b rs ph hlen hstart => ?_, fun i s hs => ?_, fun _ => ⟨rfl, rfl⟩⟩
  · obtain ⟨b, rest, rfl, rfl⟩ := Call.start_write hstart
    exact phaseWords_write b hlen
  · cases hstart
    exact phaseWords_write b hlen
  · obtain ⟨b, rest, rfl⟩ := List.exists_cons_of_ne_nil hs
    exact ⟨.write i b rest, rfl, rfl⟩

end Sys2Proof.Machine
end

section
/-! PROOFS, family 60_exceptions.md: no tick of a reachable domain stops (R200, R216). -/
namespace Sys2Proof.Machine

/-- Settles O37: a valid configuration is not refused, and with the ring indices in range neither a push nor the accepted
command finds a slot missing. -/
theorem stepAlwaysAnswers : Obligations.StepAlwaysAnswers := fun _ => State.Inv.exists_step

end Sys2Proof.Machine
end

section
/-! PROOFS, family 70_reset_and_hazards.md: what reset leaves, and that no host sees which unobservable values were drawn
(R231). -/
namespace Sys2Proof.Machine

/-- No byte is unread after reset, whatever the ring's slots hold (R33, R66). -/
@[simp] theorem Inst.unread_resetWith (c : InstConfig) (d : InstDraw) : (Inst.resetWith c d).unread = [] := by
  have havail : (Inst.resetWith c d).avail = 0 := by simp [Inst.avail, Inst.resetWith]
  exact List.eq_nil_of_length_eq_zero (by rw [Inst.length_unread, havail])

/-- Of a block's draws, only `rx_prev` can be observed: both engines are idle and the ring is empty (R231). -/
theorem Inst.alike_resetWith (c : InstConfig) {d e : InstDraw} (hprev : d.rxPrev = e.rxPrev) :
    Inst.Alike (Inst.resetWith c d) (Inst.resetWith c e) := by
  have hunread : (Inst.resetWith c e).unread = (Inst.resetWith c d).unread := by simp
  exact ⟨rfl, rfl, rfl, rfl, rfl, hunread, rfl, rfl, nofun, hprev.symm, rfl, rfl, nofun⟩

/-- Settles O36: the `k`-th block is `Inst.resetWith` of the `k`-th configuration and draw, which fixes these registers. -/
theorem resetValues : Obligations.ResetValues := by
  refine fun cfg dom timer is => ⟨rfl, rfl, rfl, List.length_map _, fun k cd hk => ⟨Inst.resetWith cd.1 cd.2, ?_, ?_⟩⟩
  · rw [State.getElem?_resetWith, hk, Option.map_some]
  · exact ⟨rfl, rfl, rfl, rfl, rfl, rfl, rfl, rfl, rfl, rfl, rfl, rfl⟩

/-- Settles O49: blocks at the same index have the same configuration and `rx_prev`, so `Inst.alike_resetWith` applies. -/
theorem resetDrawsAlike : Obligations.ResetDrawsAlike := by
  intro cfg dom timer is js hdraws
  refine ⟨rfl, ?_, fun k p q hp hq => ?_⟩
  · simpa [State.resetWith] using (congrArg List.length hdraws).symm
  · rw [State.getElem?_resetWith, Option.map_eq_some_iff] at hp hq
    obtain ⟨⟨c, d⟩, hi, rfl⟩ := hp
    obtain ⟨⟨c', e⟩, hj, rfl⟩ := hq
    have hk := congrArg (·[k]?) hdraws
    simp only [List.getElem?_map, hi, hj, Option.map_some, Option.some.injEq, Prod.mk.injEq] at hk
    obtain ⟨rfl, hprev⟩ := hk
    exact Inst.alike_resetWith c hprev

end Sys2Proof.Machine
end

section
/-! PROOFS, family other: words of 95_test_vectors.md 2.1 (R81 to R85). -/
namespace Sys2Proof.Machine

/-- Settles O1: each legal word is the encoding of its command, and the decoder is run on each illegal one. -/
theorem specWordsDecode : Obligations.SpecWordsDecode := by
  refine ⟨decode_encode (.txByte 0x41#8), decode_encode (.txByte 0xFF#8), decode_encode .rbPop, decode_encode .rbPeek,
    decode_encode .rbAvail, decode_encode .rbClear, decode_encode .gieClr, decode_encode .gieSet, decode_encode .tmrRead,
    ?dataNonzero, ?opNine, ?opZero, ?rsvNonzero⟩
  all_goals decide

end Sys2Proof.Machine
end
